-- ==== Sys2Proof/Word.lean ====
section
/-! DEFINITION. The widths of the engine: 32-bit registers and addresses, 8-bit memory bytes (rules R8, R11, R22, R40). -/

namespace Sys2Proof

/-- The value of an operand, control or status register (rules R22, R30), and a command word (rule R70). -/
abbrev Word := BitVec 32

/-- One byte of buffer memory or of a stream (rule R11). -/
abbrev Byte := BitVec 8

end Sys2Proof
end

