-- ==== Sys2Proof/Machine/Bytes.lean ====
section
/-! DEFINITION. Byte sequences and little-endian fields (rules R11, R52). -/

namespace Sys2Proof.Machine

/-- The number whose little-endian bytes these are (rule R11). -/
def leNat : List Byte → Nat
  | [] => 0
  | b :: rest => b.toNat + 256 * leNat rest

/-- `le32` of the first four bytes (rule R11). -/
def le32 (bytes : List Byte) : Word := BitVec.ofNat 32 (leNat (bytes.take 4))

/-- `bytes_le32` (rule R11). -/
def bytesLe32 (v : Word) : List Byte :=
  [v.extractLsb' 0 8, v.extractLsb' 8 8, v.extractLsb' 16 8, v.extractLsb' 24 8]

/-- Bits `lo .. lo + width - 1` of a number (rule R10). -/
def bitField (v lo width : Nat) : Nat := v / 2 ^ lo % 2 ^ width

/-- The byte at an index, 0 past the end (no rule reads past the end). -/
def byteAt (bytes : List Byte) (i : Nat) : Byte := bytes.getD i 0

end Sys2Proof.Machine
end

