-- ==== Sys2Proof/Config.lean ====
section
/-! DEFINITION. The parameters of rule R8, which are fixed for the life of an engine and which no command reads or
writes (rule R21), and the free values: functions without a body for what the spec leaves to the implementation.
The default values of the parameters stand in Machine/Defaults.lean. -/

namespace Sys2Proof

/-- A colour channel of a pixel (rule R120). -/
inductive Channel
  | r
  | g
  | b
  | a
deriving DecidableEq, Repr

/-- Which channel stands at each of four places. For `PIX_FIELD_ORDER` the places are the bit-fields of a 16-bit layout
from the most significant one down (rule R123); for `PIX8888_ORDER` they are the four stored bytes from the lowest
address up (rule R126). -/
structure ChannelOrder where
  at0 : Channel
  at1 : Channel
  at2 : Channel
  at3 : Channel
deriving DecidableEq, Repr

/-- Every channel stands at exactly one place. -/
abbrev ChannelOrder.Wf (o : ChannelOrder) : Prop := [o.at0, o.at1, o.at2, o.at3].Nodup

/-- `PIX_DOWN_BIAS` (rule R133): a fixed number for every width (default 127), or the other reading the rule names, half
of the target maximum, `(2^N - 1) div 2`. -/
inductive DownBias
  | fixed (bias : Nat)
  | halfTarget
deriving DecidableEq, Repr

/-- The three block-codec variants (rule R141). -/
inductive BcVariant
  | va
  | vb
  | vc
deriving DecidableEq, Repr

/-- `BC_VARIANT` (rule R142): the codec variant of each block format, `none` where the adapter has no codec. -/
structure BcVariantMap where
  blk1 : Option BcVariant
  blk2 : Option BcVariant
  blk3 : Option BcVariant
  blk4 : Option BcVariant
  blk5 : Option BcVariant
deriving DecidableEq, Repr

/-- What rule R142 demands of `BC_VARIANT`: `BLK1` has `VA` and no other format has it; exactly four formats have a
variant; exactly two of those share one. -/
abbrev BcVariantMap.Wf (m : BcVariantMap) : Prop :=
  m.blk1 = some .va ∧
  [m.blk2, m.blk3, m.blk4, m.blk5].count (some .va) = 0 ∧
  [m.blk2, m.blk3, m.blk4, m.blk5].count none = 1 ∧
  [m.blk2, m.blk3, m.blk4, m.blk5].count (some .vb) ∈ [1, 2]

/-- `BC_DEC` (rules R143, R150): the usual layout of rule R150, or any function the rule admits. -/
inductive BcDecChoice
  | usual
  | other
deriving DecidableEq, Repr

/-- Which encoder the engine has (rules R168, R193): the default one, or any other that the spec admits. -/
inductive EncChoice
  | default
  | other
deriving DecidableEq, Repr

/-- `LZ_FORMAT` (rules R87, R186, R197): the default token format, or an abstract one. -/
inductive LzFormat
  | lzss
  | other
deriving DecidableEq, Repr

/-- `CSUM_EXT` (rule R183): how a byte enters the checksum. -/
inductive CsumExt
  | zero
  | sign
deriving DecidableEq, Repr

/-- `LZ_OVERSHOOT` (rule R190): what a pointer that runs past the expected length does. -/
inductive LzOvershoot
  | error
  | truncate
deriving DecidableEq, Repr

/-- `LZ_TRAILING` (rule R190): what source bytes after the checksum trailer do. -/
inductive LzTrailing
  | error
  | ignore
deriving DecidableEq, Repr

/-- The parameters of rule R8 that are plain data, and for each function-valued parameter a choice between the default
the spec gives and a free one. -/
structure Config where
  /-- `MEM_SIZE`, number of bytes of buffer memory. -/
  memSize : Nat
  /-- `PIX_FIELD_ORDER`. -/
  pixFieldOrder : ChannelOrder
  /-- `PIX8888_ORDER`. -/
  pix8888Order : ChannelOrder
  /-- `PIX_DOWN_BIAS`. -/
  pixDownBias : DownBias
  /-- `BC_VARIANT`. -/
  bcVariant : BcVariantMap
  /-- `BC_DEC`. -/
  bcDec : BcDecChoice
  /-- `RLE_ENC`. -/
  rleEnc : EncChoice
  /-- `LZ_FORMAT`. -/
  lzFormat : LzFormat
  /-- `LZ_ENC`. -/
  lzEnc : EncChoice
  /-- `CSUM_EXT`. -/
  csumExt : CsumExt
  /-- `LZ_OVERSHOOT`. -/
  lzOvershoot : LzOvershoot
  /-- `LZ_TRAILING`. -/
  lzTrailing : LzTrailing
deriving DecidableEq, Repr

/-- A fixed bias must make part (a) of rule R134 hold, without which rule R303's lossless direction fails: for 5-bit
fields those are the biases 15 to 239, which serve the other widths too (log 6). -/
abbrev DownBias.Wf : DownBias → Prop
  | .fixed bias => 15 ≤ bias ∧ bias ≤ 239
  | .halfTarget => True

/-- The constraints rule R8 and the rules it names put on the parameters. -/
structure Config.Wf (c : Config) : Prop where
  memSize_pos : 1 ≤ c.memSize
  memSize_le : c.memSize ≤ 2 ^ 32
  pixFieldOrder : c.pixFieldOrder.Wf
  pix8888Order : c.pix8888Order.Wf
  pixDownBias : c.pixDownBias.Wf
  bcVariant : c.bcVariant.Wf

namespace Free

/-- FREE VALUE. What the byte at an address holds after the reset of the given number, as long as nothing has written
it (rule R46: a model must treat it as holding any value). -/
opaque unspecifiedByte (epoch addr : Nat) : Byte

/-- FREE VALUE. Byte `i` of `BC_DEC(v, w, h, comp)` when `BC_DEC` is not the usual layout (rule R143). -/
opaque bcDecByte (v : BcVariant) (w h : Nat) (comp : List Byte) (i : Nat) : Byte

/-- FREE VALUE. Byte `i` of `BC_ENC(v, w, h, rgba)` (rule R144). -/
opaque bcEncByte (v : BcVariant) (w h : Nat) (rgba : List Byte) (i : Nat) : Byte

/-- FREE VALUE. The expansion of a 5-bit (red, blue) or 6-bit (green) colour field to 8 bits in the usual block layout
(rule R150: it differs between implementations). -/
opaque bcExpand (c : Channel) (field : Nat) : Byte

/-- FREE VALUE. Whether the inexact quotient `num / den` of palette entry `entry` and channel `c` is rounded up in the
usual block layout (rule R150: the rounding differs between implementations). -/
opaque bcRoundUp (entry : Nat) (c : Channel) (num den : Nat) : Bool

/-- FREE VALUE. A run-length encoder other than the canonical one (rule R167). -/
opaque rleEnc (x : List Byte) : List Byte

/-- FREE VALUE. An encoder of the default token format other than the default one (rule R192). -/
opaque lzEnc (x : List Byte) : List Byte

/-- FREE VALUE. The abstract token format (rule R197): what a whole token stream decodes to for an expected length, if
it is one. The decoder uses it at the lengths for which it and `lzFormatEncode` meet rule R192. -/
opaque lzFormatDecode (stream : List Byte) (n : Nat) : Option (List Byte)

/-- FREE VALUE. The abstract token format: the error value of a source that holds no token stream (rule R266).
The spec bounds it nowhere; `ERRINFO` holds it modulo `2^32`, the model's choice (log 20). -/
opaque lzFormatError (src : List Byte) (n : Nat) : Nat

/-- FREE VALUE. The encoder of the abstract token format (rules R192, R197), used at the lengths for which rule R192
holds of it. -/
opaque lzFormatEncode (x : List Byte) : List Byte

end Free

end Sys2Proof
end

