-- ==== Sys2Proof/Machine/Defaults.lean ====
section
/-! DEFINITION. The default values of the parameters (rule R8). -/

namespace Sys2Proof.Machine

/-- `PIX_FIELD_ORDER`: A, R, G, B from the most significant field down (rule R123). -/
def defaultFieldOrder : ChannelOrder := { at0 := .a, at1 := .r, at2 := .g, at3 := .b }

/-- `PIX8888_ORDER`: stored A, B, G, R (rule R126). -/
def default8888Order : ChannelOrder := { at0 := .a, at1 := .b, at2 := .g, at3 := .r }

/-- `BC_VARIANT`: the table of rule R142. -/
def defaultVariants : BcVariantMap :=
  { blk1 := some .va, blk2 := none, blk3 := some .vb, blk4 := some .vc, blk5 := some .vc }

/-- The defaults of rule R8. -/
def defaultConfig : Config where
  memSize := 2 ^ 32
  pixFieldOrder := defaultFieldOrder
  pix8888Order := default8888Order
  pixDownBias := .fixed 127
  bcVariant := defaultVariants
  bcDec := .usual
  rleEnc := .default
  lzFormat := .lzss
  lzEnc := .default
  csumExt := .zero
  lzOvershoot := .error
  lzTrailing := .error

end Sys2Proof.Machine
end

