-- ==== Sys2Proof/Machine/State.lean ====
section
/-! DEFINITION. The state of the engine (rules R20 to R46), the state inside a stream command (rule R28), the host's
actions still to come (rule R90), and the reasons for which the model stops. -/

namespace Sys2Proof.Machine

/-- Buffer memory (rule R40): the bytes written since the last reset, as pairs of address and byte in strictly rising
address order. An unlisted address is one that nothing has written; `Memory.lookup` reads it as `none`, and no listed
entry can read as that, so equal memories are equal lists. -/
abbrev Memory := List Host.Cell

/-- What is held at an address: the byte last written there, or `none` if nothing has written it since reset. -/
def Memory.lookup : Memory → Nat → Option Byte
  | [], _ => none
  | (b, v) :: rest, a => if a = b then some v else Memory.lookup rest a

/-- The canonical form: addresses strictly rising. -/
def Memory.wf : Memory → Bool
  | [] => true
  | [_] => true
  | (a, _) :: (b, v) :: rest => a < b && Memory.wf ((b, v) :: rest)

/-- The mode of the run-length decoder (rules R28, R163): what the next source byte is. -/
inductive RldMode
  /-- A flag byte. -/
  | flag
  /-- One of `k` remaining literal bytes. -/
  | lit (k : Nat)
  /-- The byte to repeat `k` times. -/
  | rep (k : Nat)
deriving DecidableEq, Repr

/-- What the engine holds while `RLD` runs (rules R28, R162, R163). `dp` is the length of `out`. -/
structure RldStream where
  /-- The source bytes, read at step 7 of rule R100. -/
  src : List Byte
  /-- Offset of the next unread source byte. -/
  sp : Nat
  /-- Offset of the last flag byte. -/
  fsp : Nat
  /-- The output produced so far. -/
  out : List Byte
  mode : RldMode
deriving DecidableEq, Repr

/-- What the engine holds while `LZD` runs with the default token format (rules R28, R187). `dp` is the length of
`out`. -/
structure LzdStream where
  /-- The source bytes, read at step 7 of rule R100. -/
  src : List Byte
  /-- Offset of the next unread source byte. -/
  sp : Nat
  /-- Offset of the current group's flag byte. -/
  fsp : Nat
  /-- The output produced so far. -/
  out : List Byte
  /-- The current group's flag byte. -/
  flag : Byte
  /-- Index of the flag byte's next unused bit; 8 when none is left, or no group has been read yet. -/
  bit : Nat
deriving DecidableEq, Repr

/-- The stream that a running stream command is decoding (rule R28). -/
inductive Stream
  | rld (st : RldStream)
  | lzd (st : LzdStream)
deriving DecidableEq, Repr

/-- One action of the host (rules R30, R40, R90, R290). Pseudo-instructions of rule R91 are register writes. -/
inductive HostAction
  /-- `wr`: write a 32-bit value at a byte offset of the register space. -/
  | writeReg (offset : Word) (value : Word)
  /-- `rd`: read the 32-bit value at a byte offset of the register space. -/
  | readReg (offset : Word)
  /-- `stm`: store bytes at rising buffer-memory addresses. -/
  | storeMem (addr : Word) (bytes : List Byte)
  /-- `ldm`: load `n` bytes from buffer memory. -/
  | loadMem (addr : Word) (n : Nat)
  /-- Apply reset. -/
  | reset
deriving DecidableEq, Repr

/-- What the host's last action returned to it. -/
inductive HostSeen
  | nothing
  | word (value : Word)
  | bytes (bytes : List Byte)
deriving DecidableEq, Repr

/-- The state of the engine, and the model's own fields `cfg`, `host`, `seen` and `epoch`. -/
structure State where
  /-- `a[0]`, `SRC`: byte address of the first source byte (rule R23). -/
  src : Word
  /-- `a[1]`, `SRCLEN`: number of source bytes (rule R23). -/
  srcLen : Word
  /-- `a[2]`, `DST`: byte address of the first destination byte (rule R23). -/
  dst : Word
  /-- `a[3]`, `DSTCAP`: bytes the destination region can take; for `LZD` the expected length (rules R23, R182). -/
  dstCap : Word
  /-- `a[4]`, `WIDTH` (rule R23). -/
  width : Word
  /-- `a[5]`, `HEIGHT` (rule R23). -/
  height : Word
  /-- `a[6]`, `RLEN`: result length (rule R23). -/
  rLen : Word
  /-- `a[7]`, `RAUX`: auxiliary result (rule R23). -/
  rAux : Word
  /-- `CMD`: the last word the host wrote there (rule R31). -/
  cmd : Word
  /-- `CTRL`: bit 0 is `STRICT` (rule R32). -/
  ctrl : Word
  /-- `STATUS`: bit 0 `DONE`, bit 1 `ERR`, bit 2 `CSUM_MISMATCH` (rule R33). -/
  status : Word
  /-- `ERRCODE` (rule R34). -/
  errCode : Word
  /-- `ERRINFO` (rule R35). -/
  errInfo : Word
  /-- `CSUMS`: the stored checksum (rule R36). -/
  cSums : Word
  /-- Buffer memory (rule R40). -/
  mem : Memory
  /-- The state inside a stream command (rule R28); `none` between commands (rule R20). -/
  stream : Option Stream
  /-- The MODEL's: the parameters of rule R8, which no step changes (rule R21). -/
  cfg : Config
  /-- The MODEL's: the host's actions still to come, the next one first. -/
  host : List HostAction
  /-- The MODEL's: what the host's last action returned. -/
  seen : HostSeen
  /-- The MODEL's: how many resets there have been; it selects the unspecified contents of memory (rules R46, R291). -/
  epoch : Nat
deriving DecidableEq, Repr

/-- The state right after reset (rules R45, R46): every register 0, no byte of memory written, no command running. -/
def State.reset : State where
  src := 0
  srcLen := 0
  dst := 0
  dstCap := 0
  width := 0
  height := 0
  rLen := 0
  rAux := 0
  cmd := 0
  ctrl := 0
  status := 0
  errCode := 0
  errInfo := 0
  cSums := 0
  mem := []
  stream := none
  cfg := defaultConfig
  host := []
  seen := .nothing
  epoch := 0

/-- Why the model stops with a fault. -/
inductive Fault
  /-- Raised by a host store or load that touches an address outside buffer memory, which rule R40 gives the addresses
  `0 .. MEM_SIZE-1` only. Safe: the spec gives such an access no meaning, and the model claims nothing after it. -/
  | hostAddress
deriving DecidableEq, Repr

/-- Why the model refuses an instruction. -/
inductive Refusal
  /-- An instruction that has no meaning yet; raised by `exec`'s arms alone. Safe. -/
  | notModelled (mnemonic : String)
  /-- Raised by `REP` and `LIT` in a state in which no run-length stream stands at a flag byte. Safe: a packet exists
  only inside a run-length stream (rules R28, R107, R160), and `step` never runs one elsewhere. -/
  | packetOutsideStream
  /-- Raised by `L` and `P` in a state in which no dictionary stream is at a token of that kind. Safe: a token exists
  only inside a group whose flag announces it (rules R28, R107, R186), and `step` never runs one elsewhere. -/
  | tokenOutsideStream
deriving DecidableEq, Repr

end Sys2Proof.Machine
end

