-- ==== Sys2Proof/Machine/Flags.lean ====
section
/-! DEFINITION. The three status flags (rules R29, R33) and the strict bit (rule R32). -/

namespace Sys2Proof.Machine

/-- The twelve error codes (rule R260). -/
inductive ErrCode
  | illegalCmd
  | addr
  | overlap
  | arith
  | length
  | badDimensions
  | rleTruncated
  | lzStream
  | bcStream
  | checksum
  | dstCapacity
  | unimplementedFormat
deriving DecidableEq, Repr

/-- The number of an error code in `ERRCODE` (rule R260). -/
def errNumber : ErrCode → Word
  | .illegalCmd => 1
  | .addr => 2
  | .overlap => 3
  | .arith => 4
  | .length => 5
  | .badDimensions => 6
  | .rleTruncated => 7
  | .lzStream => 8
  | .bcStream => 9
  | .checksum => 10
  | .dstCapacity => 11
  | .unimplementedFormat => 12

/-- The `STATUS` word with the given flags: `DONE` bit 0, `ERR` bit 1, `CSUM_MISMATCH` bit 2 (rule R33). -/
def statusWord (done err mismatch : Bool) : Word :=
  0#29 ++ BitVec.ofBool mismatch ++ BitVec.ofBool err ++ BitVec.ofBool done

/-- `STATUS` after a success (rule R104). -/
def successStatus (mismatch : Bool) : Word := statusWord true false mismatch

/-- `STATUS` after an error (rule R103): `CSUM_MISMATCH` is set after `ERR_CHECKSUM` alone. -/
def errorStatus (code : ErrCode) : Word := statusWord true true (code == .checksum)

/-- `CTRL.STRICT` (rule R32). -/
def strictBit (s : State) : Bool := s.ctrl.getLsbD 0

end Sys2Proof.Machine
end

