-- ==== Sys2Proof/Machine/Operands.lean ====
section
/-! DEFINITION. The operand registers as the common sequence of rule R100 reads them: the source and destination regions
and the checks on them (rules R23, R57, R58, R108). -/

namespace Sys2Proof.Machine

/-- Address of the first source byte. -/
def srcAddr (s : State) : Nat := s.src.toNat

/-- Number of source bytes. -/
def srcCount (s : State) : Nat := s.srcLen.toNat

/-- Address of the first destination byte. -/
def dstAddr (s : State) : Nat := s.dst.toNat

/-- Number of bytes the destination region can take. -/
def dstCount (s : State) : Nat := s.dstCap.toNat

/-- A region lies inside buffer memory, compared without wrapping (rule R57). -/
def regionInMemory (s : State) (start count : Nat) : Bool := start + count ≤ s.cfg.memSize

/-- Two regions share a byte (rule R58). -/
def regionsShare (start count start' count' : Nat) : Bool :=
  0 < count && 0 < count' && start < start' + count' && start' < start + count

/-- Step 5 of rule R100 passes. -/
def addressesOk (s : State) : Bool :=
  regionInMemory s (srcAddr s) (srcCount s) && regionInMemory s (dstAddr s) (dstCount s)

/-- Step 6 of rule R100 fails. -/
def operandsOverlap (s : State) : Bool := regionsShare (srcAddr s) (srcCount s) (dstAddr s) (dstCount s)

end Sys2Proof.Machine
end

