-- ==== Sys2Proof/Machine/Ops.lean ====
section
/-! DEFINITION. The named operations: buffer-memory access (rules R50, R51), the two ends of a command (rules R103, R104,
R270), and the sequence common to every command that has regions (rule R100). -/

namespace Sys2Proof.Machine

/-- Write one byte, keeping the addresses strictly rising. -/
def memSet : Memory → Nat → Byte → Memory
  | [], a, v => [(a, v)]
  | (b, w) :: rest, a, v =>
    if a < b then (a, v) :: (b, w) :: rest
    else if a = b then (a, v) :: rest
    else (b, w) :: memSet rest a v

/-- `MemWrite(addr, n, v)` (rule R51): the bytes go to rising addresses. -/
def memWrite : Memory → Nat → List Byte → Memory
  | m, _, [] => m
  | m, a, v :: vs => memWrite (memSet m a v) (a + 1) vs

/-- The byte at an address: what was last written there, or the unspecified byte if nothing was (rule R46). -/
def readByte (s : State) (a : Nat) : Byte := (s.mem.lookup a).getD (Free.unspecifiedByte s.epoch a)

/-- `MemRead(addr, n)` (rule R50). -/
def memRead (s : State) (a n : Nat) : List Byte := (List.range n).map fun i => readByte s (a + i)

/-- The source bytes of a command (step 7 of rule R100). -/
def readSource (s : State) : List Byte := memRead s (srcAddr s) (srcCount s)

/-- A host write of `CMD` (rule R31) and step 1 of rule R100: the word is stored as written and `STATUS` cleared. -/
def beginCommand (w : Word) (s : State) : State := { s with cmd := w, status := 0 }

/-- `raise code(info)` (rules R103, R270): the error end of a command, which is the engine's whole exception entry.
`computed` is the computed checksum, which `RAUX` keeps after `ERR_CHECKSUM` alone; `CSUMS` is then the stored one, which is
the `info` of that error. No memory is written and the state inside the command is discarded (rule R28). -/
def raise (code : ErrCode) (info computed : Word) (s : State) : State :=
  { s with
    rLen := 0
    rAux := if code = .checksum then computed else 0
    errCode := errNumber code
    errInfo := info
    cSums := if code = .checksum then info else 0
    status := errorStatus code
    stream := none }

/-- The success end of a command (rule R104): the whole result is written and the result registers are set. There is no
trap return to model (rule R271): an error state lasts until the next command's end overwrites it. -/
def succeed (out : List Byte) (aux stored : Word) (mismatch : Bool) (s : State) : State :=
  { s with
    mem := memWrite s.mem (dstAddr s) out
    rLen := BitVec.ofNat 32 out.length
    rAux := aux
    errCode := 0
    errInfo := 0
    cSums := stored
    status := successStatus mismatch
    stream := none }

/-- What a unit function answers (rule R101). An error carries the computed checksum beside its code and info, for the
one error that reports it (rule R103). -/
inductive UnitResult
  | ok (out : List Byte) (aux stored : Word) (mismatch : Bool)
  | err (code : ErrCode) (info computed : Word)
deriving DecidableEq, Repr

/-- A result without checksums. -/
def okBytes (out : List Byte) : UnitResult := .ok out 0 0 false

/-- An error without info. -/
def errPlain (code : ErrCode) : UnitResult := .err code 0 0

/-- Steps 9 to 12 of rule R100. -/
def endCommand (r : UnitResult) (s : State) : State :=
  match r with
  | .err code info computed => raise code info computed s
  | .ok out aux stored mismatch =>
    if dstCount s < out.length then raise .dstCapacity 0 0 s
    else succeed out aux stored mismatch s

/-- Steps 5 to 12 of rule R100, for a command whose unit function is `unit` of the source bytes. -/
def runUnit (unit : List Byte → UnitResult) (s : State) : State :=
  if !addressesOk s then raise .addr 0 0 s
  else if operandsOverlap s then raise .overlap 0 0 s
  else endCommand (unit (readSource s)) s

end Sys2Proof.Machine
end

