-- ==== Sys2Proof/Syntax.lean ====
section
/-! DEFINITION. The instructions: one constructor for each of the 33 rows of spec/opcode_table.json. 29 are command words
(rule R74), two are packets of the run-length stream (rules R81, R82), two are tokens of the default dictionary stream
(rules R188, R189). -/

namespace Sys2Proof

/-- The pixel formats of rule R71. -/
inductive PixelFormat
  | blk1
  | blk2
  | blk3
  | blk4
  | blk5
  | p4444
  | p1555
  | p8888
  | indexed
deriving DecidableEq, Repr

/-- The block formats among them: what `BCD` and `BCE` accept (rule R72). -/
inductive BlockFormat
  | blk1
  | blk2
  | blk3
  | blk4
  | blk5
deriving DecidableEq, Repr

/-- The packed formats among them: what `PXD` and `PXE` accept (rule R72). -/
inductive PackedFormat
  | p4444
  | p1555
  | p8888
deriving DecidableEq, Repr

/-- A packet of the run-length stream (rules R81, R82). -/
inductive Packet
  /-- `REP`: the field `N` (count minus 1) and the byte to repeat. -/
  | rep (n : BitVec 7) (b : Byte)
  /-- `LIT`: the literal bytes; the field `N` is their number minus 1. -/
  | lit (bytes : List Byte)
deriving DecidableEq, Repr

/-- A token of the default dictionary stream (rules R188, R189). -/
inductive Token
  /-- `L`: the literal byte. -/
  | l (b : Byte)
  /-- `P`: the distance and the field length minus 3. -/
  | p (dist : BitVec 12) (len : BitVec 4)
deriving DecidableEq, Repr

/-- The instructions, in the order of the opcode table. -/
inductive Instr
  | pxdP4444
  | pxdP1555
  | pxdP8888
  | pxeP4444
  | pxeP1555
  | pxeP8888
  | bcdBlk1
  | bcdBlk2
  | bcdBlk3
  | bcdBlk4
  | bcdBlk5
  | bceBlk1
  | bceBlk2
  | bceBlk3
  | bceBlk4
  | bceBlk5
  | rld
  | rle
  | lzd
  | lze
  | sizeBlk1
  | sizeBlk2
  | sizeBlk3
  | sizeBlk4
  | sizeBlk5
  | sizeP4444
  | sizeP1555
  | sizeP8888
  | sizeIndexed
  | rep (n : BitVec 7) (b : Byte)
  | lit (bytes : List Byte)
  | l (b : Byte)
  | p (dist : BitVec 12) (len : BitVec 4)
deriving DecidableEq, Repr

/-- The instruction a packet is. -/
def Packet.toInstr : Packet → Instr
  | .rep n b => .rep n b
  | .lit bytes => .lit bytes

/-- The instruction a token is. -/
def Token.toInstr : Token → Instr
  | .l b => .l b
  | .p dist len => .p dist len

end Sys2Proof
end

