-- ==== Sys2Proof/Machine/Block.lean ====
section
/-! DEFINITION. The block-compression adapter: `BCD` and `BCE` (rules R140 to R149), and the usual block layout as the
default of `BC_DEC` (rule R150). -/

namespace Sys2Proof.Machine

/-- The variant that serves a block format (rule R142). -/
def bcVariant (c : Config) : BlockFormat → Option BcVariant
  | .blk1 => c.bcVariant.blk1
  | .blk2 => c.bcVariant.blk2
  | .blk3 => c.bcVariant.blk3
  | .blk4 => c.bcVariant.blk4
  | .blk5 => c.bcVariant.blk5

/-- `csize(v, w, h)` (rule R143). -/
def compressedSize (v : BcVariant) (w h : Nat) : Nat :=
  match v with
  | .va => w * h / 2
  | .vb => w * h
  | .vc => w * h

/-- `is_pow2(n)` (rule R149), for numbers below `2^32`: a power of two is one of `2^0 .. 2^31`. -/
def isPow2 (n : Nat) : Bool := (List.range 32).any fun k => n == 2 ^ k

/-- Bytes of a block (rule R141). -/
def blockBytes : BcVariant → Nat
  | .va => 8
  | .vb => 16
  | .vc => 16

/-- The quotient of palette entry `entry` for channel `c`: exact when the division is, otherwise rounded down or up as
the implementation chooses (rule R150). -/
def roundedQuotient (entry : Nat) (c : Channel) (num den : Nat) : Nat :=
  if num % den = 0 then num / den
  else if Free.bcRoundUp entry c num den then num / den + 1
  else num / den

/-- A 5-6-5 colour's field of a channel (rule R150). -/
def colourField (colour : Nat) : Channel → Nat
  | .r => bitField colour 11 5
  | .g => bitField colour 5 6
  | .b => bitField colour 0 5
  | .a => 0

/-- The expansion of a colour field to 8 bits; 0 stays 0, as the fixed blocks of vector V-BC have it (rule R150). -/
def expandField (c : Channel) (field : Nat) : Nat := if field = 0 then 0 else (Free.bcExpand c field).toNat

/-- A colour's channel, 8 bits (rule R150). -/
def colourChannel (colour : Nat) (c : Channel) : Nat := expandField c (colourField colour c)

/-- Palette entry `entry` of a colour block, channel `c` (rule R150): `fourColour` says that entries 2 and 3 are the two
thirds between the end points; otherwise entry 2 is their mean and entry 3 is transparent black. -/
def paletteChannel (fourColour : Bool) (c0 c1 entry : Nat) (c : Channel) : Nat :=
  let e0 := colourChannel c0 c
  let e1 := colourChannel c1 c
  match entry with
  | 0 => if c = .a then 255 else e0
  | 1 => if c = .a then 255 else e1
  | 2 =>
    if c = .a then 255
    else if fourColour then roundedQuotient 2 c (2 * e0 + e1) 3
    else roundedQuotient 2 c (e0 + e1) 2
  | _ =>
    if fourColour then if c = .a then 255 else roundedQuotient 3 c (e0 + 2 * e1) 3
    else 0

/-- Channel `c` of pixel `i` of the colour block that starts at offset `at8` (rule R150); only `VA` has the three-colour
mode. -/
def colourPixel (comp : List Byte) (at8 : Nat) (threeColour : Bool) (i : Nat) (c : Channel) : Nat :=
  let c0 := leNat [byteAt comp at8, byteAt comp (at8 + 1)]
  let c1 := leNat [byteAt comp (at8 + 2), byteAt comp (at8 + 3)]
  let idx := leNat [byteAt comp (at8 + 4), byteAt comp (at8 + 5), byteAt comp (at8 + 6), byteAt comp (at8 + 7)]
  paletteChannel (!threeColour || c1 < c0) c0 c1 (bitField idx (2 * i) 2) c

/-- Alpha entry `k` of a `VC` block with end points `a0`, `a1` (rule R150). -/
def alphaEntry (a0 a1 k : Nat) : Nat :=
  if k = 0 then a0
  else if k = 1 then a1
  else if a1 < a0 then roundedQuotient k .a ((8 - k) * a0 + (k - 1) * a1) 7
  else if k ≤ 5 then roundedQuotient k .a ((6 - k) * a0 + (k - 1) * a1) 5
  else if k = 6 then 0
  else 255

/-- `n` bytes of a compressed image from an offset. -/
def bytesFrom (comp : List Byte) (start n : Nat) : List Byte := (List.range n).map fun j => byteAt comp (start + j)

/-- Channel `c` of pixel `i` of the block that starts at offset `start` (rule R150). -/
def blockPixel (v : BcVariant) (comp : List Byte) (start i : Nat) (c : Channel) : Nat :=
  match v with
  | .va => colourPixel comp start true i c
  | .vb =>
    if c = .a then 17 * bitField (leNat (bytesFrom comp start 8)) (4 * i) 4
    else colourPixel comp (start + 8) false i c
  | .vc =>
    if c = .a then
      alphaEntry (byteAt comp start).toNat (byteAt comp (start + 1)).toNat
        (bitField (leNat (bytesFrom comp (start + 2) 6)) (3 * i) 3)
    else colourPixel comp (start + 8) false i c

/-- Channel `k` of a canonical pixel (rule R120). -/
def canonicalChannel : Nat → Channel
  | 0 => .r
  | 1 => .g
  | 2 => .b
  | _ => .a

/-- Byte `t` of the decompressed image: channel `t mod 4` of pixel `t div 4`, row by row (rules R140, R150). -/
def usualByte (v : BcVariant) (w : Nat) (comp : List Byte) (t : Nat) : Byte :=
  let x := t / 4 % w
  let y := t / 4 / w
  let start := (y / 4 * (w / 4) + x / 4) * blockBytes v
  BitVec.ofNat 8 (blockPixel v comp start (4 * (y % 4) + x % 4) (canonicalChannel (t % 4)))

/-- `BC_DEC(v, w, h, comp)` (rule R143): `4*w*h` bytes that depend on the arguments alone. -/
def bcDec (c : Config) (v : BcVariant) (w h : Nat) (comp : List Byte) : List Byte :=
  match c.bcDec with
  | .usual => (List.range (4 * w * h)).map (usualByte v w comp)
  | .other => (List.range (4 * w * h)).map (Free.bcDecByte v w h comp)

/-- `BC_ENC(v, w, h, rgba)` (rule R144): `csize(v, w, h)` bytes that depend on the arguments alone. -/
def bcEnc (v : BcVariant) (w h : Nat) (rgba : List Byte) : List Byte :=
  (List.range (compressedSize v w h)).map (Free.bcEncByte v w h rgba)

/-- Block decompress (rule R146). -/
def blockDecode (c : Config) (fmt : BlockFormat) (w h : Nat) (src : List Byte) : UnitResult :=
  match bcVariant c fmt with
  | none => errPlain .unimplementedFormat
  | some v =>
    if w % 4 ≠ 0 ∨ h % 4 ≠ 0 then errPlain .bcStream
    else if src.length ≠ compressedSize v w h then errPlain .bcStream
    else if 2 ^ 32 ≤ 4 * w * h then errPlain .arith
    else okBytes (bcDec c v w h src)

/-- The dimension rule of `BCE` (rules R148, R149). -/
def dimensionOk (n : Nat) : Bool := isPow2 n && 4 ≤ n

/-- Block compress (rule R148). -/
def blockEncode (c : Config) (fmt : BlockFormat) (w h : Nat) (src : List Byte) : UnitResult :=
  match bcVariant c fmt with
  | none => errPlain .unimplementedFormat
  | some v =>
    if !(dimensionOk w && dimensionOk h) then errPlain .badDimensions
    else if src.length ≠ 4 * w * h then errPlain .length
    else okBytes (bcEnc v w h src)

/-- `BCD.<fmt>` on the operand registers (rule R146). -/
def runBcd (fmt : BlockFormat) (s : State) : State :=
  runUnit (blockDecode s.cfg fmt s.width.toNat s.height.toNat) s

/-- `BCE.<fmt>` on the operand registers (rule R148). -/
def runBce (fmt : BlockFormat) (s : State) : State :=
  runUnit (blockEncode s.cfg fmt s.width.toNat s.height.toNat) s

/-- `BCD.BLK1` (rule R146). -/
def execBcdBlk1 (s : State) : Host.Outcome State Fault Refusal := .next (runBcd .blk1 s)

/-- `BCD.BLK2` (rule R146). -/
def execBcdBlk2 (s : State) : Host.Outcome State Fault Refusal := .next (runBcd .blk2 s)

/-- `BCD.BLK3` (rule R146). -/
def execBcdBlk3 (s : State) : Host.Outcome State Fault Refusal := .next (runBcd .blk3 s)

/-- `BCD.BLK4` (rule R146). -/
def execBcdBlk4 (s : State) : Host.Outcome State Fault Refusal := .next (runBcd .blk4 s)

/-- `BCD.BLK5` (rule R146). -/
def execBcdBlk5 (s : State) : Host.Outcome State Fault Refusal := .next (runBcd .blk5 s)

/-- `BCE.BLK1` (rule R148). -/
def execBceBlk1 (s : State) : Host.Outcome State Fault Refusal := .next (runBce .blk1 s)

/-- `BCE.BLK2` (rule R148). -/
def execBceBlk2 (s : State) : Host.Outcome State Fault Refusal := .next (runBce .blk2 s)

/-- `BCE.BLK3` (rule R148). -/
def execBceBlk3 (s : State) : Host.Outcome State Fault Refusal := .next (runBce .blk3 s)

/-- `BCE.BLK4` (rule R148). -/
def execBceBlk4 (s : State) : Host.Outcome State Fault Refusal := .next (runBce .blk4 s)

/-- `BCE.BLK5` (rule R148). -/
def execBceBlk5 (s : State) : Host.Outcome State Fault Refusal := .next (runBce .blk5 s)

end Sys2Proof.Machine
end

