-- ==== Sys2Proof/WellFormed.lean ====
section
/-! DEFINITION. Which instructions have an encoding. Only `LIT` can be ill-formed: its count lies between 1 and 128
(rules R82, R83); every other operand fills its field. -/

namespace Sys2Proof

/-- A literal packet holds 1 to 128 bytes (rules R82, R83). -/
def litCountOk (bytes : List Byte) : Bool := 1 ≤ bytes.length && bytes.length ≤ 128

/-- A packet that some bytes encode. -/
def Packet.wellFormed : Packet → Bool
  | .rep _ _ => true
  | .lit bytes => litCountOk bytes

/-- An instruction that some word or bytes encode. A `P` token of distance 0 is encodable; executing it is an error
(rule R190). -/
def Instr.wellFormed : Instr → Bool
  | .pxdP4444 => true
  | .pxdP1555 => true
  | .pxdP8888 => true
  | .pxeP4444 => true
  | .pxeP1555 => true
  | .pxeP8888 => true
  | .bcdBlk1 => true
  | .bcdBlk2 => true
  | .bcdBlk3 => true
  | .bcdBlk4 => true
  | .bcdBlk5 => true
  | .bceBlk1 => true
  | .bceBlk2 => true
  | .bceBlk3 => true
  | .bceBlk4 => true
  | .bceBlk5 => true
  | .rld => true
  | .rle => true
  | .lzd => true
  | .lze => true
  | .sizeBlk1 => true
  | .sizeBlk2 => true
  | .sizeBlk3 => true
  | .sizeBlk4 => true
  | .sizeBlk5 => true
  | .sizeP4444 => true
  | .sizeP1555 => true
  | .sizeP8888 => true
  | .sizeIndexed => true
  | .rep _ _ => true
  | .lit bytes => litCountOk bytes
  | .l _ => true
  | .p _ _ => true

/-- The instructions that are command words (rule R74). -/
def Instr.isCommand : Instr → Bool
  | .pxdP4444 => true
  | .pxdP1555 => true
  | .pxdP8888 => true
  | .pxeP4444 => true
  | .pxeP1555 => true
  | .pxeP8888 => true
  | .bcdBlk1 => true
  | .bcdBlk2 => true
  | .bcdBlk3 => true
  | .bcdBlk4 => true
  | .bcdBlk5 => true
  | .bceBlk1 => true
  | .bceBlk2 => true
  | .bceBlk3 => true
  | .bceBlk4 => true
  | .bceBlk5 => true
  | .rld => true
  | .rle => true
  | .lzd => true
  | .lze => true
  | .sizeBlk1 => true
  | .sizeBlk2 => true
  | .sizeBlk3 => true
  | .sizeBlk4 => true
  | .sizeBlk5 => true
  | .sizeP4444 => true
  | .sizeP1555 => true
  | .sizeP8888 => true
  | .sizeIndexed => true
  | .rep _ _ => false
  | .lit _ => false
  | .l _ => false
  | .p _ _ => false

end Sys2Proof
end

