-- ==== Sys2Proof/Decode.lean ====
section
/-! DEFINITION. The decoder, total on any word and any bytes and rejecting by name, and the encoder, both from the
encoding tables of rules R70 to R76, R80 to R84, R186, R188 and R189. -/

namespace Sys2Proof

/-- Why a word or bytes are no instruction. The first four make a command word illegal (rule R76); a truncated packet or
token is an error of the stream it stands in (rules R164, R188, R189). -/
inductive DecodeError
  /-- Bits 31:8 of a command word are not all 0. -/
  | reservedBits
  /-- `OP` is 0x0 or 0xA to 0xF. -/
  | reservedOp
  /-- `FMT` is 9 to 15. -/
  | reservedFmt
  /-- `FMT` is not one that rule R72 accepts for the `OP`. -/
  | fmtNotAccepted
  /-- The bytes end inside a packet or token. -/
  | truncated
  /-- Bytes are left over after the one packet or token. -/
  | bytesLeftOver
deriving DecidableEq, Repr

/-- The rejection of a format that an operation does not accept (rule R76). -/
def formatError (fmt : Nat) : DecodeError := if 9 ≤ fmt then .reservedFmt else .fmtNotAccepted

/-- The packed formats `PXD` accepts (rule R72). -/
def decodePxd : Nat → Except DecodeError Instr
  | 5 => .ok .pxdP4444
  | 6 => .ok .pxdP1555
  | 7 => .ok .pxdP8888
  | fmt => .error (formatError fmt)

/-- The packed formats `PXE` accepts (rule R72). -/
def decodePxe : Nat → Except DecodeError Instr
  | 5 => .ok .pxeP4444
  | 6 => .ok .pxeP1555
  | 7 => .ok .pxeP8888
  | fmt => .error (formatError fmt)

/-- The block formats `BCD` accepts (rule R72). -/
def decodeBcd : Nat → Except DecodeError Instr
  | 0 => .ok .bcdBlk1
  | 1 => .ok .bcdBlk2
  | 2 => .ok .bcdBlk3
  | 3 => .ok .bcdBlk4
  | 4 => .ok .bcdBlk5
  | fmt => .error (formatError fmt)

/-- The block formats `BCE` accepts (rule R72). -/
def decodeBce : Nat → Except DecodeError Instr
  | 0 => .ok .bceBlk1
  | 1 => .ok .bceBlk2
  | 2 => .ok .bceBlk3
  | 3 => .ok .bceBlk4
  | 4 => .ok .bceBlk5
  | fmt => .error (formatError fmt)

/-- `RLD`, `RLE`, `LZD` and `LZE` accept `FMT = 0` only (rule R72). -/
def decodeFormatless (i : Instr) : Nat → Except DecodeError Instr
  | 0 => .ok i
  | fmt => .error (formatError fmt)

/-- `SIZE` accepts all nine formats (rule R72). -/
def decodeSize : Nat → Except DecodeError Instr
  | 0 => .ok .sizeBlk1
  | 1 => .ok .sizeBlk2
  | 2 => .ok .sizeBlk3
  | 3 => .ok .sizeBlk4
  | 4 => .ok .sizeBlk5
  | 5 => .ok .sizeP4444
  | 6 => .ok .sizeP1555
  | 7 => .ok .sizeP8888
  | 8 => .ok .sizeIndexed
  | fmt => .error (formatError fmt)

/-- The operations of rule R72. -/
def decodeOperation (op fmt : Nat) : Except DecodeError Instr :=
  match op with
  | 0x1 => decodePxd fmt
  | 0x2 => decodePxe fmt
  | 0x3 => decodeBcd fmt
  | 0x4 => decodeBce fmt
  | 0x5 => decodeFormatless .rld fmt
  | 0x6 => decodeFormatless .rle fmt
  | 0x7 => decodeFormatless .lzd fmt
  | 0x8 => decodeFormatless .lze fmt
  | 0x9 => decodeSize fmt
  | _ => .error .reservedOp

/-- Field `OP`, bits 3:0 of a command word (rule R70). -/
def opField (w : Word) : BitVec 4 := w.extractLsb' 0 4

/-- Field `FMT`, bits 7:4 of a command word (rule R70). -/
def fmtField (w : Word) : BitVec 4 := w.extractLsb' 4 4

/-- The reserved bits 31:8 of a command word (rule R70). -/
def reservedField (w : Word) : BitVec 24 := w.extractLsb' 8 24

/-- The command a word written to `CMD` is (rules R70 to R76). -/
def decodeCommand (w : Word) : Except DecodeError Instr :=
  if reservedField w ≠ 0 then .error .reservedBits
  else decodeOperation (opField w).toNat (fmtField w).toNat

/-- The packet that stands at the head of a run-length stream, and the bytes after it (rules R80 to R84). -/
def decodePacket : List Byte → Except DecodeError (Packet × List Byte)
  | [] => .error .truncated
  | flag :: rest =>
    if flag.getLsbD 7 then
      match rest with
      | [] => .error .truncated
      | b :: more => .ok (.rep (flag.extractLsb' 0 7) b, more)
    else
      let n := (flag.extractLsb' 0 7).toNat + 1
      if rest.length < n then .error .truncated
      else .ok (.lit (rest.take n), rest.drop n)

/-- The token that stands at the head of a group body, and the bytes after it; `literal` is its bit in the group's flag
byte (rules R186, R188, R189). -/
def decodeToken (literal : Bool) (bytes : List Byte) : Except DecodeError (Token × List Byte) :=
  if literal then
    match bytes with
    | [] => .error .truncated
    | b :: rest => .ok (.l b, rest)
  else
    match bytes with
    | [] => .error .truncated
    | [_] => .error .truncated
    | b1 :: b2 :: rest => .ok (.p (b2.extractLsb' 4 4 ++ b1) (b2.extractLsb' 0 4), rest)

/-- An instruction as the hardware holds it: a word written to `CMD`, the bytes of a run-length packet, or the bit in
the group's flag byte and the bytes of a dictionary token. -/
inductive Code
  | command (w : Word)
  | rlePacket (bytes : List Byte)
  | lzToken (literal : Bool) (bytes : List Byte)
deriving DecidableEq, Repr

/-- Exactly one packet or token: nothing may be left over. -/
def decodeWhole {α : Type} (toInstr : α → Instr) : Except DecodeError (α × List Byte) → Except DecodeError Instr
  | .error e => .error e
  | .ok (x, []) => .ok (toInstr x)
  | .ok (_, _ :: _) => .error .bytesLeftOver

/-- The decoder of all 33 instructions. -/
def decode : Code → Except DecodeError Instr
  | .command w => decodeCommand w
  | .rlePacket bytes => decodeWhole Packet.toInstr (decodePacket bytes)
  | .lzToken literal bytes => decodeWhole Token.toInstr (decodeToken literal bytes)

/-- The command word with the given fields; the reserved bits are 0 (rule R70). -/
def commandWord (op fmt : BitVec 4) : Word := 0#24 ++ fmt ++ op

/-- The bytes of a packet (rules R81, R82). -/
def encodePacket : Packet → List Byte
  | .rep n b => [1#1 ++ n, b]
  | .lit bytes => BitVec.ofNat 8 (bytes.length - 1) :: bytes

/-- The bytes of a token (rules R188, R189). -/
def encodeToken : Token → List Byte
  | .l b => [b]
  | .p dist len => [dist.extractLsb' 0 8, dist.extractLsb' 8 4 ++ len]

/-- A token's bit in the group's flag byte (rule R186). -/
def Token.isLiteral : Token → Bool
  | .l _ => true
  | .p _ _ => false

/-- The encoder (rules R71, R72, R74, R81, R82, R188, R189). -/
def encode : Instr → Code
  | .pxdP4444 => .command (commandWord 0x1 5)
  | .pxdP1555 => .command (commandWord 0x1 6)
  | .pxdP8888 => .command (commandWord 0x1 7)
  | .pxeP4444 => .command (commandWord 0x2 5)
  | .pxeP1555 => .command (commandWord 0x2 6)
  | .pxeP8888 => .command (commandWord 0x2 7)
  | .bcdBlk1 => .command (commandWord 0x3 0)
  | .bcdBlk2 => .command (commandWord 0x3 1)
  | .bcdBlk3 => .command (commandWord 0x3 2)
  | .bcdBlk4 => .command (commandWord 0x3 3)
  | .bcdBlk5 => .command (commandWord 0x3 4)
  | .bceBlk1 => .command (commandWord 0x4 0)
  | .bceBlk2 => .command (commandWord 0x4 1)
  | .bceBlk3 => .command (commandWord 0x4 2)
  | .bceBlk4 => .command (commandWord 0x4 3)
  | .bceBlk5 => .command (commandWord 0x4 4)
  | .rld => .command (commandWord 0x5 0)
  | .rle => .command (commandWord 0x6 0)
  | .lzd => .command (commandWord 0x7 0)
  | .lze => .command (commandWord 0x8 0)
  | .sizeBlk1 => .command (commandWord 0x9 0)
  | .sizeBlk2 => .command (commandWord 0x9 1)
  | .sizeBlk3 => .command (commandWord 0x9 2)
  | .sizeBlk4 => .command (commandWord 0x9 3)
  | .sizeBlk5 => .command (commandWord 0x9 4)
  | .sizeP4444 => .command (commandWord 0x9 5)
  | .sizeP1555 => .command (commandWord 0x9 6)
  | .sizeP8888 => .command (commandWord 0x9 7)
  | .sizeIndexed => .command (commandWord 0x9 8)
  | .rep n b => .rlePacket (encodePacket (.rep n b))
  | .lit bytes => .rlePacket (encodePacket (.lit bytes))
  | .l b => .lzToken true (encodeToken (.l b))
  | .p dist len => .lzToken false (encodeToken (.p dist len))

/-- The bytes of a run-length packet from the opcode table's number for it. The table writes the flag byte first, in
bits 15:8, and the byte after it in bits 7:0; a literal's further bytes, which the table gives no bits, are 0. -/
def tablePacketBytes (w : Nat) : List Byte :=
  let flag := w / 256 % 256
  BitVec.ofNat 8 flag :: BitVec.ofNat 8 w :: List.replicate (if 128 ≤ flag then 0 else flag) 0

/-- What the decoder reads from an instruction of the opcode table with bits `w`: 32 bits are a command word, 16 bits a
run-length packet, 8 bits a literal token of the dictionary stream. -/
def decodeTableWord (nbits w : Nat) : Option Instr :=
  match nbits with
  | 32 => (decodeCommand (BitVec.ofNat 32 w)).toOption
  | 16 =>
    match decodePacket (tablePacketBytes w) with
    | .ok (packet, _) => some packet.toInstr
    | .error _ => none
  | 8 => some (.l (BitVec.ofNat 8 w))
  | _ => none

end Sys2Proof
end

