-- ==== Sys2Proof/Machine/Dictionary.lean ====
section
/-! DEFINITION. The dictionary codec: the checksum, the tokens `L` and `P` of the default format, the decoder `LZD` and
the encoder `LZE` (rules R180 to R197). -/

namespace Sys2Proof.Machine

/-- `ext(b)`, as an integer (rule R183). -/
def checksumTerm (ext : CsumExt) (b : Byte) : Int :=
  match ext with
  | .zero => b.toNat
  | .sign => if b.toNat < 128 then b.toNat else (b.toNat : Int) - 256

/-- `checksum(x)` (rule R183): the sum, taken modulo `2^32`. -/
def checksum (ext : CsumExt) (x : List Byte) : Word := BitVec.ofInt 32 (x.map (checksumTerm ext)).sum

/-- The state of the decoder when the command starts (rules R28, R187). The spec gives no value for the flag byte and for
`fsp` before the first flag is read: both are 0 here, the model's choice, which nothing can observe (log 19). -/
def lzdStart (src : List Byte) : LzdStream := { src := src, sp := 0, fsp := 0, out := [], flag := 0, bit := 8 }

/-- The group flag read where one is due: when no bit of the current one is left (rules R186, R187). An error is the
offset to report. -/
def lzdGroup (st : LzdStream) : Except Nat LzdStream :=
  if st.bit < 8 then .ok st
  else if st.src.length ≤ st.sp then .error st.sp
  else .ok { st with fsp := st.sp, flag := byteAt st.src st.sp, sp := st.sp + 1, bit := 0 }

/-- The token that stands at `sp`, of the kind the group's flag announces; an error is the flag's offset (rules R188,
R189). -/
def lzdFetch (st : LzdStream) : Except Nat Token :=
  match decodeToken (st.flag.getLsbD st.bit) (st.src.drop st.sp) with
  | .ok (token, _) => .ok token
  | .error _ => .error st.fsp

/-- The effect of `L b` (rule R188). -/
def lzdLiteral (b : Byte) (st : LzdStream) : LzdStream :=
  { st with out := st.out ++ [b], sp := st.sp + 1, bit := st.bit + 1 }

/-- The copy of rule R189, `count` bytes from `dist` back; a position before the start reads as 0x20. -/
def copyBack (dist : Nat) : Nat → List Byte → List Byte
  | 0, out => out
  | k + 1, out =>
    copyBack dist k (out ++ [if out.length < dist then 0x20 else byteAt out (out.length - dist)])

/-- The length a pointer's field stands for (rule R189). -/
def pointerLength (len : BitVec 4) : Nat := len.toNat + 3

/-- The effect of `P d, l` for the expected length `n` (rules R189, R190); an error is the flag's offset. -/
def lzdPointer (c : Config) (n : Nat) (dist : BitVec 12) (len : BitVec 4) (st : LzdStream) : Except Nat LzdStream :=
  if dist.toNat = 0 then .error st.fsp
  else if n < st.out.length + pointerLength len ∧ c.lzOvershoot = .error then .error st.fsp
  else
    .ok { st with
      out := copyBack dist.toNat (min (pointerLength len) (n - st.out.length)) st.out
      sp := st.sp + 2
      bit := st.bit + 1 }

/-- The effect of a token. -/
def lzdApply (c : Config) (n : Nat) (token : Token) (st : LzdStream) : Except Nat LzdStream :=
  match token with
  | .l b => .ok (lzdLiteral b st)
  | .p dist len => lzdPointer c n dist len st

/-- One token: the group flag where one is due, then the token (rules R186, R187). -/
def lzdStep (c : Config) (n : Nat) (st : LzdStream) : Except Nat LzdStream :=
  match lzdGroup st with
  | .error at' => .error at'
  | .ok g =>
    match lzdFetch g with
    | .error at' => .error at'
    | .ok token => lzdApply c n token g

/-- The loop of rule R187, for at most the given number of tokens. -/
def lzdLoop (c : Config) (n : Nat) : Nat → LzdStream → Except Nat LzdStream
  | 0, st => .ok st
  | k + 1, st =>
    if n ≤ st.out.length then .ok st
    else
      match lzdStep c n st with
      | .error at' => .error at'
      | .ok st' => lzdLoop c n k st'

/-- `lz_decode_tokens` of the default format (rule R187): the output and the bytes used, or the offset of the error.
Every token emits a byte or more, so there are no more than `n` of them (rule R306). -/
def lzssDecode (c : Config) (src : List Byte) (n : Nat) : Except Nat (List Byte × Nat) :=
  match lzdLoop c n n (lzdStart src) with
  | .error at' => .error at'
  | .ok st => .ok (st.out, st.sp)

/-- The decoder of the free format (rule R197): the shortest head of the source that the format takes for a whole stream
of `n` bytes. So the output has `n` bytes, and no byte after the used ones matters. -/
def freeDecode (src : List Byte) (n : Nat) : Except Nat (List Byte × Nat) :=
  let found := (List.range (src.length + 1)).findSome? fun used =>
    match Free.lzFormatDecode (src.take used) n with
    | some out => if out.length = n then some (out, used) else none
    | none => none
  match found with
  | some r => .ok r
  | none => .error (Free.lzFormatError src n)

/-- The byte sequences of a length. -/
def sequencesOf : Nat → List (List Byte)
  | 0 => [[]]
  | k + 1 => (sequencesOf k).flatMap fun rest => (List.range 256).map fun b => BitVec.ofNat 8 b :: rest

/-- Rule R192 holds of the free format at a length: every byte sequence of that length is what its encoding decodes to,
and the encoding is used exactly. A pair of functions that meets rule R192 meets this at every length. -/
def formatAdmissible (n : Nat) : Bool :=
  (sequencesOf n).all fun x =>
    freeDecode (Free.lzFormatEncode x) n == .ok (x, (Free.lzFormatEncode x).length)

/-- `lz_decode_tokens` of the abstract format (rule R197): the free format's decoder at the lengths where rule R192
admits the format, the default format's at the others. -/
def otherDecode (c : Config) (src : List Byte) (n : Nat) : Except Nat (List Byte × Nat) :=
  if formatAdmissible n then freeDecode src n else lzssDecode c src n

/-- `lz_decode_tokens(src, N)` (rules R187, R197). -/
def lzDecodeTokens (c : Config) (src : List Byte) (n : Nat) : Except Nat (List Byte × Nat) :=
  match c.lzFormat with
  | .lzss => lzssDecode c src n
  | .other => otherDecode c src n

/-- An error of the dictionary stream, with the offset it reports (rules R184, R266). An offset of the default format, and
one of the trailer, is at most `SRCLEN` and fits `ERRINFO`. Rule R197 bounds the error value of an abstract format nowhere:
that `ERRINFO` then holds it modulo `2^32` is the model's choice (log 20). -/
def lzStreamError (at' : Nat) : UnitResult := .err .lzStream (BitVec.ofNat 32 at') 0

/-- The part of `LZD` after the token stream: the trailer and the checksum comparison (rules R184, R185). -/
def lzdTrailer (c : Config) (strict : Bool) (src out : List Byte) (used : Nat) : UnitResult :=
  if src.length - used < 4 then lzStreamError used
  else if 4 < src.length - used ∧ c.lzTrailing = .error then lzStreamError used
  else
    let stored := le32 (src.drop used)
    let computed := checksum c.csumExt out
    if computed ≠ stored ∧ strict then .err .checksum stored computed
    else .ok out computed stored (computed != stored)

/-- Dictionary decode (rule R184). -/
def lzdUnit (c : Config) (strict : Bool) (n : Nat) (src : List Byte) : UnitResult :=
  match lzDecodeTokens c src n with
  | .error at' => lzStreamError at'
  | .ok (out, used) => lzdTrailer c strict src out used

/-- `LZD` on the operand registers (rules R182, R184). -/
def execLzd (s : State) : Host.Outcome State Fault Refusal :=
  .next (runUnit (lzdUnit s.cfg (strictBit s) (dstCount s)) s)

/-- A dictionary stream stands at a token that its flag announces with the given bit (rules R186, R187). -/
def atToken (literal : Bool) (n : Nat) (st : LzdStream) : Bool :=
  st.bit < 8 && st.flag.getLsbD st.bit == literal && st.out.length < n

/-- What a token leaves behind: the stream one token further, or the error end of the command (rules R188 to R190). -/
def lzdContinue (r : Except Nat LzdStream) (s : State) : State :=
  match r with
  | .ok st => { s with stream := some (.lzd st) }
  | .error at' => endCommand (lzStreamError at') s

/-- A token run on the stream that is being decoded (rules R28, R107, R186). -/
def execToken (token : Token) (s : State) : Host.Outcome State Fault Refusal :=
  match s.stream with
  | some (.lzd st) =>
    if atToken token.isLiteral (dstCount s) st then .next (lzdContinue (lzdApply s.cfg (dstCount s) token st) s)
    else .refused .tokenOutsideStream
  | some (.rld _) => .refused .tokenOutsideStream
  | none => .refused .tokenOutsideStream

/-- `L` (rule R188). -/
def execL (b : Byte) (s : State) : Host.Outcome State Fault Refusal := execToken (.l b) s

/-- `P` (rules R189, R190). -/
def execP (dist : BitVec 12) (len : BitVec 4) (s : State) : Host.Outcome State Fault Refusal :=
  execToken (.p dist len) s

/-- The state inside an `LZD` of the default format that has passed steps 1 to 7 of rule R100: the decoder as it
starts. -/
def openLzd (s : State) : State := { s with stream := some (.lzd (lzdStart (readSource s))) }

/-- How many leading bytes of two sequences agree, at most `cap`. -/
def commonLength : Nat → List Byte → List Byte → Nat
  | 0, _, _ => 0
  | _ + 1, [], _ => 0
  | _ + 1, _ :: _, [] => 0
  | k + 1, a :: as, b :: bs => if a = b then commonLength k as bs + 1 else 0

/-- The longest match for the bytes at `i`, as length and distance, the nearest one on a tie (rule R193): lengths up to
18, distances up to 4095. -/
def bestMatch (x : List Byte) (i : Nat) : Nat × Nat :=
  (List.range (min i 4095)).foldl
    (fun best j =>
      let len := commonLength 18 (x.drop i) (x.drop (i - (j + 1)))
      if best.1 < len then (len, j + 1) else best)
    (0, 0)

/-- The tokens of the default encoder from index `i` on, at most the given number (rule R193). -/
def lzssTokens (x : List Byte) : Nat → Nat → List Token
  | 0, _ => []
  | k + 1, i =>
    if x.length ≤ i then []
    else
      let best := bestMatch x i
      if 3 ≤ best.1 then
        .p (BitVec.ofNat 12 best.2) (BitVec.ofNat 4 (best.1 - 3)) :: lzssTokens x k (i + best.1)
      else .l (byteAt x i) :: lzssTokens x k (i + 1)

/-- The flag byte of a group: bit `k` is 1 if token `k` is a literal, unused bits are 0 (rules R186, R193). -/
def groupFlag : List Token → Nat
  | [] => 0
  | token :: rest => (if token.isLiteral then 1 else 0) + 2 * groupFlag rest

/-- Tokens in groups of eight, each a flag byte and the tokens' bytes (rules R186, R193), for at most the given number of
groups. -/
def emitGroups : Nat → List Token → List Byte
  | 0, _ => []
  | _ + 1, [] => []
  | k + 1, token :: rest =>
    let group := (token :: rest).take 8
    BitVec.ofNat 8 (groupFlag group) :: group.flatMap encodeToken ++ emitGroups k ((token :: rest).drop 8)

/-- The default encoder (rule R193). -/
def lzssEncode (x : List Byte) : List Byte :=
  let tokens := lzssTokens x x.length 0
  emitGroups tokens.length tokens

/-- Rule R192: a token stream `e` decodes to `x` and is consumed exactly. -/
def lzAdmissible (c : Config) (x e : List Byte) : Bool := lzDecodeTokens c e x.length == .ok (x, e.length)

/-- The encoder of the abstract format (rules R192, R197): the free format's at the lengths where rule R192 admits it, the
default one at the others, as `otherDecode` has it. -/
def otherEncode (x : List Byte) : List Byte :=
  if formatAdmissible x.length then Free.lzFormatEncode x else lzssEncode x

/-- `LZ_ENC` (rules R192, R193). For the default format: the default encoder, or any encoder cut to what rule R192
admits. For an abstract format: that format's encoder, held to rule R192 too. -/
def lzEncode (c : Config) (x : List Byte) : List Byte :=
  match c.lzFormat with
  | .other => otherEncode x
  | .lzss =>
    match c.lzEnc with
    | .default => lzssEncode x
    | .other => if lzAdmissible c x (Free.lzEnc x) then Free.lzEnc x else lzssEncode x

/-- Dictionary encode (rule R191). -/
def lzeUnit (c : Config) (src : List Byte) : UnitResult :=
  let sum := checksum c.csumExt src
  .ok (lzEncode c src ++ bytesLe32 sum) sum 0 false

/-- `LZE` on the operand registers (rule R191). -/
def execLze (s : State) : Host.Outcome State Fault Refusal := .next (runUnit (lzeUnit s.cfg) s)

end Sys2Proof.Machine
end

