-- ==== Sys2Proof/Machine/Pixel.lean ====
section
/-! DEFINITION. The bit-packed pixel converter: `PXD` and `PXE` (rules R120 to R133). -/

namespace Sys2Proof.Machine

/-- `up(v, N)` (rule R132). -/
def up (v n : Nat) : Nat := (v * 255 + (2 ^ n - 1) / 2) / (2 ^ n - 1)

/-- The bias of the downward conversion (rule R133). -/
def downBias (bias : DownBias) (n : Nat) : Nat :=
  match bias with
  | .fixed b => b
  | .halfTarget => (2 ^ n - 1) / 2

/-- `down(v, N)` (rule R133). -/
def down (bias : DownBias) (v n : Nat) : Nat := (v * (2 ^ n - 1) + downBias bias n) / 255

/-- Four values, one for each place of a `ChannelOrder`. -/
structure Quad (α : Type) where
  at0 : α
  at1 : α
  at2 : α
  at3 : α

/-- The value that stands at the place of a channel. -/
def pickChannel {α : Type} (o : ChannelOrder) (c : Channel) (q : Quad α) : α :=
  if o.at0 = c then q.at0 else if o.at1 = c then q.at1 else if o.at2 = c then q.at2 else q.at3

/-- The canonical pixel R, G, B, A of values that stand in a given order (rule R120). -/
def canonical {α : Type} (o : ChannelOrder) (q : Quad α) : List α :=
  [pickChannel o .r q, pickChannel o .g q, pickChannel o .b q, pickChannel o .a q]

/-- A canonical pixel's value of a channel. -/
def ofCanonical {α : Type} (c : Channel) (r g b a : α) : α :=
  match c with
  | .r => r
  | .g => g
  | .b => b
  | .a => a

/-- A canonical pixel put into a given order: the inverse of `canonical`. -/
def ordered {α : Type} (o : ChannelOrder) (r g b a : α) : Quad α :=
  { at0 := ofCanonical o.at0 r g b a
    at1 := ofCanonical o.at1 r g b a
    at2 := ofCanonical o.at2 r g b a
    at3 := ofCanonical o.at3 r g b a }

/-- The layouts that are cut from a 16-bit word (rule R123). -/
inductive Layout16
  | l4444
  | l1555
deriving DecidableEq, Repr

/-- The widths of the bit-fields, from bit 15 down (rule R123). -/
def fieldWidths : Layout16 → Quad Nat
  | .l4444 => { at0 := 4, at1 := 4, at2 := 4, at3 := 4 }
  | .l1555 => { at0 := 1, at1 := 5, at2 := 5, at3 := 5 }

/-- The lowest bits of the bit-fields, from bit 15 down (rule R123). -/
def fieldShifts : Layout16 → Quad Nat
  | .l4444 => { at0 := 12, at1 := 8, at2 := 4, at3 := 0 }
  | .l1555 => { at0 := 15, at1 := 10, at2 := 5, at3 := 0 }

/-- The word of a stored pixel: little-endian (rules R53, R123). -/
def pixelWord (s0 s1 : Byte) : Nat := s0.toNat + 256 * s1.toNat

/-- One bit-field, scaled to 8 bits (rules R124, R125). -/
def upField (w shift width : Nat) : Byte := BitVec.ofNat 8 (up (bitField w shift width) width)

/-- `unpack` of a 16-bit pixel (rules R124, R125). -/
def unpack16 (c : Config) (layout : Layout16) (s0 s1 : Byte) : List Byte :=
  let w := pixelWord s0 s1
  let widths := fieldWidths layout
  let shifts := fieldShifts layout
  canonical c.pixFieldOrder
    { at0 := upField w shifts.at0 widths.at0
      at1 := upField w shifts.at1 widths.at1
      at2 := upField w shifts.at2 widths.at2
      at3 := upField w shifts.at3 widths.at3 }

/-- One channel, scaled down and put into its place (rules R129, R130). -/
def downField (c : Config) (v : Byte) (shift width : Nat) : Nat := down c.pixDownBias v.toNat width <<< shift

/-- The word of a packed pixel (rules R129, R130). -/
def packWord (c : Config) (layout : Layout16) (r g b a : Byte) : Nat :=
  let q := ordered c.pixFieldOrder r g b a
  let widths := fieldWidths layout
  let shifts := fieldShifts layout
  downField c q.at0 shifts.at0 widths.at0 ||| downField c q.at1 shifts.at1 widths.at1 |||
    downField c q.at2 shifts.at2 widths.at2 ||| downField c q.at3 shifts.at3 widths.at3

/-- `pack` of a 16-bit pixel (rules R129, R130). -/
def pack16 (c : Config) (layout : Layout16) (r g b a : Byte) : List Byte :=
  let w := packWord c layout r g b a
  [BitVec.ofNat 8 (bitField w 0 8), BitVec.ofNat 8 (bitField w 8 8)]

/-- `unpack` of a 32-bit pixel (rule R126). -/
def unpack32 (c : Config) (s0 s1 s2 s3 : Byte) : List Byte :=
  canonical c.pix8888Order { at0 := s0, at1 := s1, at2 := s2, at3 := s3 }

/-- `pack` of a 32-bit pixel (rule R131). -/
def pack32 (c : Config) (r g b a : Byte) : List Byte :=
  let q := ordered c.pix8888Order r g b a
  [q.at0, q.at1, q.at2, q.at3]

/-- Each pair of bytes converted on its own (rule R122). -/
def mapPairs (f : Byte → Byte → List Byte) : List Byte → List Byte
  | s0 :: s1 :: rest => f s0 s1 ++ mapPairs f rest
  | _ => []

/-- Each four bytes converted on their own (rules R122, R127). -/
def mapQuads (f : Byte → Byte → Byte → Byte → List Byte) : List Byte → List Byte
  | s0 :: s1 :: s2 :: s3 :: rest => f s0 s1 s2 s3 ++ mapQuads f rest
  | _ => []

/-- Bytes per packed pixel (rule R120). -/
def bytesPerPixel : PackedFormat → Nat
  | .p4444 => 2
  | .p1555 => 2
  | .p8888 => 4

/-- The pixels of `to_canonical` (rule R122). -/
def unpackAll (c : Config) : PackedFormat → List Byte → List Byte
  | .p4444 => mapPairs (unpack16 c .l4444)
  | .p1555 => mapPairs (unpack16 c .l1555)
  | .p8888 => mapQuads (unpack32 c)

/-- The pixels of `from_canonical` (rule R127). -/
def packAll (c : Config) : PackedFormat → List Byte → List Byte
  | .p4444 => mapQuads (pack16 c .l4444)
  | .p1555 => mapQuads (pack16 c .l1555)
  | .p8888 => mapQuads (pack32 c)

/-- `to_canonical` (rules R121, R122). -/
def toCanonical (c : Config) (fmt : PackedFormat) (src : List Byte) : UnitResult :=
  if src.length % bytesPerPixel fmt ≠ 0 then errPlain .length else okBytes (unpackAll c fmt src)

/-- `from_canonical` (rules R127, R128). -/
def fromCanonical (c : Config) (fmt : PackedFormat) (src : List Byte) : UnitResult :=
  if src.length % 4 ≠ 0 then errPlain .length else okBytes (packAll c fmt src)

/-- `PXD.P4444` (rule R124). -/
def execPxdP4444 (s : State) : Host.Outcome State Fault Refusal := .next (runUnit (toCanonical s.cfg .p4444) s)

/-- `PXD.P1555` (rule R125). -/
def execPxdP1555 (s : State) : Host.Outcome State Fault Refusal := .next (runUnit (toCanonical s.cfg .p1555) s)

/-- `PXD.P8888` (rule R126). -/
def execPxdP8888 (s : State) : Host.Outcome State Fault Refusal := .next (runUnit (toCanonical s.cfg .p8888) s)

/-- `PXE.P4444` (rule R129). -/
def execPxeP4444 (s : State) : Host.Outcome State Fault Refusal := .next (runUnit (fromCanonical s.cfg .p4444) s)

/-- `PXE.P1555` (rule R130). -/
def execPxeP1555 (s : State) : Host.Outcome State Fault Refusal := .next (runUnit (fromCanonical s.cfg .p1555) s)

/-- `PXE.P8888` (rule R131). -/
def execPxeP8888 (s : State) : Host.Outcome State Fault Refusal := .next (runUnit (fromCanonical s.cfg .p8888) s)

end Sys2Proof.Machine
end

