-- ==== Sys2Proof/Machine/RunLength.lean ====
section
/-! DEFINITION. The run-length codec: the packets `REP` and `LIT`, the decoder `RLD` and the encoder `RLE` (rules R160 to
R169). -/

namespace Sys2Proof.Machine

/-- The state of the decoder when the command starts (rules R28, R163). The spec gives no value for `fsp` before the first
flag is read: it is 0 here, the model's choice, which nothing can observe (log 19). -/
def rldStart (src : List Byte) : RldStream := { src := src, sp := 0, fsp := 0, out := [], mode := .flag }

/-- The effect of `REP n, b` on the decoder (rule R161): the count is the field plus 1 (rule R83). -/
def rldRep (n : BitVec 7) (b : Byte) (st : RldStream) : RldStream :=
  { st with fsp := st.sp, out := st.out ++ List.replicate (n.toNat + 1) b, sp := st.sp + 2 }

/-- The effect of `LIT` on the decoder (rule R165). -/
def rldLit (bytes : List Byte) (st : RldStream) : RldStream :=
  { st with fsp := st.sp, out := st.out ++ bytes, sp := st.sp + 1 + bytes.length }

/-- The effect of a packet on the decoder. -/
def rldApply (packet : Packet) (st : RldStream) : RldStream :=
  match packet with
  | .rep n b => rldRep n b st
  | .lit bytes => rldLit bytes st

/-- The packet that stands at `sp`; a packet whose bytes run past the end of the source is the truncation error, with
its flag's offset (rules R84, R164). -/
def rldFetch (st : RldStream) : Except Nat Packet :=
  match decodePacket (st.src.drop st.sp) with
  | .ok (packet, _) => .ok packet
  | .error _ => .error st.sp

/-- The loop of rule R162, for at most the given number of packets. -/
def rldLoop : Nat → RldStream → Except Nat RldStream
  | 0, st => .ok st
  | k + 1, st =>
    if st.src.length ≤ st.sp then .ok st
    else
      match rldFetch st with
      | .error at' => .error at'
      | .ok packet => rldLoop k (rldApply packet st)

/-- `decode_rle(src)` (rule R162): the output, or the offset of the truncated packet's flag. Every packet takes two bytes
or more, so there are no more packets than bytes (rule R306). -/
def decodeRle (src : List Byte) : Except Nat (List Byte) :=
  match rldLoop src.length (rldStart src) with
  | .error at' => .error at'
  | .ok st => .ok st.out

/-- What `RLD` answers (rule R162). -/
def rldResult (r : Except Nat (List Byte)) : UnitResult :=
  match r with
  | .error at' => .err .rleTruncated (BitVec.ofNat 32 at') 0
  | .ok out => okBytes out

/-- One step of the byte-serial machine of rule R163 on the byte `c`. -/
def rldByte (c : Byte) (st : RldStream) : RldStream :=
  match st.mode with
  | .flag =>
    let k := (c.extractLsb' 0 7).toNat + 1
    { st with fsp := st.sp, sp := st.sp + 1, mode := if c.getLsbD 7 then .rep k else .lit k }
  | .rep k => { st with sp := st.sp + 1, out := st.out ++ List.replicate k c, mode := .flag }
  | .lit k => { st with sp := st.sp + 1, out := st.out ++ [c], mode := if k ≤ 1 then .flag else .lit (k - 1) }

/-- The result of the byte-serial machine when the source is exhausted (rule R163). -/
def rldSerialEnd (st : RldStream) : Except Nat (List Byte) :=
  match st.mode with
  | .flag => .ok st.out
  | .lit _ => .error st.fsp
  | .rep _ => .error st.fsp

/-- The byte-serial machine run over the whole source (rule R163). -/
def decodeRleSerial (src : List Byte) : Except Nat (List Byte) :=
  rldSerialEnd (src.foldl (fun st c => rldByte c st) (rldStart src))

/-- `RLD` on the operand registers (rule R162). -/
def execRld (s : State) : Host.Outcome State Fault Refusal := .next (runUnit (fun src => rldResult (decodeRle src)) s)

/-- A packet run on the stream that is being decoded (rules R28, R107, R160). -/
def execPacket (packet : Packet) (s : State) : Host.Outcome State Fault Refusal :=
  match s.stream with
  | some (.rld st) =>
    if st.mode = .flag then .next { s with stream := some (.rld (rldApply packet st)) }
    else .refused .packetOutsideStream
  | some (.lzd _) => .refused .packetOutsideStream
  | none => .refused .packetOutsideStream

/-- `REP` (rule R161). -/
def execRep (n : BitVec 7) (b : Byte) (s : State) : Host.Outcome State Fault Refusal := execPacket (.rep n b) s

/-- `LIT` (rule R165). -/
def execLit (bytes : List Byte) (s : State) : Host.Outcome State Fault Refusal := execPacket (.lit bytes) s

/-- The state inside an `RLD` that has passed steps 1 to 7 of rule R100: the decoder as it starts. -/
def openRld (s : State) : State := { s with stream := some (.rld (rldStart (readSource s))) }

/-- How many leading bytes equal `b`. -/
def runLength (b : Byte) : List Byte → Nat
  | [] => 0
  | c :: rest => if c = b then runLength b rest + 1 else 0

/-- `flush` of rule R168: the pending literal as a packet, if there is one. -/
def flushLiteral (lit : List Byte) : List Byte := if lit = [] then [] else encodePacket (.lit lit)

/-- The loop of rule R168 on the bytes left and the pending literal, for at most the given number of rounds. -/
def rleLoop : Nat → List Byte → List Byte → List Byte
  | 0, _, lit => flushLiteral lit
  | _ + 1, [], lit => flushLiteral lit
  | k + 1, b :: rest, lit =>
    let run := runLength b rest + 1
    if 3 ≤ run then
      let count := min run 128
      flushLiteral lit ++ encodePacket (.rep (BitVec.ofNat 7 (count - 1)) b) ++ rleLoop k ((b :: rest).drop count) []
    else if lit.length + 1 = 128 then flushLiteral (lit ++ [b]) ++ rleLoop k rest []
    else rleLoop k rest (lit ++ [b])

/-- The canonical encoder (rule R168). Every round takes a byte or more. -/
def rleCanonical (x : List Byte) : List Byte := rleLoop x.length x []

/-- The packets of a run-length stream, for at most the given number of them, or `none` if it is truncated. -/
def parsePackets : Nat → List Byte → Option (List Packet)
  | _, [] => some []
  | 0, _ :: _ => none
  | k + 1, b :: rest =>
    match decodePacket (b :: rest) with
    | .error _ => none
    | .ok (packet, more) => (parsePackets k more).map (packet :: ·)

/-- Three equal bytes stand in a row. -/
def hasTriple : List Byte → Bool
  | a :: b :: c :: rest => (a == b && b == c) || hasTriple (b :: c :: rest)
  | _ => false

/-- A repeat of `count` times `b` at index `pos` of the plain bytes `x` is the remainder of a split run (rule R167 (c)):
it ends the run of equal bytes of `x` that it lies in, and that run is longer than 128. How the bytes before it in the run
are encoded does not matter (log 9). -/
def isRemainder (x : List Byte) (pos count : Nat) (b : Byte) : Bool :=
  runLength b (x.drop (pos + count)) == 0 && 128 < runLength b (x.take pos).reverse + count

/-- Part (c) of rule R167 for packets that stand for `x` from index `pos` on: no literal holds three equal bytes in a row,
and a repeat of fewer than 3 is the remainder of a split run longer than 128. -/
def groupedFrom (x : List Byte) : Nat → List Packet → Bool
  | _, [] => true
  | pos, .lit bytes :: rest => !hasTriple bytes && groupedFrom x (pos + bytes.length) rest
  | pos, .rep n b :: rest =>
    let count := n.toNat + 1
    (3 ≤ count || isRemainder x pos count b) && groupedFrom x (pos + count) rest

/-- Rule R167: a stream `e` is an admissible encoding of `x`. Part (b) holds of every stream, since a packet's field has
seven bits. -/
def rleAdmissible (x e : List Byte) : Bool :=
  decodeRle e == .ok x &&
    match parsePackets e.length e with
    | none => false
    | some packets => groupedFrom x 0 packets

/-- `RLE_ENC` (rules R167, R168): the canonical encoder, or any encoder cut to what rule R167 admits. -/
def rleEncode (c : Config) (x : List Byte) : List Byte :=
  match c.rleEnc with
  | .default => rleCanonical x
  | .other => if rleAdmissible x (Free.rleEnc x) then Free.rleEnc x else rleCanonical x

/-- `RLE` on the operand registers (rule R166). -/
def execRle (s : State) : Host.Outcome State Fault Refusal := .next (runUnit (fun src => okBytes (rleEncode s.cfg src)) s)

end Sys2Proof.Machine
end

