-- ==== Sys2Proof/Machine/Size.lean ====
section
/-! DEFINITION. `predicted_size` and the nine `SIZE` commands (rules R110 to R113). -/

namespace Sys2Proof.Machine

/-- `predicted_size(fmt, w, h)` (rule R111); the source gives no size for the indexed format. -/
def predictedSize (fmt : PixelFormat) (w h : Nat) : Option Nat :=
  match fmt with
  | .blk1 => some (w * h / 2)
  | .blk2 => some (w * h)
  | .blk3 => some (w * h)
  | .blk4 => some (w * h)
  | .blk5 => some (w * h)
  | .p4444 => some (w * h * 2)
  | .p1555 => some (w * h * 2)
  | .p8888 => some (w * h * 4)
  | .indexed => none

/-- A `SIZE` command's success (rule R110): the result registers, and no memory. -/
def sizeEnd (p : Nat) (s : State) : State :=
  { s with
    rLen := BitVec.ofNat 32 p
    rAux := 0
    errCode := 0
    errInfo := 0
    cSums := 0
    status := successStatus false
    stream := none }

/-- `SIZE.<fmt>` (rule R110). -/
def runSize (fmt : PixelFormat) (s : State) : State :=
  match predictedSize fmt s.width.toNat s.height.toNat with
  | none => raise .unimplementedFormat 0 0 s
  | some p => if 2 ^ 32 ≤ p then raise .arith 0 0 s else sizeEnd p s

/-- `SIZE.BLK1` (rule R110). -/
def execSizeBlk1 (s : State) : Host.Outcome State Fault Refusal := .next (runSize .blk1 s)

/-- `SIZE.BLK2` (rule R110). -/
def execSizeBlk2 (s : State) : Host.Outcome State Fault Refusal := .next (runSize .blk2 s)

/-- `SIZE.BLK3` (rule R110). -/
def execSizeBlk3 (s : State) : Host.Outcome State Fault Refusal := .next (runSize .blk3 s)

/-- `SIZE.BLK4` (rule R110). -/
def execSizeBlk4 (s : State) : Host.Outcome State Fault Refusal := .next (runSize .blk4 s)

/-- `SIZE.BLK5` (rule R110). -/
def execSizeBlk5 (s : State) : Host.Outcome State Fault Refusal := .next (runSize .blk5 s)

/-- `SIZE.P4444` (rule R110). -/
def execSizeP4444 (s : State) : Host.Outcome State Fault Refusal := .next (runSize .p4444 s)

/-- `SIZE.P1555` (rule R110). -/
def execSizeP1555 (s : State) : Host.Outcome State Fault Refusal := .next (runSize .p1555 s)

/-- `SIZE.P8888` (rule R110). -/
def execSizeP8888 (s : State) : Host.Outcome State Fault Refusal := .next (runSize .p8888 s)

/-- `SIZE.INDEXED` (rules R110, R112): always `ERR_UNIMPLEMENTED_FORMAT`. -/
def execSizeIndexed (s : State) : Host.Outcome State Fault Refusal := .next (runSize .indexed s)

end Sys2Proof.Machine
end

