-- ==== Sys2Proof/Machine/Dispatch.lean ====
section
/-! DEFINITION. Which meaning each instruction has: one arm per row of the opcode table. -/

namespace Sys2Proof.Machine

def exec (i : Instr) (s : State) : Host.Outcome State Fault Refusal :=
  match i with
  | .pxdP4444 => Sys2Proof.Machine.execPxdP4444 s
  | .pxdP1555 => Sys2Proof.Machine.execPxdP1555 s
  | .pxdP8888 => Sys2Proof.Machine.execPxdP8888 s
  | .pxeP4444 => Sys2Proof.Machine.execPxeP4444 s
  | .pxeP1555 => Sys2Proof.Machine.execPxeP1555 s
  | .pxeP8888 => Sys2Proof.Machine.execPxeP8888 s
  | .bcdBlk1 => Sys2Proof.Machine.execBcdBlk1 s
  | .bcdBlk2 => Sys2Proof.Machine.execBcdBlk2 s
  | .bcdBlk3 => Sys2Proof.Machine.execBcdBlk3 s
  | .bcdBlk4 => Sys2Proof.Machine.execBcdBlk4 s
  | .bcdBlk5 => Sys2Proof.Machine.execBcdBlk5 s
  | .bceBlk1 => Sys2Proof.Machine.execBceBlk1 s
  | .bceBlk2 => Sys2Proof.Machine.execBceBlk2 s
  | .bceBlk3 => Sys2Proof.Machine.execBceBlk3 s
  | .bceBlk4 => Sys2Proof.Machine.execBceBlk4 s
  | .bceBlk5 => Sys2Proof.Machine.execBceBlk5 s
  | .rld => Sys2Proof.Machine.execRld s
  | .rle => Sys2Proof.Machine.execRle s
  | .lzd => Sys2Proof.Machine.execLzd s
  | .lze => Sys2Proof.Machine.execLze s
  | .sizeBlk1 => Sys2Proof.Machine.execSizeBlk1 s
  | .sizeBlk2 => Sys2Proof.Machine.execSizeBlk2 s
  | .sizeBlk3 => Sys2Proof.Machine.execSizeBlk3 s
  | .sizeBlk4 => Sys2Proof.Machine.execSizeBlk4 s
  | .sizeBlk5 => Sys2Proof.Machine.execSizeBlk5 s
  | .sizeP4444 => Sys2Proof.Machine.execSizeP4444 s
  | .sizeP1555 => Sys2Proof.Machine.execSizeP1555 s
  | .sizeP8888 => Sys2Proof.Machine.execSizeP8888 s
  | .sizeIndexed => Sys2Proof.Machine.execSizeIndexed s
  | .rep n b => Sys2Proof.Machine.execRep n b s
  | .lit bytes => Sys2Proof.Machine.execLit bytes s
  | .l b => Sys2Proof.Machine.execL b s
  | .p dist len => Sys2Proof.Machine.execP dist len s

end Sys2Proof.Machine
end

