-- ==== Sys2Proof/Machine/HostPort.lean ====
section
/-! DEFINITION. The host's side of the engine: the register map, host loads and stores, and reset (rules R30 to R36, R40,
R281, R290). -/

namespace Sys2Proof.Machine

/-- The byte offset of `CMD` (rule R30): a write there starts a command. -/
def cmdOffset : Word := 0x20

/-- A host read of the register space (rules R30, R281): an offset that is not listed reads as 0. -/
def readReg (s : State) (offset : Word) : Word :=
  match offset.toNat with
  | 0x00 => s.src
  | 0x04 => s.srcLen
  | 0x08 => s.dst
  | 0x0C => s.dstCap
  | 0x10 => s.width
  | 0x14 => s.height
  | 0x18 => s.rLen
  | 0x1C => s.rAux
  | 0x20 => s.cmd
  | 0x24 => s.ctrl
  | 0x28 => s.status
  | 0x2C => s.errCode
  | 0x30 => s.errInfo
  | 0x34 => s.cSums
  | _ => 0

/-- A host write of the register space other than of `CMD` (rules R30, R32, R281): `CTRL` keeps bit 0 and drops the rest;
read-only registers and unlisted offsets ignore the write. -/
def writeReg (offset value : Word) (s : State) : State :=
  match offset.toNat with
  | 0x00 => { s with src := value }
  | 0x04 => { s with srcLen := value }
  | 0x08 => { s with dst := value }
  | 0x0C => { s with dstCap := value }
  | 0x10 => { s with width := value }
  | 0x14 => { s with height := value }
  | 0x18 => { s with rLen := value }
  | 0x1C => { s with rAux := value }
  | 0x24 => { s with ctrl := value &&& 1 }
  | _ => s

/-- A host access to `n` bytes from an address stays in buffer memory (rule R40). -/
def hostAccessOk (s : State) (addr : Word) (n : Nat) : Bool := n == 0 || addr.toNat + n ≤ s.cfg.memSize

/-- Host bytes stored at rising addresses (rules R40, R90). -/
def hostStore (addr : Word) (bytes : List Byte) (s : State) : State :=
  { s with mem := memWrite s.mem addr.toNat bytes }

/-- Reset applied by the host (rules R45, R46, R290, R291): every register at its reset value, memory unspecified afresh;
the parameters and the host's further actions are not touched. -/
def resetEngine (s : State) : State :=
  { State.reset with cfg := s.cfg, host := s.host, epoch := s.epoch + 1 }

/-- What an action returns to the host. -/
def sees (seen : HostSeen) (s : State) : State := { s with seen := seen }

end Sys2Proof.Machine
end

