-- ==== Sys2Proof/Machine/Fetch.lean ====
section
/-! DEFINITION. What the engine does next. Between commands it waits for the host: a write of `CMD` that is legal is the
instruction to run (rules R27, R31, R100). Inside a stream command the next packet or token of the stream is (rules R28,
R107, R160, R187). -/

namespace Sys2Proof.Machine

/-- What is to be done next. -/
inductive Fetched
  /-- Run the instruction on the state. -/
  | run (i : Instr) (s : State)
  /-- Nothing is to be run; this is the next state. -/
  | done (s : State)
  /-- The model stops. -/
  | stop (f : Fault)
deriving DecidableEq, Repr

/-- A host write of `CMD` (rules R31, R100 steps 1 and 2, R261): a legal word is the command to run; an illegal one is
stored too, and raises `ERR_ILLEGAL_CMD`. -/
def issueCommand (w : Word) (s : State) : Fetched :=
  match decodeCommand w with
  | .ok i => .run i (beginCommand w s)
  | .error _ => .done (raise .illegalCmd 0 0 (beginCommand w s))

/-- One action of the host (rules R30, R40, R90, R281, R290). -/
def hostStep (action : HostAction) (s : State) : Fetched :=
  match action with
  | .writeReg offset value =>
    if offset = cmdOffset then issueCommand value (sees .nothing s)
    else .done (sees .nothing (writeReg offset value s))
  | .readReg offset => .done (sees (.word (readReg s offset)) s)
  | .storeMem addr bytes =>
    if hostAccessOk s addr bytes.length then .done (sees .nothing (hostStore addr bytes s)) else .stop .hostAddress
  | .loadMem addr n =>
    if hostAccessOk s addr n then .done (sees (.bytes (memRead s addr.toNat n)) s) else .stop .hostAddress
  | .reset => .done (resetEngine s)

/-- The next step of a run-length decode (rules R162, R163): its end when the source is exhausted, else the packet at
`sp`, or the next byte if a packet has been begun. -/
def rldNext (st : RldStream) (s : State) : Fetched :=
  if st.src.length ≤ st.sp then .done (endCommand (rldResult (rldSerialEnd st)) s)
  else if st.mode = .flag then
    match rldFetch st with
    | .error at' => .done (endCommand (rldResult (.error at')) s)
    | .ok packet => .run packet.toInstr s
  else .done { s with stream := some (.rld (rldByte (byteAt st.src st.sp) st)) }

/-- The next step of a dictionary decode (rules R184, R187): the trailer when the expected length is reached, else the
token at `sp`, after the group flag where one is due. -/
def lzdNext (st : LzdStream) (s : State) : Fetched :=
  if dstCount s ≤ st.out.length then .done (endCommand (lzdTrailer s.cfg (strictBit s) st.src st.out st.sp) s)
  else
    match lzdGroup st with
    | .error at' => .done (endCommand (lzStreamError at') s)
    | .ok g =>
      match lzdFetch g with
      | .error at' => .done (endCommand (lzStreamError at') s)
      | .ok token => .run token.toInstr { s with stream := some (.lzd g) }

/-- What is to be done next: go on with the stream inside a command, take the host's next action, or stay idle with all
state kept (rule R286). -/
def fetch (s : State) : Fetched :=
  match s.stream with
  | some (.rld st) => rldNext st s
  | some (.lzd st) => lzdNext st s
  | none =>
    match s.host with
    | [] => .done s
    | action :: rest => hostStep action { s with host := rest }

/-- The state with an instruction of the opcode table where the next step finds it: a command word as the host's next
write of `CMD`, a packet or literal token as the next one of a stream being decoded. A literal token stands in a group
whose flag announces it, and room for its byte is left. -/
def placeInstruction (nbits w : Nat) (s : State) : State :=
  match nbits with
  | 32 => { s with stream := none, host := .writeReg cmdOffset (BitVec.ofNat 32 w) :: s.host }
  | 16 => { s with stream := some (.rld (rldStart (tablePacketBytes w))) }
  | 8 =>
    { s with
      stream := some (.lzd (lzdStart [0x01, BitVec.ofNat 8 w]))
      dstCap := if s.dstCap = 0 then 1 else s.dstCap }
  | _ => s

end Sys2Proof.Machine
end

