-- ==== Sys2Proof/Safety.lean ====
section
/-! DEFINITION. The terms the claims are stated in: when the region checks pass, how a command may end, which states are
sound. They are written from the rules in plain numbers, not through the meanings they speak about. -/

namespace Sys2Proof.Machine

/-- The region checks of rules R57 and R58 pass. -/
structure RegionsOk (s : State) : Prop where
  source : s.src.toNat + s.srcLen.toNat ≤ s.cfg.memSize
  destination : s.dst.toNat + s.dstCap.toNat ≤ s.cfg.memSize
  apart : ¬ (0 < s.srcLen.toNat ∧ 0 < s.dstCap.toNat ∧ s.src.toNat < s.dst.toNat + s.dstCap.toNat ∧
    s.dst.toNat < s.src.toNat + s.srcLen.toNat)

/-- What every command keeps (rules R103, R104): the operands, `CMD`, `CTRL`, and the model's own fields. -/
structure KeepsOperands (s t : State) : Prop where
  src : t.src = s.src
  srcLen : t.srcLen = s.srcLen
  dst : t.dst = s.dst
  dstCap : t.dstCap = s.dstCap
  width : t.width = s.width
  height : t.height = s.height
  cmd : t.cmd = s.cmd
  ctrl : t.ctrl = s.ctrl
  cfg : t.cfg = s.cfg
  host : t.host = s.host
  seen : t.seen = s.seen
  epoch : t.epoch = s.epoch

/-- The error end of rule R103, with the number of the error (rule R260): no byte of memory changes. `computed` is the
checksum that `RAUX` keeps after error 10, whose `info` is the stored one. -/
structure ErrorEnd (code : Nat) (info computed : Word) (s t : State) : Prop where
  keeps : KeepsOperands s t
  mem : ∀ a, readByte t a = readByte s a
  rLen : t.rLen = 0
  rAux : t.rAux = if code = 10 then computed else 0
  errCode : t.errCode.toNat = code
  errInfo : t.errInfo = info
  cSums : t.cSums = if code = 10 then info else 0
  status : t.status = if code = 10 then 7 else 3
  stream : t.stream = none

/-- The success end of rule R104: the bytes `out` stand at the destination and no other byte changes. -/
structure SuccessEnd (out : List Byte) (aux stored : Word) (mismatch : Bool) (s t : State) : Prop where
  keeps : KeepsOperands s t
  written : ∀ i (h : i < out.length), readByte t (s.dst.toNat + i) = out[i]
  others : ∀ a, a < s.dst.toNat ∨ s.dst.toNat + out.length ≤ a → readByte t a = readByte s a
  rLen : t.rLen.toNat = out.length
  rAux : t.rAux = aux
  errCode : t.errCode = 0
  errInfo : t.errInfo = 0
  cSums : t.cSums = stored
  status : t.status = if mismatch then 5 else 1
  stream : t.stream = none

/-- The place of a channel in a canonical pixel (rule R120). -/
def channelPlace : Channel → Nat
  | .r => 0
  | .g => 1
  | .b => 2
  | .a => 3

/-- Byte `i` of the source region (rule R108). -/
def sourceByte (s : State) (i : Nat) : Byte := readByte s (s.src.toNat + i)

/-- What a packet emits (rules R161, R165). -/
def packetOutput : Packet → List Byte
  | .rep n b => List.replicate (n.toNat + 1) b
  | .lit bytes => bytes

/-- What tokens emit after the output so far (rules R188, R189). -/
def tokensOutput : List Token → List Byte → List Byte
  | [], out => out
  | .l b :: rest, out => tokensOutput rest (out ++ [b])
  | .p dist len :: rest, out => tokensOutput rest (copyBack dist.toNat (len.toNat + 3) out)

/-- The formats rule R72 accepts for an operation. -/
def FormatAccepted (op fmt : Nat) : Prop :=
  ((op = 1 ∨ op = 2) ∧ 5 ≤ fmt ∧ fmt ≤ 7) ∨ ((op = 3 ∨ op = 4) ∧ fmt ≤ 4) ∨ (5 ≤ op ∧ op ≤ 8 ∧ fmt = 0) ∨
    (op = 9 ∧ fmt ≤ 8)

/-- An illegal command word (rule R76). -/
def IllegalWord (w : Word) : Prop :=
  w.toNat / 256 ≠ 0 ∨ ¬ FormatAccepted (w.toNat % 16) (w.toNat / 16 % 16)

/-- The state after the host has moved the result of a command to the operands of the next: the result becomes the
source, and a destination is chosen (as programs P1 and P3 of the test vectors do). -/
def takeResult (dst cap : Word) (t : State) : State :=
  { t with src := t.dst, srcLen := t.rLen, dst := dst, dstCap := cap }

/-- A tail that is the beginning of a packet but not the whole of it (rule R164). -/
def TruncatedPacket (tail : List Byte) : Prop :=
  tail ≠ [] ∧ ∃ packet : Packet, packet.wellFormed = true ∧ tail <+: encodePacket packet ∧
    tail.length < (encodePacket packet).length

/-- The commands that have regions: all but `SIZE` (rules R57, R109). -/
def usesMemory : List Instr :=
  [.pxdP4444, .pxdP1555, .pxdP8888, .pxeP4444, .pxeP1555, .pxeP8888, .bcdBlk1, .bcdBlk2, .bcdBlk3, .bcdBlk4, .bcdBlk5,
    .bceBlk1, .bceBlk2, .bceBlk3, .bceBlk4, .bceBlk5, .rld, .rle, .lzd, .lze]

/-- The `BCD` commands and their formats (rule R146). -/
def bcdCommands : List (Instr × BlockFormat) :=
  [(.bcdBlk1, .blk1), (.bcdBlk2, .blk2), (.bcdBlk3, .blk3), (.bcdBlk4, .blk4), (.bcdBlk5, .blk5)]

/-- The `BCE` commands and their formats (rule R148). -/
def bceCommands : List (Instr × BlockFormat) :=
  [(.bceBlk1, .blk1), (.bceBlk2, .blk2), (.bceBlk3, .blk3), (.bceBlk4, .blk4), (.bceBlk5, .blk5)]

/-- The state inside a stream command is sound (rules R27, R28). -/
def StreamOk (s : State) : Stream → Prop
  | .rld st =>
    st.sp ≤ st.src.length ∧ st.fsp ≤ st.sp ∧
      (st.mode = .flag ∨ ∃ k, 1 ≤ k ∧ k ≤ 128 ∧ (st.mode = .lit k ∨ st.mode = .rep k))
  | .lzd st => st.sp ≤ st.src.length ∧ st.fsp ≤ st.sp ∧ st.bit ≤ 8 ∧ st.out.length ≤ s.dstCap.toNat

/-- The invariant of the machine: what holds of every state that a run from reset passes through, inside a command
too. -/
structure Sound (s : State) : Prop where
  /-- The parameters meet the constraints of rule R8. -/
  cfg : s.cfg.Wf
  /-- Memory is in its canonical form. -/
  mem_wf : s.mem.wf = true
  /-- Only addresses of buffer memory are ever written (rules R40, R57). -/
  mem_range : ∀ cell ∈ s.mem, cell.1 < s.cfg.memSize
  /-- The reserved bits of `CTRL` read as 0 (rule R32). -/
  ctrl : s.ctrl.toNat ≤ 1
  /-- `STATUS` is 0 before the first command, then `DONE` with or without `ERR` and `CSUM_MISMATCH` (rules R29, R33). -/
  status : s.status = 0 ∨ s.status = 1 ∨ s.status = 3 ∨ s.status = 5 ∨ s.status = 7
  /-- `ERRCODE` holds 0 or one of the twelve codes (rules R34, R260). -/
  errCode : s.errCode.toNat ≤ 12
  /-- Between commands `ERR` is set exactly when `ERRCODE` is not 0, and all three flags exactly after `ERR_CHECKSUM`
  (rules R29, R103). -/
  err_flag : s.stream = none → ((s.status = 3 ∨ s.status = 7) ↔ s.errCode ≠ 0) ∧ (s.status = 7 ↔ s.errCode = 10)
  /-- `ERRINFO` is 0 after every outcome but the three that report a value (rules R35, R266). -/
  errInfo : s.errCode ≠ 7 → s.errCode ≠ 8 → s.errCode ≠ 10 → s.errInfo = 0
  /-- Inside a command the stream is sound and the region checks have passed (rules R28, R100). -/
  stream : ∀ st, s.stream = some st → StreamOk s st ∧ RegionsOk s

end Sys2Proof.Machine
end

