-- ==== Sys2Proof/Certificates/Slice0/Obligations.lean ====
section
/-! DEFINITION. The statements for the provers, grouped by file of the spec. `ErrorEnd` and `SuccessEnd` (Safety.lean) say
all that a command's end changes and keeps, memory included. -/

open Sys2Proof Sys2Proof.Machine

/-! ### Encoding (30_encoding.md) -/

/-- Decoding the encoding of a well-formed instruction gives it back, for all 33 instructions and every operand (rules
R70 to R74, R81, R82, R188, R189). -/
def Obligations.DecodeOfEncodeGivesInstruction : Prop :=
  ∀ i : Instr, i.wellFormed = true → decode (encode i) = .ok i

/-- Rule R74: the legal command words are exactly the 29 pairs, each the command of its mnemonic. -/
def Obligations.LegalCommandWordsAreThe29 : Prop :=
  ∀ (w : Word) (i : Instr), decodeCommand w = .ok i ↔ (w.toNat, i) ∈
    [(0x51, Instr.pxdP4444), (0x61, .pxdP1555), (0x71, .pxdP8888), (0x52, .pxeP4444), (0x62, .pxeP1555),
      (0x72, .pxeP8888), (0x03, .bcdBlk1), (0x13, .bcdBlk2), (0x23, .bcdBlk3), (0x33, .bcdBlk4), (0x43, .bcdBlk5),
      (0x04, .bceBlk1), (0x14, .bceBlk2), (0x24, .bceBlk3), (0x34, .bceBlk4), (0x44, .bceBlk5), (0x05, .rld),
      (0x06, .rle), (0x07, .lzd), (0x08, .lze), (0x09, .sizeBlk1), (0x19, .sizeBlk2), (0x29, .sizeBlk3),
      (0x39, .sizeBlk4), (0x49, .sizeBlk5), (0x59, .sizeP4444), (0x69, .sizeP1555), (0x79, .sizeP8888),
      (0x89, .sizeIndexed)]

/-- A few words and bytes written out from rules R70 to R72, R81, R82 and R189 decode to what they stand for. -/
def Obligations.WrittenOutWordsDecode : Prop :=
  decodeCommand 0x00000061#32 = .ok .pxdP1555 ∧ decodeCommand 0x00000044#32 = .ok .bceBlk5 ∧
  decodeCommand 0x00000089#32 = .ok .sizeIndexed ∧ decode (.rlePacket [0x82, 0xAA]) = .ok (.rep 2 0xAA) ∧
  decode (.rlePacket [0x01, 0x07, 0x09]) = .ok (.lit [0x07, 0x09]) ∧
  decode (.lzToken false [0x34, 0x12]) = .ok (.p 0x134 2)

/-- Rule R84: a decoder tells the length of a packet from its flag alone, 2 bytes when bit 7 is set and 2 plus the low
seven bits when it is clear; every flag is legal, and decoding fails only where those bytes run past the end. -/
def Obligations.PacketLengthComesFromItsFlag : Prop :=
  ∀ (flag : Byte) (rest : List Byte),
    let size := if 128 ≤ flag.toNat then 2 else 2 + flag.toNat
    if rest.length + 1 < size then decodePacket (flag :: rest) = .error .truncated
    else ∃ packet more, decodePacket (flag :: rest) = .ok (packet, more) ∧ packet.wellFormed = true ∧
      encodePacket packet ++ more = flag :: rest ∧ (encodePacket packet).length = size

/-! ### The step -/

/-- A host write of a legal word to `CMD`, between commands, is the execution of the decoded command, on the state in
which the word is stored and `STATUS` cleared (rules R31, R100). -/
def Obligations.StepRunsTheDecodedCommand : Prop :=
  ∀ (s : State) (w : Word) (rest : List HostAction) (i : Instr),
    s.stream = none → s.host = .writeReg 0x20 w :: rest → decodeCommand w = .ok i →
    step s = exec i { s with host := rest, seen := .nothing, cmd := w, status := 0 }

/-- THE MODEL'S CHOICE (log 4): the spec makes a stream command one step (rules R15, R100, R284), and the model lets a step
from a state inside one run a single packet or token. It is the one that stands at `sp`, after the group flag where one is
due; the order in which they come is that of rules R107, R160 and R187. -/
def Obligations.StepRunsTheStreamElement : Prop :=
  (∀ (s : State) (st : RldStream) (packet : Packet) (more : List Byte),
    s.stream = some (.rld st) → st.mode = .flag → decodePacket (st.src.drop st.sp) = .ok (packet, more) →
    step s = exec packet.toInstr s) ∧
  (∀ (s : State) (st : LzdStream) (token : Token) (more : List Byte),
    s.stream = some (.lzd st) → st.out.length < s.dstCap.toNat → st.bit < 8 →
    decodeToken (st.flag.getLsbD st.bit) (st.src.drop st.sp) = .ok (token, more) →
    step s = exec token.toInstr s) ∧
  (∀ (s : State) (st : LzdStream) (flag : Byte) (body : List Byte) (token : Token) (more : List Byte),
    s.stream = some (.lzd st) → st.out.length < s.dstCap.toNat → st.bit = 8 → st.src.drop st.sp = flag :: body →
    decodeToken (flag.getLsbD 0) body = .ok (token, more) →
    step s = exec token.toInstr
      { s with stream := some (.lzd { st with fsp := st.sp, flag := flag, sp := st.sp + 1, bit := 0 }) })

/-- A host write of an illegal word ends in `ERR_ILLEGAL_CMD`: the word is stored, no memory is touched (rules R76,
R261); every other word is a command. -/
def Obligations.IllegalWordEndsInIllegalCmd : Prop :=
  (∀ (s : State) (w : Word) (rest : List HostAction),
    s.stream = none → s.host = .writeReg 0x20 w :: rest → IllegalWord w →
    ∃ t, step s = .next t ∧ ErrorEnd 1 0 0 { s with host := rest, seen := .nothing, cmd := w } t) ∧
  (∀ w : Word, ¬ IllegalWord w → ∃ i, decodeCommand w = .ok i ∧ i.isCommand = true)

/-- A step is refused in no state, and stops with a fault only for a host access outside buffer memory; an idle engine
keeps its state (rules R286, R306, R40). The fault is the model's choice (log 13). -/
def Obligations.StepStopsOnlyOnHostAccess : Prop :=
  ∀ s : State,
    (∃ t, step s = .next t ∧ (s.stream = none → s.host = [] → t = s)) ∨
    (step s = .fault .hostAddress ∧ s.stream = none ∧ ∃ (addr : Word) (n : Nat) (rest : List HostAction),
      0 < n ∧ s.cfg.memSize < addr.toNat + n ∧
        (s.host = .loadMem addr n :: rest ∨ ∃ bytes, bytes.length = n ∧ s.host = .storeMem addr bytes :: rest))

/-! ### State and reset (10_state.md, 70_reset_and_hazards.md) -/

/-- Rule R45: what reset leaves. -/
def Obligations.ResetValuesAreZero : Prop :=
  let s := State.reset
  s.src = 0 ∧ s.srcLen = 0 ∧ s.dst = 0 ∧ s.dstCap = 0 ∧ s.width = 0 ∧ s.height = 0 ∧ s.rLen = 0 ∧ s.rAux = 0 ∧
  s.cmd = 0 ∧ s.ctrl = 0 ∧ s.status = 0 ∧ s.errCode = 0 ∧ s.errInfo = 0 ∧ s.cSums = 0 ∧ s.stream = none ∧
  step s = .next s

/-- Rule R293: each command on the reset state with nothing written, for every admissible choice of the parameters; of
the block commands, those whose format has a codec; of the dictionary formats, the default one. -/
def Obligations.CommandsOnTheResetState : Prop :=
  ∀ c : Config, c.Wf →
    let s : State := { State.reset with cfg := c }
    (∀ i ∈ [Instr.rld, .rle, .pxdP4444, .pxdP1555, .pxdP8888, .pxeP4444, .pxeP1555, .pxeP8888, .sizeBlk1, .sizeBlk2,
        .sizeBlk3, .sizeBlk4, .sizeBlk5, .sizeP4444, .sizeP1555, .sizeP8888],
      ∃ t, exec i s = .next t ∧ SuccessEnd [] 0 0 false s t) ∧
    (∀ p ∈ bcdCommands, bcVariant c p.2 ≠ none → ∃ t, exec p.1 s = .next t ∧ SuccessEnd [] 0 0 false s t) ∧
    (∀ p ∈ bceCommands, bcVariant c p.2 ≠ none → ∃ t, exec p.1 s = .next t ∧ ErrorEnd 6 0 0 s t) ∧
    (∃ t, exec .lze s = .next t ∧ ErrorEnd 11 0 0 s t) ∧
    (c.lzFormat = .lzss → ∃ t, exec .lzd s = .next t ∧ ErrorEnd 8 0 0 s t) ∧
    (∃ t, step { s with host := [.writeReg 0x20 0] } = .next t ∧ ErrorEnd 1 0 0 s t)

/-- A reset the host applies puts every register at its reset value and leaves the parameters alone; memory is
unspecified afresh (rules R290, R291; the counter that selects its contents is the model's, log 3). -/
def Obligations.HostResetRestoresResetValues : Prop :=
  ∀ (s : State) (rest : List HostAction), s.stream = none → s.host = .reset :: rest →
    step s = .next { State.reset with cfg := s.cfg, host := rest, epoch := s.epoch + 1 }

/-- The invariant holds at reset, with the default parameters that the model puts there (log 1). -/
def Obligations.ResetIsSound : Prop := Sound State.reset

/-- Every step keeps the invariant: memory in canonical form and inside buffer memory, reserved bits 0, flags and codes
legal and in agreement, the stream inside a command sound (rules R27 to R35, R57, R260). -/
def Obligations.StepKeepsSound : Prop :=
  ∀ s t : State, Sound s → step s = .next t → Sound t

/-- Rule R20: nothing of a stream survives a command, and between commands no step opens one. -/
def Obligations.NothingHiddenBetweenCommands : Prop :=
  (∀ (i : Instr) (s t : State), i.isCommand = true → exec i s = .next t → t.stream = none) ∧
  (∀ s t : State, s.stream = none → step s = .next t → t.stream = none)

/-- Rule R21: the parameters do not change while the engine runs, in any step from any state. -/
def Obligations.ParametersNeverChange : Prop := ∀ s t : State, step s = .next t → t.cfg = s.cfg

/-- A host write of a register (rules R22, R26, R30, R32, R281): an operand register takes the value, `CTRL` its bit 0,
and a read-only register or an unlisted offset ignores it; every other register reads as before, and no byte of memory
changes. That an unaligned offset is an unlisted one is the model's reading (log 15). -/
def Obligations.HostWriteReachesOneRegister : Prop :=
  ∀ (s : State) (offset value : Word) (rest : List HostAction),
    s.stream = none → s.host = .writeReg offset value :: rest → offset ≠ 0x20 →
    ∃ t, step s = .next t ∧ t.mem = s.mem ∧ t.cfg = s.cfg ∧ t.epoch = s.epoch ∧ t.stream = none ∧ t.host = rest ∧
      ∀ o : Word, readReg t o =
        if o ≠ offset then readReg s o
        else if offset.toNat ∈ [0x00, 0x04, 0x08, 0x0C, 0x10, 0x14, 0x18, 0x1C] then value
        else if offset.toNat = 0x24 then BitVec.ofNat 32 (value.toNat % 2)
        else readReg s o

/-- A host read of a register returns it and changes nothing (rules R30, R281): the register map, and 0 for every offset
that is not listed, the unaligned ones among them (log 15). -/
def Obligations.HostReadFollowsTheRegisterMap : Prop :=
  (∀ (s : State) (offset : Word) (rest : List HostAction), s.stream = none → s.host = .readReg offset :: rest →
    step s = .next { s with host := rest, seen := .word (readReg s offset) }) ∧
  (∀ s : State, [0x00, 0x04, 0x08, 0x0C, 0x10, 0x14, 0x18, 0x1C, 0x20, 0x24, 0x28, 0x2C, 0x30, 0x34].map
      (fun n => readReg s (BitVec.ofNat 32 n)) =
    [s.src, s.srcLen, s.dst, s.dstCap, s.width, s.height, s.rLen, s.rAux, s.cmd, s.ctrl, s.status, s.errCode, s.errInfo,
      s.cSums]) ∧
  (∀ (s : State) (offset : Word), offset.toNat % 4 ≠ 0 ∨ 0x34 < offset.toNat → readReg s offset = 0)

/-! ### Memory and the common sequence (20_memory.md, 40_command_execution.md, 60_exceptions.md) -/

/-- Bytes the host stores are the bytes it loads, and no other byte changes (rules R40, R50, R51). -/
def Obligations.HostStoreThenLoad : Prop :=
  ∀ (s : State) (addr : Word) (bytes : List Byte) (rest : List HostAction),
    s.stream = none → s.host = .storeMem addr bytes :: .loadMem addr bytes.length :: rest →
    addr.toNat + bytes.length ≤ s.cfg.memSize →
    ∃ t u, step s = .next t ∧ step t = .next u ∧ u.seen = .bytes bytes ∧ u.host = rest ∧ u.mem = t.mem ∧
      ∀ a, a < addr.toNat ∨ addr.toNat + bytes.length ≤ a → readByte u a = readByte s a

/-- Rule R57: a command with regions, one of which leaves buffer memory (compared without wrapping), ends in
`ERR_ADDR`. -/
def Obligations.RegionOutsideMemoryIsAddrError : Prop :=
  ∀ (i : Instr) (s : State), i ∈ usesMemory →
    (s.cfg.memSize < s.src.toNat + s.srcLen.toNat ∨ s.cfg.memSize < s.dst.toNat + s.dstCap.toNat) →
    ∃ t, exec i s = .next t ∧ ErrorEnd 2 0 0 s t

/-- Rule R58: a command with regions that lie in memory and share a byte ends in `ERR_OVERLAP`. -/
def Obligations.OverlappingRegionsAreRefused : Prop :=
  ∀ (i : Instr) (s : State), i ∈ usesMemory →
    s.src.toNat + s.srcLen.toNat ≤ s.cfg.memSize → s.dst.toNat + s.dstCap.toNat ≤ s.cfg.memSize →
    0 < s.srcLen.toNat → 0 < s.dstCap.toNat → s.src.toNat < s.dst.toNat + s.dstCap.toNat →
    s.dst.toNat < s.src.toNat + s.srcLen.toNat →
    ∃ t, exec i s = .next t ∧ ErrorEnd 3 0 0 s t

/-- Rules R103 and R267: whatever the command and the error, an error end writes no byte of memory and keeps every
operand; only the result and status registers change. -/
def Obligations.ErrorEndsWriteNoMemory : Prop :=
  ∀ (i : Instr) (s t : State), i.isCommand = true → exec i s = .next t → t.errCode ≠ 0 →
    ∃ info computed, ErrorEnd t.errCode.toNat info computed s t

/-- Every command ends from every state (rule R306), with `DONE` set, `ERR` set exactly when there is an error code, and
`CSUM_MISMATCH` set by `LZD` alone (rule R29). -/
def Obligations.CommandsAlwaysEnd : Prop :=
  ∀ (i : Instr) (s : State), i.isCommand = true →
    ∃ t, exec i s = .next t ∧ t.status.getLsbD 0 = true ∧ (t.status.getLsbD 1 = true ↔ t.errCode ≠ 0) ∧
      (t.status.getLsbD 2 = true → i = .lzd) ∧ t.status.toNat < 8

/-- What a command changes (rules R104, R108): of memory the first `RLEN` bytes of the destination region and nothing
else, and none at all for `SIZE`; of the registers the result and status registers. -/
def Obligations.CommandsKeepOperandsAndOtherBytes : Prop :=
  ∀ (i : Instr) (s t : State), i.isCommand = true → exec i s = .next t →
    KeepsOperands s t ∧ (i ∉ usesMemory → ∀ a, readByte t a = readByte s a) ∧
      (i ∈ usesMemory → t.rLen.toNat ≤ s.dstCap.toNat ∧
        ∀ a, a < s.dst.toNat ∨ s.dst.toNat + t.rLen.toNat ≤ a → readByte t a = readByte s a)

/-- Rule R56: a command run again on what it left gives the same registers and the same memory. -/
def Obligations.CommandsAreIdempotent : Prop :=
  ∀ (i : Instr) (s t : State), i.isCommand = true → s.mem.wf = true → exec i s = .next t → exec i t = .next t

/-- Rules R16, R40 and R101: a command's registers and result bytes depend on nothing but the operand registers, `CTRL`,
the parameters and the source bytes. -/
def Obligations.CommandsReadOnlyTheirSource : Prop :=
  ∀ (i : Instr) (s s' t : State), i.isCommand = true →
    s'.src = s.src → s'.srcLen = s.srcLen → s'.dst = s.dst → s'.dstCap = s.dstCap → s'.width = s.width →
    s'.height = s.height → s'.ctrl = s.ctrl → s'.cfg = s.cfg →
    (∀ k < s.srcLen.toNat, sourceByte s' k = sourceByte s k) → exec i s = .next t →
    ∃ t', exec i s' = .next t' ∧ t'.rLen = t.rLen ∧ t'.rAux = t.rAux ∧ t'.errCode = t.errCode ∧
      t'.errInfo = t.errInfo ∧ t'.cSums = t.cSums ∧ t'.status = t.status ∧
      (i ∈ usesMemory → ∀ k < t.rLen.toNat, readByte t' (s.dst.toNat + k) = readByte t (s.dst.toNat + k))

/-- Rule R262: the errors a command can end with; the first code belongs to illegal words, which are no command. -/
def Obligations.ErrorCodesOfEachCommand : Prop :=
  ∀ (s t : State) (i : Instr) (codes : List Nat),
    (i, codes) ∈ [(Instr.pxdP4444, [2, 3, 5, 11]), (.pxdP1555, [2, 3, 5, 11]), (.pxdP8888, [2, 3, 5, 11]),
      (.pxeP4444, [2, 3, 5, 11]), (.pxeP1555, [2, 3, 5, 11]), (.pxeP8888, [2, 3, 5, 11]),
      (.bcdBlk1, [2, 3, 4, 9, 11, 12]), (.bcdBlk2, [2, 3, 4, 9, 11, 12]), (.bcdBlk3, [2, 3, 4, 9, 11, 12]),
      (.bcdBlk4, [2, 3, 4, 9, 11, 12]), (.bcdBlk5, [2, 3, 4, 9, 11, 12]), (.bceBlk1, [2, 3, 5, 6, 11, 12]),
      (.bceBlk2, [2, 3, 5, 6, 11, 12]), (.bceBlk3, [2, 3, 5, 6, 11, 12]), (.bceBlk4, [2, 3, 5, 6, 11, 12]),
      (.bceBlk5, [2, 3, 5, 6, 11, 12]), (.rld, [2, 3, 7, 11]), (.rle, [2, 3, 11]), (.lzd, [2, 3, 8, 10]),
      (.lze, [2, 3, 11]), (.sizeBlk1, [4]), (.sizeBlk2, [4]), (.sizeBlk3, [4]), (.sizeBlk4, [4]), (.sizeBlk5, [4]),
      (.sizeP4444, [4]), (.sizeP1555, [4]), (.sizeP8888, [4]), (.sizeIndexed, [12])] →
    exec i s = .next t → t.errCode = 0 ∨ t.errCode.toNat ∈ codes

/-! ### `SIZE` (40_command_execution.md) -/

/-- Rules R110 and R111: the size of each format, whatever the other operands; `ERR_ARITH` when it does not fit 32
bits. -/
def Obligations.SizeGivesPredictedSize : Prop :=
  ∀ (s : State) (i : Instr) (mul div : Nat),
    (i, mul, div) ∈ [(Instr.sizeBlk1, 1, 2), (.sizeBlk2, 1, 1), (.sizeBlk3, 1, 1), (.sizeBlk4, 1, 1), (.sizeBlk5, 1, 1),
      (.sizeP4444, 2, 1), (.sizeP1555, 2, 1), (.sizeP8888, 4, 1)] →
    let size := s.width.toNat * s.height.toNat * mul / div
    if 2 ^ 32 ≤ size then ∃ t, exec i s = .next t ∧ ErrorEnd 4 0 0 s t
    else exec i s = .next { s with
      rLen := BitVec.ofNat 32 size, rAux := 0, errCode := 0, errInfo := 0, cSums := 0, status := 1, stream := none }

/-- Rule R112: `SIZE.INDEXED` raises `ERR_UNIMPLEMENTED_FORMAT`. -/
def Obligations.SizeIndexedIsUnimplemented : Prop :=
  ∀ s : State, ∃ t, exec .sizeIndexed s = .next t ∧ ErrorEnd 12 0 0 s t

/-- Rule R114: with both dimensions at most 32767 no size overflows, and the largest is `32767*32767*4`; with larger
dimensions one can, for example 65536 by 65536 in the 32-bit format. -/
def Obligations.SizeOfMipmapNeverOverflows : Prop :=
  (∀ (i : Instr) (s t : State),
    i ∈ [Instr.sizeBlk1, .sizeBlk2, .sizeBlk3, .sizeBlk4, .sizeBlk5, .sizeP4444, .sizeP1555, .sizeP8888] →
    s.width.toNat ≤ 32767 → s.height.toNat ≤ 32767 → exec i s = .next t →
    t.errCode = 0 ∧ t.rLen.toNat ≤ 4294705156) ∧
  (∀ s : State, s.width = 32767 → s.height = 32767 →
    ∃ t, exec .sizeP8888 s = .next t ∧ t.errCode = 0 ∧ t.rLen.toNat = 4294705156) ∧
  (∀ s : State, s.width = 65536 → s.height = 65536 → ∃ t, exec .sizeP8888 s = .next t ∧ ErrorEnd 4 0 0 s t)

/-! ### Pixel converter (41_pixel_converter.md) -/

/-- `PXD.P4444` (rules R121, R122, R124, for every order of the channels, rule R123): the four 4-bit fields of each
little-endian word, from bit 15 down, each scaled by `(v*255 + 7) div 15` and put at its channel's place. -/
def Obligations.PxdP4444UnpacksEachPixel : Prop :=
  ∀ s : State, s.cfg.pixFieldOrder.Wf → RegionsOk s →
    let n := s.srcLen.toNat / 2
    if s.srcLen.toNat % 2 ≠ 0 then ∃ t, exec .pxdP4444 s = .next t ∧ ErrorEnd 5 0 0 s t
    else if s.dstCap.toNat < 4 * n then ∃ t, exec .pxdP4444 s = .next t ∧ ErrorEnd 11 0 0 s t
    else ∃ t out, exec .pxdP4444 s = .next t ∧ SuccessEnd out 0 0 false s t ∧ out.length = 4 * n ∧
      ∀ k < n,
        let w := (sourceByte s (2 * k)).toNat + 256 * (sourceByte s (2 * k + 1)).toNat
        out[4 * k + channelPlace s.cfg.pixFieldOrder.at0]? = some (BitVec.ofNat 8 ((w / 4096 * 255 + 7) / 15)) ∧
        out[4 * k + channelPlace s.cfg.pixFieldOrder.at1]? = some (BitVec.ofNat 8 ((w / 256 % 16 * 255 + 7) / 15)) ∧
        out[4 * k + channelPlace s.cfg.pixFieldOrder.at2]? = some (BitVec.ofNat 8 ((w / 16 % 16 * 255 + 7) / 15)) ∧
        out[4 * k + channelPlace s.cfg.pixFieldOrder.at3]? = some (BitVec.ofNat 8 ((w % 16 * 255 + 7) / 15))

/-- `PXD.P1555` (rules R121, R122, R125, for every order of the channels, rule R123): bit 15 gives 0 or 255, the three
5-bit fields are scaled by `(v*255 + 15) div 31`. -/
def Obligations.PxdP1555UnpacksEachPixel : Prop :=
  ∀ s : State, s.cfg.pixFieldOrder.Wf → RegionsOk s →
    let n := s.srcLen.toNat / 2
    if s.srcLen.toNat % 2 ≠ 0 then ∃ t, exec .pxdP1555 s = .next t ∧ ErrorEnd 5 0 0 s t
    else if s.dstCap.toNat < 4 * n then ∃ t, exec .pxdP1555 s = .next t ∧ ErrorEnd 11 0 0 s t
    else ∃ t out, exec .pxdP1555 s = .next t ∧ SuccessEnd out 0 0 false s t ∧ out.length = 4 * n ∧
      ∀ k < n,
        let w := (sourceByte s (2 * k)).toNat + 256 * (sourceByte s (2 * k + 1)).toNat
        out[4 * k + channelPlace s.cfg.pixFieldOrder.at0]? = some (BitVec.ofNat 8 (w / 32768 * 255)) ∧
        out[4 * k + channelPlace s.cfg.pixFieldOrder.at1]? = some (BitVec.ofNat 8 ((w / 1024 % 32 * 255 + 15) / 31)) ∧
        out[4 * k + channelPlace s.cfg.pixFieldOrder.at2]? = some (BitVec.ofNat 8 ((w / 32 % 32 * 255 + 15) / 31)) ∧
        out[4 * k + channelPlace s.cfg.pixFieldOrder.at3]? = some (BitVec.ofNat 8 ((w % 32 * 255 + 15) / 31))

/-- `PXD.P8888` (rules R121, R122, R126, for every stored order): each stored byte goes unchanged to its channel's
place. -/
def Obligations.PxdP8888ReordersEachPixel : Prop :=
  ∀ s : State, s.cfg.pix8888Order.Wf → RegionsOk s →
    let n := s.srcLen.toNat / 4
    if s.srcLen.toNat % 4 ≠ 0 then ∃ t, exec .pxdP8888 s = .next t ∧ ErrorEnd 5 0 0 s t
    else if s.dstCap.toNat < 4 * n then ∃ t, exec .pxdP8888 s = .next t ∧ ErrorEnd 11 0 0 s t
    else ∃ t out, exec .pxdP8888 s = .next t ∧ SuccessEnd out 0 0 false s t ∧ out.length = 4 * n ∧
      ∀ k < n,
        out[4 * k + channelPlace s.cfg.pix8888Order.at0]? = some (sourceByte s (4 * k)) ∧
        out[4 * k + channelPlace s.cfg.pix8888Order.at1]? = some (sourceByte s (4 * k + 1)) ∧
        out[4 * k + channelPlace s.cfg.pix8888Order.at2]? = some (sourceByte s (4 * k + 2)) ∧
        out[4 * k + channelPlace s.cfg.pix8888Order.at3]? = some (sourceByte s (4 * k + 3))

/-- `PXE.P4444` (rules R127, R128, R129, R133, for every order of the channels and every
admissible bias, log 6): each channel scaled by `(v*15 + bias) div 255` into its field of the little-endian word. -/
def Obligations.PxeP4444PacksEachPixel : Prop :=
  ∀ s : State, s.cfg.Wf → RegionsOk s →
    let n := s.srcLen.toNat / 4
    let o := s.cfg.pixFieldOrder
    let field := fun (k : Nat) (c : Channel) =>
      ((sourceByte s (4 * k + channelPlace c)).toNat * 15 + downBias s.cfg.pixDownBias 4) / 255
    if s.srcLen.toNat % 4 ≠ 0 then ∃ t, exec .pxeP4444 s = .next t ∧ ErrorEnd 5 0 0 s t
    else if s.dstCap.toNat < 2 * n then ∃ t, exec .pxeP4444 s = .next t ∧ ErrorEnd 11 0 0 s t
    else ∃ t out, exec .pxeP4444 s = .next t ∧ SuccessEnd out 0 0 false s t ∧ out.length = 2 * n ∧
      ∀ k < n,
        let w := 4096 * field k o.at0 + 256 * field k o.at1 + 16 * field k o.at2 + field k o.at3
        w < 65536 ∧ out[2 * k]? = some (BitVec.ofNat 8 (w % 256)) ∧
          out[2 * k + 1]? = some (BitVec.ofNat 8 (w / 256))

/-- `PXE.P1555` (rules R127, R128, R130, R133, for every order of the channels and every
admissible bias, log 6): the first channel scaled to 1 bit, the others to 5 bits, each into its field of the little-endian word. -/
def Obligations.PxeP1555PacksEachPixel : Prop :=
  ∀ s : State, s.cfg.Wf → RegionsOk s →
    let n := s.srcLen.toNat / 4
    let o := s.cfg.pixFieldOrder
    let value := fun (k : Nat) (c : Channel) => (sourceByte s (4 * k + channelPlace c)).toNat
    let field := fun (k : Nat) (c : Channel) => (value k c * 31 + downBias s.cfg.pixDownBias 5) / 255
    if s.srcLen.toNat % 4 ≠ 0 then ∃ t, exec .pxeP1555 s = .next t ∧ ErrorEnd 5 0 0 s t
    else if s.dstCap.toNat < 2 * n then ∃ t, exec .pxeP1555 s = .next t ∧ ErrorEnd 11 0 0 s t
    else ∃ t out, exec .pxeP1555 s = .next t ∧ SuccessEnd out 0 0 false s t ∧ out.length = 2 * n ∧
      ∀ k < n,
        let w := 32768 * ((value k o.at0 + downBias s.cfg.pixDownBias 1) / 255) + 1024 * field k o.at1 +
          32 * field k o.at2 + field k o.at3
        w < 65536 ∧ out[2 * k]? = some (BitVec.ofNat 8 (w % 256)) ∧
          out[2 * k + 1]? = some (BitVec.ofNat 8 (w / 256))

/-- `PXE.P8888` (rules R127, R128, R131, for every stored order): each channel goes unchanged to its stored place. -/
def Obligations.PxeP8888ReordersEachPixel : Prop :=
  ∀ s : State, s.cfg.pix8888Order.Wf → RegionsOk s →
    let n := s.srcLen.toNat / 4
    if s.srcLen.toNat % 4 ≠ 0 then ∃ t, exec .pxeP8888 s = .next t ∧ ErrorEnd 5 0 0 s t
    else if s.dstCap.toNat < 4 * n then ∃ t, exec .pxeP8888 s = .next t ∧ ErrorEnd 11 0 0 s t
    else ∃ t out, exec .pxeP8888 s = .next t ∧ SuccessEnd out 0 0 false s t ∧ out.length = 4 * n ∧
      ∀ k < n,
        out[4 * k]? = some (sourceByte s (4 * k + channelPlace s.cfg.pix8888Order.at0)) ∧
        out[4 * k + 1]? = some (sourceByte s (4 * k + channelPlace s.cfg.pix8888Order.at1)) ∧
        out[4 * k + 2]? = some (sourceByte s (4 * k + channelPlace s.cfg.pix8888Order.at2)) ∧
        out[4 * k + 3]? = some (sourceByte s (4 * k + channelPlace s.cfg.pix8888Order.at3))

/-- Rules R134 (a), R303: packing what was unpacked gives the source bytes back, for each layout, every channel order and
every admissible downward bias (which biases are is the model's reading, log 6). -/
def Obligations.PackingWhatWasUnpackedIsLossless : Prop :=
  ∀ (s t : State) (dst cap : Word) (unpack pack : Instr),
    (unpack, pack) ∈ [(Instr.pxdP4444, Instr.pxeP4444), (.pxdP1555, .pxeP1555), (.pxdP8888, .pxeP8888)] →
    s.cfg.Wf → exec unpack s = .next t → t.errCode = 0 → RegionsOk (takeResult dst cap t) → s.srcLen.toNat ≤ cap.toNat →
    ∃ u, exec pack (takeResult dst cap t) = .next u ∧
      SuccessEnd (readSource s) 0 0 false (takeResult dst cap t) u

/-! ### Block-compression adapter (42_block_adapter.md) -/

/-- `BCD` (rule R146): the checks in their order, then the block codec's image of `4*w*h` bytes. -/
def Obligations.BlockDecompressEnds : Prop :=
  ∀ (s : State) (i : Instr) (fmt : BlockFormat), (i, fmt) ∈ bcdCommands → RegionsOk s →
    let w := s.width.toNat
    let h := s.height.toNat
    (bcVariant s.cfg fmt = none → ∃ t, exec i s = .next t ∧ ErrorEnd 12 0 0 s t) ∧
    ∀ v, bcVariant s.cfg fmt = some v →
      let csize := if v = .va then w * h / 2 else w * h
      if w % 4 ≠ 0 ∨ h % 4 ≠ 0 ∨ s.srcLen.toNat ≠ csize then ∃ t, exec i s = .next t ∧ ErrorEnd 9 0 0 s t
      else if 2 ^ 32 ≤ 4 * w * h then ∃ t, exec i s = .next t ∧ ErrorEnd 4 0 0 s t
      else if s.dstCap.toNat < 4 * w * h then ∃ t, exec i s = .next t ∧ ErrorEnd 11 0 0 s t
      else ∃ t out, exec i s = .next t ∧ SuccessEnd out 0 0 false s t ∧
        out = bcDec s.cfg v w h (readSource s) ∧ out.length = 4 * w * h

/-- `BCE` (rules R148, R149): the checks in their order, then the block codec's `csize` bytes. -/
def Obligations.BlockCompressEnds : Prop :=
  ∀ (s : State) (i : Instr) (fmt : BlockFormat), (i, fmt) ∈ bceCommands → RegionsOk s →
    let w := s.width.toNat
    let h := s.height.toNat
    let good := ∃ j k, 2 ≤ j ∧ 2 ≤ k ∧ w = 2 ^ j ∧ h = 2 ^ k
    (bcVariant s.cfg fmt = none → ∃ t, exec i s = .next t ∧ ErrorEnd 12 0 0 s t) ∧
    ∀ v, bcVariant s.cfg fmt = some v →
      let csize := if v = .va then w * h / 2 else w * h
      (¬ good → ∃ t, exec i s = .next t ∧ ErrorEnd 6 0 0 s t) ∧
      (good →
        if s.srcLen.toNat ≠ 4 * w * h then ∃ t, exec i s = .next t ∧ ErrorEnd 5 0 0 s t
        else if s.dstCap.toNat < csize then ∃ t, exec i s = .next t ∧ ErrorEnd 11 0 0 s t
        else ∃ t out, exec i s = .next t ∧ SuccessEnd out 0 0 false s t ∧
          out = bcEnc v w h (readSource s) ∧ out.length = csize)

/-- The two blocks that vector V-BC fixes for the usual layout of rule R150, whatever the rounding: black, and
transparent. That a colour field of 0 expands to 0 is read from the vector (log 8). -/
def Obligations.UsualLayoutFixedBlocks : Prop :=
  ∀ c : Config, c.bcDec = .usual →
    bcDec c .va 4 4 [0, 0, 0, 0, 0, 0, 0, 0] = (List.replicate 16 [0, 0, 0, 0xFF]).flatten ∧
    bcDec c .va 4 4 [0, 0, 0, 0, 0xFF, 0xFF, 0xFF, 0xFF] = List.replicate 64 0

/-! ### Run-length codec (43_rle.md) -/

/-- Rules R160 and R162: on a source that is a sequence of packets, `RLD` writes the concatenation of what the packets
emit, if it fits. -/
def Obligations.RldRunsThePackets : Prop :=
  ∀ (s : State) (packets : List Packet), RegionsOk s → (∀ p ∈ packets, p.wellFormed = true) →
    readSource s = packets.flatMap encodePacket →
    let out := packets.flatMap packetOutput
    if s.dstCap.toNat < out.length then ∃ t, exec .rld s = .next t ∧ ErrorEnd 11 0 0 s t
    else ∃ t, exec .rld s = .next t ∧ SuccessEnd out 0 0 false s t

/-- Rules R162 and R164: on a source that ends inside a packet, `RLD` ends in `ERR_RLE_TRUNCATED` with the offset of that
packet's flag byte, whatever `DSTCAP` is. -/
def Obligations.RldReportsTheTruncatedPacket : Prop :=
  ∀ (s : State) (packets : List Packet) (tail : List Byte), RegionsOk s →
    (∀ p ∈ packets, p.wellFormed = true) → TruncatedPacket tail →
    readSource s = packets.flatMap encodePacket ++ tail →
    ∃ t, exec .rld s = .next t ∧ ErrorEnd 7 (BitVec.ofNat 32 (packets.flatMap encodePacket).length) 0 s t

/-- Rules R80, R84 and R164: every byte sequence is a sequence of packets, or one followed by a truncated packet. -/
def Obligations.EveryStreamIsPacketsOrTruncated : Prop :=
  ∀ src : List Byte, ∃ packets : List Packet, (∀ p ∈ packets, p.wellFormed = true) ∧
    (src = packets.flatMap encodePacket ∨ ∃ tail, TruncatedPacket tail ∧ src = packets.flatMap encodePacket ++ tail)

/-- Rule R163: the byte-serial machine and the decoder of rule R162 give the same result for every source. -/
def Obligations.SerialMachineAgreesWithDecoder : Prop :=
  ∀ src : List Byte, decodeRleSerial src = decodeRle src

/-- Rule R167: (a) every encoder the model may have decodes back; (b, c) the canonical one is a sequence of packets with
counts of at most 128, no literal with three equal bytes in a row and no repeat below 3 (rule R168). -/
def Obligations.RleEncoderIsAdmissible : Prop :=
  (∀ (c : Config) (x : List Byte), decodeRle (rleEncode c x) = .ok x) ∧
  (∀ x : List Byte, ∃ packets : List Packet, (∀ p ∈ packets, p.wellFormed = true) ∧
    rleCanonical x = packets.flatMap encodePacket ∧ (∀ n b, Packet.rep n b ∈ packets → 2 ≤ n.toNat) ∧
    ∀ bytes, Packet.lit bytes ∈ packets → ∀ k, k + 2 < bytes.length →
      ¬ (bytes[k]? = bytes[k + 1]? ∧ bytes[k + 1]? = bytes[k + 2]?))

/-- `RLE` (rule R166): it accepts every byte sequence, and fails only where the stream does not fit. -/
def Obligations.RleEnds : Prop :=
  ∀ s : State, RegionsOk s →
    let out := rleEncode s.cfg (readSource s)
    if s.dstCap.toNat < out.length then ∃ t, exec .rle s = .next t ∧ ErrorEnd 11 0 0 s t
    else ∃ t, exec .rle s = .next t ∧ SuccessEnd out 0 0 false s t

/-- Rules R167 (a), R303: `RLD` on the result of `RLE` gives the plain bytes back, for every encoder the model may
have. -/
def Obligations.RldAfterRleIsLossless : Prop :=
  ∀ (s t : State) (dst cap : Word), exec .rle s = .next t → t.errCode = 0 → RegionsOk (takeResult dst cap t) →
    s.srcLen.toNat ≤ cap.toNat →
    ∃ u, exec .rld (takeResult dst cap t) = .next u ∧
      SuccessEnd (readSource s) 0 0 false (takeResult dst cap t) u

/-- Rule R169: the sizes of the canonical encoder's streams and of the decoder's outputs. -/
def Obligations.RunLengthSizeBounds : Prop :=
  (∀ x : List Byte, (rleCanonical x).length ≤ x.length + x.length / 128 + 1) ∧
  (∀ src out : List Byte, decodeRle src = .ok out → out.length ≤ 64 * src.length)

/-- `REP n, b` (rule R161): on a run-length stream at a flag byte it appends the byte `n` times, `n` the field plus 1, and
moves `sp` by 2; nothing else changes. Anywhere else it is refused (the model's choice, log 12). -/
def Obligations.RepAppendsItsByte : Prop :=
  ∀ (n : BitVec 7) (b : Byte) (s : State),
    (∀ st : RldStream, s.stream = some (.rld st) → st.mode = .flag →
      exec (.rep n b) s = .next { s with stream := some (.rld { st with
        fsp := st.sp, out := st.out ++ List.replicate (n.toNat + 1) b, sp := st.sp + 2 }) }) ∧
    ((¬ ∃ st : RldStream, s.stream = some (.rld st) ∧ st.mode = .flag) →
      exec (.rep n b) s = .refused .packetOutsideStream)

/-- `LIT` (rule R165): on a run-length stream at a flag byte it appends its bytes and moves `sp` past the flag and them;
nothing else changes. Anywhere else it is refused (the model's choice, log 12). -/
def Obligations.LitCopiesItsBytes : Prop :=
  ∀ (bytes : List Byte) (s : State),
    (∀ st : RldStream, s.stream = some (.rld st) → st.mode = .flag →
      exec (.lit bytes) s = .next { s with stream := some (.rld { st with
        fsp := st.sp, out := st.out ++ bytes, sp := st.sp + 1 + bytes.length }) }) ∧
    ((¬ ∃ st : RldStream, s.stream = some (.rld st) ∧ st.mode = .flag) →
      exec (.lit bytes) s = .refused .packetOutsideStream)

/-- Rules R28, R107 and R160: stepping packet by packet from the state inside an `RLD` that has passed the region checks
ends in the very state in which the atomic command ends. -/
def Obligations.SteppingThePacketsIsRld : Prop :=
  ∀ s : State, RegionsOk s → ∃ k, Host.Core.run Sys2Proof.core k (openRld s) = exec .rld s

/-! ### Dictionary codec (44_lz_dictionary.md) -/

/-- `LZD` (rules R184, R185), for every token format: the token stream's error, the trailer's errors, a fatal mismatch in
strict mode, or the output with both checksums reported and the mismatch flagged. That an abstract format's error value is
taken modulo `2^32` is the model's choice (log 20). -/
def Obligations.LzdEnds : Prop :=
  ∀ s : State, RegionsOk s →
    (∀ at', lzDecodeTokens s.cfg (readSource s) s.dstCap.toNat = .error at' →
      ∃ t, exec .lzd s = .next t ∧ ErrorEnd 8 (BitVec.ofNat 32 at') 0 s t) ∧
    (∀ out used, lzDecodeTokens s.cfg (readSource s) s.dstCap.toNat = .ok (out, used) →
      let left := s.srcLen.toNat - used
      if left < 4 ∨ (4 < left ∧ s.cfg.lzTrailing = .error) then
        ∃ t, exec .lzd s = .next t ∧ ErrorEnd 8 (BitVec.ofNat 32 used) 0 s t
      else
        let stored := BitVec.ofNat 32 ((sourceByte s used).toNat + 2 ^ 8 * (sourceByte s (used + 1)).toNat +
          2 ^ 16 * (sourceByte s (used + 2)).toNat + 2 ^ 24 * (sourceByte s (used + 3)).toNat)
        let computed := checksum s.cfg.csumExt out
        if computed ≠ stored ∧ s.ctrl.getLsbD 0 = true then
          ∃ t, exec .lzd s = .next t ∧ ErrorEnd 10 stored computed s t
        else ∃ t, exec .lzd s = .next t ∧ SuccessEnd out computed stored (computed != stored) s t)

/-- `LZE` (rules R183, R191): the token stream followed by the checksum's four little-endian bytes, with the checksum in
`RAUX`, if it fits. -/
def Obligations.LzeEnds : Prop :=
  ∀ s : State, RegionsOk s →
    let sum := checksum s.cfg.csumExt (readSource s)
    let out := lzEncode s.cfg (readSource s) ++ [BitVec.ofNat 8 sum.toNat, BitVec.ofNat 8 (sum.toNat / 2 ^ 8),
      BitVec.ofNat 8 (sum.toNat / 2 ^ 16), BitVec.ofNat 8 (sum.toNat / 2 ^ 24)]
    if s.dstCap.toNat < out.length then ∃ t, exec .lze s = .next t ∧ ErrorEnd 11 0 0 s t
    else ∃ t, exec .lze s = .next t ∧ SuccessEnd out sum 0 false s t

/-- Rule R183: the checksum is the sum of the bytes modulo `2^32`, each read as unsigned or, under sign extension, as
signed. -/
def Obligations.ChecksumIsTheSumOfTheBytes : Prop :=
  ∀ x : List Byte, checksum .zero x = BitVec.ofNat 32 (x.map BitVec.toNat).sum ∧
    checksum .sign x = BitVec.ofInt 32 (x.map BitVec.toInt).sum

/-- Rule R197, for every token format: a decoded output has the expected length, the bytes used are bytes of the source,
and no byte at or after them matters. -/
def Obligations.TokenDecoderMeetsItsContract : Prop :=
  ∀ (c : Config) (src : List Byte) (n : Nat) (out : List Byte) (used : Nat),
    lzDecodeTokens c src n = .ok (out, used) →
    out.length = n ∧ used ≤ src.length ∧
      ∀ src' : List Byte, used ≤ src'.length → src'.take used = src.take used →
        lzDecodeTokens c src' n = .ok (out, used)

/-- Rule R192, for every token format and every encoder: the token stream of the encoder decodes to the plain bytes and is
used exactly; so `LZD` on the result of `LZE`, with `DSTCAP` the length of the plain bytes, gives them back with no mismatch,
in lenient and in strict mode. -/
def Obligations.LzdAfterLzeIsLossless : Prop :=
  (∀ (c : Config) (x : List Byte), lzDecodeTokens c (lzEncode c x) x.length = .ok (x, (lzEncode c x).length)) ∧
  (∀ (s t : State) (dst ctrl : Word), exec .lze s = .next t → t.errCode = 0 →
    let u : State := { takeResult dst s.srcLen t with ctrl := ctrl }
    RegionsOk u →
    ∃ v, exec .lzd u = .next v ∧ SuccessEnd (readSource s) t.rAux t.rAux false u v)

/-- Rules R186 to R189: tokens laid out in groups of eight decode in order, each pointer with a distance that is not 0
copying from the output so far, and nothing after them is used. -/
def Obligations.TokensDecodeInOrder : Prop :=
  ∀ (c : Config) (tokens : List Token) (tail : List Byte), c.lzFormat = .lzss →
    (∀ dist len, Token.p dist len ∈ tokens → dist ≠ 0) →
    let stream := emitGroups tokens.length tokens
    let out := tokensOutput tokens []
    lzDecodeTokens c (stream ++ tail) out.length = .ok (out, stream.length)

/-- `L b` (rule R188): where the group's flag announces a literal and output is still due, it appends the byte; nothing
else but the cursor and the bit index changes. Anywhere else it is refused (the model's choice, log 12). -/
def Obligations.LiteralTokenAppendsItsByte : Prop :=
  ∀ (b : Byte) (s : State),
    (∀ st : LzdStream, s.stream = some (.lzd st) → st.bit < 8 → st.flag.getLsbD st.bit = true →
      st.out.length < s.dstCap.toNat →
      exec (.l b) s = .next { s with stream := some (.lzd { st with
        out := st.out ++ [b], sp := st.sp + 1, bit := st.bit + 1 }) }) ∧
    ((¬ ∃ st : LzdStream, s.stream = some (.lzd st) ∧ st.bit < 8 ∧ st.flag.getLsbD st.bit = true ∧
        st.out.length < s.dstCap.toNat) →
      exec (.l b) s = .refused .tokenOutsideStream)

/-- `P d, l` (rules R189, R190): where the group's flag announces a pointer and output is still due, a distance of 0 and,
unless overshoot is truncated, a length past the expected one end the command in `ERR_LZ_STREAM` with the flag's offset;
otherwise the copied bytes are appended, byte by byte from `d` back, 0x20 before the start. Anywhere else it is refused
(the model's choice, log 12). -/
def Obligations.PointerTokenCopiesFromTheOutput : Prop :=
  ∀ (dist : BitVec 12) (len : BitVec 4) (s : State),
    (∀ st : LzdStream, s.stream = some (.lzd st) → st.bit < 8 → st.flag.getLsbD st.bit = false →
      st.out.length < s.dstCap.toNat →
      let length := len.toNat + 3
      if dist = 0 ∨ (s.dstCap.toNat < st.out.length + length ∧ s.cfg.lzOvershoot = .error) then
        ∃ t, exec (.p dist len) s = .next t ∧ ErrorEnd 8 (BitVec.ofNat 32 st.fsp) 0 s t
      else ∃ new : List Byte,
        exec (.p dist len) s = .next { s with stream := some (.lzd { st with
          out := st.out ++ new, sp := st.sp + 2, bit := st.bit + 1 }) } ∧
        new.length = min length (s.dstCap.toNat - st.out.length) ∧
        ∀ j < new.length, new[j]? =
          if st.out.length + j < dist.toNat then some 0x20 else (st.out ++ new)[st.out.length + j - dist.toNat]?) ∧
    ((¬ ∃ st : LzdStream, s.stream = some (.lzd st) ∧ st.bit < 8 ∧ st.flag.getLsbD st.bit = false ∧
        st.out.length < s.dstCap.toNat) →
      exec (.p dist len) s = .refused .tokenOutsideStream)

/-- Rules R28, R107 and R187: stepping token by token from the state inside an `LZD` of the default format that has passed
the region checks ends in the very state in which the atomic command ends. -/
def Obligations.SteppingTheTokensIsLzd : Prop :=
  ∀ s : State, s.cfg.lzFormat = .lzss → RegionsOk s → ∃ k, Host.Core.run Sys2Proof.core k (openLzd s) = exec .lzd s

/-- Rule R193, its last sentence: the default encoder's token stream is at most one flag byte per eight plain bytes
longer than they are. -/
def Obligations.DictionarySizeBound : Prop :=
  ∀ x : List Byte, (lzssEncode x).length ≤ x.length + (x.length + 7) / 8
end

