-- ==== Sys2Proof/Laws/Codec.lean ====
section
/-! SUPPORT. The shared operations of the codecs, each said once: packets and tokens at the head of a stream, the copy of
a pointer, the two scalings of the pixel converter, little-endian words, and the lengths of the block codec's results. -/

namespace Sys2Proof.Machine

theorem repFlag_field : ∀ n : BitVec 7, (1#1 ++ n : BitVec 8).getLsbD 7 = true ∧ (1#1 ++ n : BitVec 8).extractLsb' 0 7 = n := by
  decide +kernel

theorem nibbles_back : ∀ high low : BitVec 4,
    (high ++ low : BitVec 8).extractLsb' 4 4 = high ∧ (high ++ low : BitVec 8).extractLsb' 0 4 = low := by
  decide +kernel

theorem distance_parts : ∀ dist : BitVec 12, (dist.extractLsb' 8 4 ++ dist.extractLsb' 0 8 : BitVec 12) = dist := by
  decide +kernel

/-- A well-formed packet at the head of a stream is read back, and the bytes after it are left. -/
theorem decodePacket_encodePacket (packet : Packet) (rest : List Byte) (h : packet.wellFormed = true) :
    decodePacket (encodePacket packet ++ rest) = .ok (packet, rest) := by
  cases packet with
  | rep n b =>
    obtain ⟨h7, hn⟩ := repFlag_field n
    simp only [encodePacket, List.cons_append, List.nil_append, decodePacket, h7, ↓reduceIte, hn]
  | lit bytes =>
    simp only [Packet.wellFormed, litCountOk, Bool.and_eq_true, decide_eq_true_eq] at h
    obtain ⟨h1, h2⟩ := h
    have hv : (BitVec.ofNat 8 (bytes.length - 1)).toNat = bytes.length - 1 := by
      rw [BitVec.toNat_ofNat]; omega
    have h7 : (BitVec.ofNat 8 (bytes.length - 1)).getLsbD 7 = false := by
      rw [BitVec.getLsbD, hv]
      exact Nat.testBit_lt_two_pow (by omega)
    have hn : ((BitVec.ofNat 8 (bytes.length - 1)).extractLsb' 0 7).toNat + 1 = bytes.length := by
      rw [BitVec.extractLsb'_toNat, hv]; simp; omega
    simp only [encodePacket, List.cons_append, decodePacket, h7, Bool.false_eq_true, ↓reduceIte, hn,
      List.length_append, List.take_left, List.drop_left]
    simp

/-- What a decoded packet is: two bytes or more of the stream, and the rest of it. -/
theorem decodePacket_ok {bytes more : List Byte} {packet : Packet} (h : decodePacket bytes = .ok (packet, more)) :
    more.length + (match packet with
      | .rep _ _ => 2
      | .lit literal => 1 + literal.length) = bytes.length ∧ more <:+ bytes ∧ packet.wellFormed = true := by
  cases bytes with
  | nil => simp [decodePacket] at h
  | cons flag rest =>
    have hn := (flag.extractLsb' 0 7).isLt
    generalize hk : (flag.extractLsb' 0 7).toNat = n at hn
    simp only [decodePacket, hk] at h
    by_cases hb : flag.getLsbD 7 = true
    · rw [if_pos hb] at h
      cases rest with
      | nil => simp at h
      | cons b tail =>
        simp only [Except.ok.injEq, Prod.mk.injEq] at h
        obtain ⟨rfl, rfl⟩ := h
        exact ⟨rfl, (List.suffix_cons b tail).trans (List.suffix_cons flag _), rfl⟩
    · rw [if_neg hb] at h
      by_cases hl : rest.length < n + 1
      · rw [if_pos hl] at h
        cases h
      · rw [if_neg hl] at h
        simp only [Except.ok.injEq, Prod.mk.injEq] at h
        obtain ⟨rfl, rfl⟩ := h
        refine ⟨?_, (List.drop_suffix _ rest).trans (List.suffix_cons flag rest), ?_⟩
        · simp only [List.length_drop, List.length_take, List.length_cons]
          omega
        · simp only [Packet.wellFormed, litCountOk, List.length_take, Bool.and_eq_true, decide_eq_true_eq]
          omega

/-- A token at the head of a group's body is read back, and the bytes after it are left. -/
theorem decodeToken_encodeToken (token : Token) (rest : List Byte) :
    decodeToken token.isLiteral (encodeToken token ++ rest) = .ok (token, rest) := by
  cases token with
  | l b => simp [Token.isLiteral, encodeToken, decodeToken]
  | p dist len =>
    obtain ⟨h1, h2⟩ := nibbles_back (dist.extractLsb' 8 4) len
    simp only [Token.isLiteral, encodeToken, List.cons_append, List.nil_append, decodeToken, Bool.false_eq_true,
      ↓reduceIte, h1, h2, distance_parts]

/-- The copy appends its bytes to the output so far. -/
theorem copyBack_length (dist count : Nat) (out : List Byte) : (copyBack dist count out).length = out.length + count := by
  induction count generalizing out with
  | zero => rfl
  | succ k ih => simp only [copyBack, ih, List.length_append, List.length_cons, List.length_nil]; omega

theorem copyBack_extends (dist count : Nat) (out : List Byte) : out <+: copyBack dist count out := by
  induction count generalizing out with
  | zero => exact List.prefix_refl out
  | succ k ih => exact (List.prefix_append out _).trans (ih _)

/-- The upward scaling stays below 256 (rule R132). -/
theorem up_lt (v n : Nat) (hn : 0 < n) (hv : v < 2 ^ n) : up v n < 256 := by
  have h2 : 2 ^ 1 ≤ 2 ^ n := Nat.pow_le_pow_right (by decide) hn
  unfold up
  rw [Nat.div_lt_iff_lt_mul (by omega)]
  have : v * 255 ≤ (2 ^ n - 1) * 255 := Nat.mul_le_mul_right _ (by omega)
  omega

/-- The downward scaling stays inside its field (rule R133). -/
theorem down_lt (bias : DownBias) (v n : Nat) (hb : downBias bias n < 255) (hv : v < 256) : down bias v n < 2 ^ n := by
  have h1 : 1 ≤ 2 ^ n := Nat.one_le_two_pow
  unfold down
  rw [Nat.div_lt_iff_lt_mul (by decide)]
  have : v * (2 ^ n - 1) ≤ 255 * (2 ^ n - 1) := Nat.mul_le_mul_right _ (by omega)
  omega

/-- A bit-field is below its range. -/
theorem bitField_lt (v lo width : Nat) : bitField v lo width < 2 ^ width := Nat.mod_lt _ (Nat.two_pow_pos width)

/-- Writing a word little-endian and reading it gives the word back (rule R11). -/
theorem le32_bytesLe32 (v : Word) : le32 (bytesLe32 v) = v := by
  have h : leNat (bytesLe32 v) = v.toNat := by
    simp only [bytesLe32, leNat, BitVec.extractLsb'_toNat, Nat.shiftRight_eq_div_pow]
    have := v.isLt
    omega
  have ht : (bytesLe32 v).take 4 = bytesLe32 v := rfl
  rw [le32, ht, h]
  simp

theorem bytesLe32_length (v : Word) : (bytesLe32 v).length = 4 := rfl

/-- Rule R143: the decompressed image has `4*w*h` bytes. -/
theorem bcDec_length (c : Config) (v : BcVariant) (w h : Nat) (comp : List Byte) :
    (bcDec c v w h comp).length = 4 * w * h := by
  unfold bcDec
  cases c.bcDec <;> simp

/-- Rule R144: the compressed image has `csize` bytes. -/
theorem bcEnc_length (v : BcVariant) (w h : Nat) (rgba : List Byte) :
    (bcEnc v w h rgba).length = compressedSize v w h := by
  simp [bcEnc]

/-- An admissible run-length stream decodes to its plain bytes (rule R167 (a)). -/
theorem decodeRle_of_rleAdmissible {x e : List Byte} (h : rleAdmissible x e = true) : decodeRle e = .ok x := by
  simp only [rleAdmissible, Bool.and_eq_true, beq_iff_eq] at h
  exact h.1

/-- The encoder is the canonical one, or gives an admissible stream (rules R167, R168). -/
theorem rleEncode_cases (c : Config) (x : List Byte) :
    rleEncode c x = rleCanonical x ∨ rleAdmissible x (rleEncode c x) = true := by
  unfold rleEncode
  cases c.rleEnc with
  | default => exact .inl rfl
  | other =>
    by_cases h : rleAdmissible x (Free.rleEnc x) = true
    · exact .inr (by simp [h])
    · exact .inl (by simp [h])

/-- Every byte sequence is one of those of its length. -/
theorem mem_sequencesOf (x : List Byte) : x ∈ sequencesOf x.length := by
  induction x with
  | nil => simp [sequencesOf]
  | cons b rest ih =>
    simp only [List.length_cons, sequencesOf, List.mem_flatMap, List.mem_map, List.mem_range]
    exact ⟨rest, ih, b.toNat, b.isLt, by simp⟩

/-- Where the free format is admissible, its decoder gives back what its encoder was given (rule R192). -/
theorem freeDecode_lzFormatEncode (x : List Byte) (h : formatAdmissible x.length = true) :
    freeDecode (Free.lzFormatEncode x) x.length = .ok (x, (Free.lzFormatEncode x).length) := by
  simp only [formatAdmissible, List.all_eq_true, beq_iff_eq] at h
  exact h x (mem_sequencesOf x)

/-- The encoder is the default one, or its token stream decodes to the plain bytes and is used exactly (rules R192,
R193). With the default one the decoder is that of the default format. -/
theorem lzEncode_cases (c : Config) (x : List Byte) :
    (lzEncode c x = lzssEncode x ∧ ∀ src, lzDecodeTokens c src x.length = lzssDecode c src x.length) ∨
    lzDecodeTokens c (lzEncode c x) x.length = .ok (x, (lzEncode c x).length) := by
  cases hf : c.lzFormat with
  | lzss =>
    cases he : c.lzEnc with
    | default => exact .inl ⟨by simp [lzEncode, hf, he], fun _ => by simp [lzDecodeTokens, hf]⟩
    | other =>
      by_cases h : lzAdmissible c x (Free.lzEnc x) = true
      · have hx : lzEncode c x = Free.lzEnc x := by simp [lzEncode, hf, he, h]
        exact .inr (by simpa [hx, lzAdmissible] using h)
      · exact .inl ⟨by simp [lzEncode, hf, he, h], fun _ => by simp [lzDecodeTokens, hf]⟩
  | other =>
    by_cases h : formatAdmissible x.length = true
    · exact .inr (by simpa [lzEncode, lzDecodeTokens, otherEncode, otherDecode, hf, h] using
        freeDecode_lzFormatEncode x h)
    · exact .inl ⟨by simp [lzEncode, otherEncode, hf, h], fun _ => by simp [lzDecodeTokens, otherDecode, hf, h]⟩

/-- The free format's decoder meets rule R197: the output has the expected length, the used bytes are bytes of the
source, and they alone are a whole stream. -/
theorem freeDecode_ok {src out : List Byte} {n used : Nat} (h : freeDecode src n = .ok (out, used)) :
    out.length = n ∧ used ≤ src.length ∧ Free.lzFormatDecode (src.take used) n = some out := by
  unfold freeDecode at h
  dsimp only at h
  split at h
  · next r hr =>
    obtain ⟨k, hk, hv⟩ := List.exists_of_findSome?_eq_some hr
    have hlt := List.mem_range.1 hk
    split at hv
    · next o ho =>
      split at hv
      · next hl =>
        simp only [Option.some.injEq] at hv
        simp only [Except.ok.injEq] at h
        subst hv
        cases h
        exact ⟨hl, by omega, ho⟩
      · cases hv
    · cases hv
  · cases h

end Sys2Proof.Machine
end

