-- ==== Sys2Proof/Laws/State.lean ====
section
/-! SUPPORT. One lemma per field for each update of the state, so that no proof unfolds a record update. -/

namespace Sys2Proof.Machine

@[simp] theorem beginCommand_src (w : Word) (s : State) :
    (beginCommand w s).src = s.src := rfl
@[simp] theorem beginCommand_srcLen (w : Word) (s : State) :
    (beginCommand w s).srcLen = s.srcLen := rfl
@[simp] theorem beginCommand_dst (w : Word) (s : State) :
    (beginCommand w s).dst = s.dst := rfl
@[simp] theorem beginCommand_dstCap (w : Word) (s : State) :
    (beginCommand w s).dstCap = s.dstCap := rfl
@[simp] theorem beginCommand_width (w : Word) (s : State) :
    (beginCommand w s).width = s.width := rfl
@[simp] theorem beginCommand_height (w : Word) (s : State) :
    (beginCommand w s).height = s.height := rfl
@[simp] theorem beginCommand_rLen (w : Word) (s : State) :
    (beginCommand w s).rLen = s.rLen := rfl
@[simp] theorem beginCommand_rAux (w : Word) (s : State) :
    (beginCommand w s).rAux = s.rAux := rfl
@[simp] theorem beginCommand_cmd (w : Word) (s : State) :
    (beginCommand w s).cmd = w := rfl
@[simp] theorem beginCommand_ctrl (w : Word) (s : State) :
    (beginCommand w s).ctrl = s.ctrl := rfl
@[simp] theorem beginCommand_status (w : Word) (s : State) :
    (beginCommand w s).status = 0 := rfl
@[simp] theorem beginCommand_errCode (w : Word) (s : State) :
    (beginCommand w s).errCode = s.errCode := rfl
@[simp] theorem beginCommand_errInfo (w : Word) (s : State) :
    (beginCommand w s).errInfo = s.errInfo := rfl
@[simp] theorem beginCommand_cSums (w : Word) (s : State) :
    (beginCommand w s).cSums = s.cSums := rfl
@[simp] theorem beginCommand_mem (w : Word) (s : State) :
    (beginCommand w s).mem = s.mem := rfl
@[simp] theorem beginCommand_stream (w : Word) (s : State) :
    (beginCommand w s).stream = s.stream := rfl
@[simp] theorem beginCommand_cfg (w : Word) (s : State) :
    (beginCommand w s).cfg = s.cfg := rfl
@[simp] theorem beginCommand_host (w : Word) (s : State) :
    (beginCommand w s).host = s.host := rfl
@[simp] theorem beginCommand_seen (w : Word) (s : State) :
    (beginCommand w s).seen = s.seen := rfl
@[simp] theorem beginCommand_epoch (w : Word) (s : State) :
    (beginCommand w s).epoch = s.epoch := rfl

@[simp] theorem raise_src (code : ErrCode) (info computed : Word) (s : State) :
    (raise code info computed s).src = s.src := rfl
@[simp] theorem raise_srcLen (code : ErrCode) (info computed : Word) (s : State) :
    (raise code info computed s).srcLen = s.srcLen := rfl
@[simp] theorem raise_dst (code : ErrCode) (info computed : Word) (s : State) :
    (raise code info computed s).dst = s.dst := rfl
@[simp] theorem raise_dstCap (code : ErrCode) (info computed : Word) (s : State) :
    (raise code info computed s).dstCap = s.dstCap := rfl
@[simp] theorem raise_width (code : ErrCode) (info computed : Word) (s : State) :
    (raise code info computed s).width = s.width := rfl
@[simp] theorem raise_height (code : ErrCode) (info computed : Word) (s : State) :
    (raise code info computed s).height = s.height := rfl
@[simp] theorem raise_rLen (code : ErrCode) (info computed : Word) (s : State) :
    (raise code info computed s).rLen = 0 := rfl
@[simp] theorem raise_rAux (code : ErrCode) (info computed : Word) (s : State) :
    (raise code info computed s).rAux = if code = .checksum then computed else 0 := rfl
@[simp] theorem raise_cmd (code : ErrCode) (info computed : Word) (s : State) :
    (raise code info computed s).cmd = s.cmd := rfl
@[simp] theorem raise_ctrl (code : ErrCode) (info computed : Word) (s : State) :
    (raise code info computed s).ctrl = s.ctrl := rfl
@[simp] theorem raise_status (code : ErrCode) (info computed : Word) (s : State) :
    (raise code info computed s).status = errorStatus code := rfl
@[simp] theorem raise_errCode (code : ErrCode) (info computed : Word) (s : State) :
    (raise code info computed s).errCode = errNumber code := rfl
@[simp] theorem raise_errInfo (code : ErrCode) (info computed : Word) (s : State) :
    (raise code info computed s).errInfo = info := rfl
@[simp] theorem raise_cSums (code : ErrCode) (info computed : Word) (s : State) :
    (raise code info computed s).cSums = if code = .checksum then info else 0 := rfl
@[simp] theorem raise_mem (code : ErrCode) (info computed : Word) (s : State) :
    (raise code info computed s).mem = s.mem := rfl
@[simp] theorem raise_stream (code : ErrCode) (info computed : Word) (s : State) :
    (raise code info computed s).stream = none := rfl
@[simp] theorem raise_cfg (code : ErrCode) (info computed : Word) (s : State) :
    (raise code info computed s).cfg = s.cfg := rfl
@[simp] theorem raise_host (code : ErrCode) (info computed : Word) (s : State) :
    (raise code info computed s).host = s.host := rfl
@[simp] theorem raise_seen (code : ErrCode) (info computed : Word) (s : State) :
    (raise code info computed s).seen = s.seen := rfl
@[simp] theorem raise_epoch (code : ErrCode) (info computed : Word) (s : State) :
    (raise code info computed s).epoch = s.epoch := rfl

@[simp] theorem succeed_src (out : List Byte) (aux stored : Word) (mismatch : Bool) (s : State) :
    (succeed out aux stored mismatch s).src = s.src := rfl
@[simp] theorem succeed_srcLen (out : List Byte) (aux stored : Word) (mismatch : Bool) (s : State) :
    (succeed out aux stored mismatch s).srcLen = s.srcLen := rfl
@[simp] theorem succeed_dst (out : List Byte) (aux stored : Word) (mismatch : Bool) (s : State) :
    (succeed out aux stored mismatch s).dst = s.dst := rfl
@[simp] theorem succeed_dstCap (out : List Byte) (aux stored : Word) (mismatch : Bool) (s : State) :
    (succeed out aux stored mismatch s).dstCap = s.dstCap := rfl
@[simp] theorem succeed_width (out : List Byte) (aux stored : Word) (mismatch : Bool) (s : State) :
    (succeed out aux stored mismatch s).width = s.width := rfl
@[simp] theorem succeed_height (out : List Byte) (aux stored : Word) (mismatch : Bool) (s : State) :
    (succeed out aux stored mismatch s).height = s.height := rfl
@[simp] theorem succeed_rLen (out : List Byte) (aux stored : Word) (mismatch : Bool) (s : State) :
    (succeed out aux stored mismatch s).rLen = BitVec.ofNat 32 out.length := rfl
@[simp] theorem succeed_rAux (out : List Byte) (aux stored : Word) (mismatch : Bool) (s : State) :
    (succeed out aux stored mismatch s).rAux = aux := rfl
@[simp] theorem succeed_cmd (out : List Byte) (aux stored : Word) (mismatch : Bool) (s : State) :
    (succeed out aux stored mismatch s).cmd = s.cmd := rfl
@[simp] theorem succeed_ctrl (out : List Byte) (aux stored : Word) (mismatch : Bool) (s : State) :
    (succeed out aux stored mismatch s).ctrl = s.ctrl := rfl
@[simp] theorem succeed_status (out : List Byte) (aux stored : Word) (mismatch : Bool) (s : State) :
    (succeed out aux stored mismatch s).status = successStatus mismatch := rfl
@[simp] theorem succeed_errCode (out : List Byte) (aux stored : Word) (mismatch : Bool) (s : State) :
    (succeed out aux stored mismatch s).errCode = 0 := rfl
@[simp] theorem succeed_errInfo (out : List Byte) (aux stored : Word) (mismatch : Bool) (s : State) :
    (succeed out aux stored mismatch s).errInfo = 0 := rfl
@[simp] theorem succeed_cSums (out : List Byte) (aux stored : Word) (mismatch : Bool) (s : State) :
    (succeed out aux stored mismatch s).cSums = stored := rfl
@[simp] theorem succeed_mem (out : List Byte) (aux stored : Word) (mismatch : Bool) (s : State) :
    (succeed out aux stored mismatch s).mem = memWrite s.mem (dstAddr s) out := rfl
@[simp] theorem succeed_stream (out : List Byte) (aux stored : Word) (mismatch : Bool) (s : State) :
    (succeed out aux stored mismatch s).stream = none := rfl
@[simp] theorem succeed_cfg (out : List Byte) (aux stored : Word) (mismatch : Bool) (s : State) :
    (succeed out aux stored mismatch s).cfg = s.cfg := rfl
@[simp] theorem succeed_host (out : List Byte) (aux stored : Word) (mismatch : Bool) (s : State) :
    (succeed out aux stored mismatch s).host = s.host := rfl
@[simp] theorem succeed_seen (out : List Byte) (aux stored : Word) (mismatch : Bool) (s : State) :
    (succeed out aux stored mismatch s).seen = s.seen := rfl
@[simp] theorem succeed_epoch (out : List Byte) (aux stored : Word) (mismatch : Bool) (s : State) :
    (succeed out aux stored mismatch s).epoch = s.epoch := rfl

@[simp] theorem sizeEnd_src (p : Nat) (s : State) :
    (sizeEnd p s).src = s.src := rfl
@[simp] theorem sizeEnd_srcLen (p : Nat) (s : State) :
    (sizeEnd p s).srcLen = s.srcLen := rfl
@[simp] theorem sizeEnd_dst (p : Nat) (s : State) :
    (sizeEnd p s).dst = s.dst := rfl
@[simp] theorem sizeEnd_dstCap (p : Nat) (s : State) :
    (sizeEnd p s).dstCap = s.dstCap := rfl
@[simp] theorem sizeEnd_width (p : Nat) (s : State) :
    (sizeEnd p s).width = s.width := rfl
@[simp] theorem sizeEnd_height (p : Nat) (s : State) :
    (sizeEnd p s).height = s.height := rfl
@[simp] theorem sizeEnd_rLen (p : Nat) (s : State) :
    (sizeEnd p s).rLen = BitVec.ofNat 32 p := rfl
@[simp] theorem sizeEnd_rAux (p : Nat) (s : State) :
    (sizeEnd p s).rAux = 0 := rfl
@[simp] theorem sizeEnd_cmd (p : Nat) (s : State) :
    (sizeEnd p s).cmd = s.cmd := rfl
@[simp] theorem sizeEnd_ctrl (p : Nat) (s : State) :
    (sizeEnd p s).ctrl = s.ctrl := rfl
@[simp] theorem sizeEnd_status (p : Nat) (s : State) :
    (sizeEnd p s).status = successStatus false := rfl
@[simp] theorem sizeEnd_errCode (p : Nat) (s : State) :
    (sizeEnd p s).errCode = 0 := rfl
@[simp] theorem sizeEnd_errInfo (p : Nat) (s : State) :
    (sizeEnd p s).errInfo = 0 := rfl
@[simp] theorem sizeEnd_cSums (p : Nat) (s : State) :
    (sizeEnd p s).cSums = 0 := rfl
@[simp] theorem sizeEnd_mem (p : Nat) (s : State) :
    (sizeEnd p s).mem = s.mem := rfl
@[simp] theorem sizeEnd_stream (p : Nat) (s : State) :
    (sizeEnd p s).stream = none := rfl
@[simp] theorem sizeEnd_cfg (p : Nat) (s : State) :
    (sizeEnd p s).cfg = s.cfg := rfl
@[simp] theorem sizeEnd_host (p : Nat) (s : State) :
    (sizeEnd p s).host = s.host := rfl
@[simp] theorem sizeEnd_seen (p : Nat) (s : State) :
    (sizeEnd p s).seen = s.seen := rfl
@[simp] theorem sizeEnd_epoch (p : Nat) (s : State) :
    (sizeEnd p s).epoch = s.epoch := rfl

@[simp] theorem hostStore_src (addr : Word) (bytes : List Byte) (s : State) :
    (hostStore addr bytes s).src = s.src := rfl
@[simp] theorem hostStore_srcLen (addr : Word) (bytes : List Byte) (s : State) :
    (hostStore addr bytes s).srcLen = s.srcLen := rfl
@[simp] theorem hostStore_dst (addr : Word) (bytes : List Byte) (s : State) :
    (hostStore addr bytes s).dst = s.dst := rfl
@[simp] theorem hostStore_dstCap (addr : Word) (bytes : List Byte) (s : State) :
    (hostStore addr bytes s).dstCap = s.dstCap := rfl
@[simp] theorem hostStore_width (addr : Word) (bytes : List Byte) (s : State) :
    (hostStore addr bytes s).width = s.width := rfl
@[simp] theorem hostStore_height (addr : Word) (bytes : List Byte) (s : State) :
    (hostStore addr bytes s).height = s.height := rfl
@[simp] theorem hostStore_rLen (addr : Word) (bytes : List Byte) (s : State) :
    (hostStore addr bytes s).rLen = s.rLen := rfl
@[simp] theorem hostStore_rAux (addr : Word) (bytes : List Byte) (s : State) :
    (hostStore addr bytes s).rAux = s.rAux := rfl
@[simp] theorem hostStore_cmd (addr : Word) (bytes : List Byte) (s : State) :
    (hostStore addr bytes s).cmd = s.cmd := rfl
@[simp] theorem hostStore_ctrl (addr : Word) (bytes : List Byte) (s : State) :
    (hostStore addr bytes s).ctrl = s.ctrl := rfl
@[simp] theorem hostStore_status (addr : Word) (bytes : List Byte) (s : State) :
    (hostStore addr bytes s).status = s.status := rfl
@[simp] theorem hostStore_errCode (addr : Word) (bytes : List Byte) (s : State) :
    (hostStore addr bytes s).errCode = s.errCode := rfl
@[simp] theorem hostStore_errInfo (addr : Word) (bytes : List Byte) (s : State) :
    (hostStore addr bytes s).errInfo = s.errInfo := rfl
@[simp] theorem hostStore_cSums (addr : Word) (bytes : List Byte) (s : State) :
    (hostStore addr bytes s).cSums = s.cSums := rfl
@[simp] theorem hostStore_mem (addr : Word) (bytes : List Byte) (s : State) :
    (hostStore addr bytes s).mem = memWrite s.mem addr.toNat bytes := rfl
@[simp] theorem hostStore_stream (addr : Word) (bytes : List Byte) (s : State) :
    (hostStore addr bytes s).stream = s.stream := rfl
@[simp] theorem hostStore_cfg (addr : Word) (bytes : List Byte) (s : State) :
    (hostStore addr bytes s).cfg = s.cfg := rfl
@[simp] theorem hostStore_host (addr : Word) (bytes : List Byte) (s : State) :
    (hostStore addr bytes s).host = s.host := rfl
@[simp] theorem hostStore_seen (addr : Word) (bytes : List Byte) (s : State) :
    (hostStore addr bytes s).seen = s.seen := rfl
@[simp] theorem hostStore_epoch (addr : Word) (bytes : List Byte) (s : State) :
    (hostStore addr bytes s).epoch = s.epoch := rfl

@[simp] theorem sees_src (seen : HostSeen) (s : State) :
    (sees seen s).src = s.src := rfl
@[simp] theorem sees_srcLen (seen : HostSeen) (s : State) :
    (sees seen s).srcLen = s.srcLen := rfl
@[simp] theorem sees_dst (seen : HostSeen) (s : State) :
    (sees seen s).dst = s.dst := rfl
@[simp] theorem sees_dstCap (seen : HostSeen) (s : State) :
    (sees seen s).dstCap = s.dstCap := rfl
@[simp] theorem sees_width (seen : HostSeen) (s : State) :
    (sees seen s).width = s.width := rfl
@[simp] theorem sees_height (seen : HostSeen) (s : State) :
    (sees seen s).height = s.height := rfl
@[simp] theorem sees_rLen (seen : HostSeen) (s : State) :
    (sees seen s).rLen = s.rLen := rfl
@[simp] theorem sees_rAux (seen : HostSeen) (s : State) :
    (sees seen s).rAux = s.rAux := rfl
@[simp] theorem sees_cmd (seen : HostSeen) (s : State) :
    (sees seen s).cmd = s.cmd := rfl
@[simp] theorem sees_ctrl (seen : HostSeen) (s : State) :
    (sees seen s).ctrl = s.ctrl := rfl
@[simp] theorem sees_status (seen : HostSeen) (s : State) :
    (sees seen s).status = s.status := rfl
@[simp] theorem sees_errCode (seen : HostSeen) (s : State) :
    (sees seen s).errCode = s.errCode := rfl
@[simp] theorem sees_errInfo (seen : HostSeen) (s : State) :
    (sees seen s).errInfo = s.errInfo := rfl
@[simp] theorem sees_cSums (seen : HostSeen) (s : State) :
    (sees seen s).cSums = s.cSums := rfl
@[simp] theorem sees_mem (seen : HostSeen) (s : State) :
    (sees seen s).mem = s.mem := rfl
@[simp] theorem sees_stream (seen : HostSeen) (s : State) :
    (sees seen s).stream = s.stream := rfl
@[simp] theorem sees_cfg (seen : HostSeen) (s : State) :
    (sees seen s).cfg = s.cfg := rfl
@[simp] theorem sees_host (seen : HostSeen) (s : State) :
    (sees seen s).host = s.host := rfl
@[simp] theorem sees_seen (seen : HostSeen) (s : State) :
    (sees seen s).seen = seen := rfl
@[simp] theorem sees_epoch (seen : HostSeen) (s : State) :
    (sees seen s).epoch = s.epoch := rfl

@[simp] theorem resetEngine_src (s : State) :
    (resetEngine s).src = 0 := rfl
@[simp] theorem resetEngine_srcLen (s : State) :
    (resetEngine s).srcLen = 0 := rfl
@[simp] theorem resetEngine_dst (s : State) :
    (resetEngine s).dst = 0 := rfl
@[simp] theorem resetEngine_dstCap (s : State) :
    (resetEngine s).dstCap = 0 := rfl
@[simp] theorem resetEngine_width (s : State) :
    (resetEngine s).width = 0 := rfl
@[simp] theorem resetEngine_height (s : State) :
    (resetEngine s).height = 0 := rfl
@[simp] theorem resetEngine_rLen (s : State) :
    (resetEngine s).rLen = 0 := rfl
@[simp] theorem resetEngine_rAux (s : State) :
    (resetEngine s).rAux = 0 := rfl
@[simp] theorem resetEngine_cmd (s : State) :
    (resetEngine s).cmd = 0 := rfl
@[simp] theorem resetEngine_ctrl (s : State) :
    (resetEngine s).ctrl = 0 := rfl
@[simp] theorem resetEngine_status (s : State) :
    (resetEngine s).status = 0 := rfl
@[simp] theorem resetEngine_errCode (s : State) :
    (resetEngine s).errCode = 0 := rfl
@[simp] theorem resetEngine_errInfo (s : State) :
    (resetEngine s).errInfo = 0 := rfl
@[simp] theorem resetEngine_cSums (s : State) :
    (resetEngine s).cSums = 0 := rfl
@[simp] theorem resetEngine_mem (s : State) :
    (resetEngine s).mem = [] := rfl
@[simp] theorem resetEngine_stream (s : State) :
    (resetEngine s).stream = none := rfl
@[simp] theorem resetEngine_cfg (s : State) :
    (resetEngine s).cfg = s.cfg := rfl
@[simp] theorem resetEngine_host (s : State) :
    (resetEngine s).host = s.host := rfl
@[simp] theorem resetEngine_seen (s : State) :
    (resetEngine s).seen = .nothing := rfl
@[simp] theorem resetEngine_epoch (s : State) :
    (resetEngine s).epoch = s.epoch + 1 := rfl

@[simp] theorem openRld_src (s : State) :
    (openRld s).src = s.src := rfl
@[simp] theorem openRld_srcLen (s : State) :
    (openRld s).srcLen = s.srcLen := rfl
@[simp] theorem openRld_dst (s : State) :
    (openRld s).dst = s.dst := rfl
@[simp] theorem openRld_dstCap (s : State) :
    (openRld s).dstCap = s.dstCap := rfl
@[simp] theorem openRld_width (s : State) :
    (openRld s).width = s.width := rfl
@[simp] theorem openRld_height (s : State) :
    (openRld s).height = s.height := rfl
@[simp] theorem openRld_rLen (s : State) :
    (openRld s).rLen = s.rLen := rfl
@[simp] theorem openRld_rAux (s : State) :
    (openRld s).rAux = s.rAux := rfl
@[simp] theorem openRld_cmd (s : State) :
    (openRld s).cmd = s.cmd := rfl
@[simp] theorem openRld_ctrl (s : State) :
    (openRld s).ctrl = s.ctrl := rfl
@[simp] theorem openRld_status (s : State) :
    (openRld s).status = s.status := rfl
@[simp] theorem openRld_errCode (s : State) :
    (openRld s).errCode = s.errCode := rfl
@[simp] theorem openRld_errInfo (s : State) :
    (openRld s).errInfo = s.errInfo := rfl
@[simp] theorem openRld_cSums (s : State) :
    (openRld s).cSums = s.cSums := rfl
@[simp] theorem openRld_mem (s : State) :
    (openRld s).mem = s.mem := rfl
@[simp] theorem openRld_stream (s : State) :
    (openRld s).stream = some (.rld (rldStart (readSource s))) := rfl
@[simp] theorem openRld_cfg (s : State) :
    (openRld s).cfg = s.cfg := rfl
@[simp] theorem openRld_host (s : State) :
    (openRld s).host = s.host := rfl
@[simp] theorem openRld_seen (s : State) :
    (openRld s).seen = s.seen := rfl
@[simp] theorem openRld_epoch (s : State) :
    (openRld s).epoch = s.epoch := rfl

@[simp] theorem openLzd_src (s : State) :
    (openLzd s).src = s.src := rfl
@[simp] theorem openLzd_srcLen (s : State) :
    (openLzd s).srcLen = s.srcLen := rfl
@[simp] theorem openLzd_dst (s : State) :
    (openLzd s).dst = s.dst := rfl
@[simp] theorem openLzd_dstCap (s : State) :
    (openLzd s).dstCap = s.dstCap := rfl
@[simp] theorem openLzd_width (s : State) :
    (openLzd s).width = s.width := rfl
@[simp] theorem openLzd_height (s : State) :
    (openLzd s).height = s.height := rfl
@[simp] theorem openLzd_rLen (s : State) :
    (openLzd s).rLen = s.rLen := rfl
@[simp] theorem openLzd_rAux (s : State) :
    (openLzd s).rAux = s.rAux := rfl
@[simp] theorem openLzd_cmd (s : State) :
    (openLzd s).cmd = s.cmd := rfl
@[simp] theorem openLzd_ctrl (s : State) :
    (openLzd s).ctrl = s.ctrl := rfl
@[simp] theorem openLzd_status (s : State) :
    (openLzd s).status = s.status := rfl
@[simp] theorem openLzd_errCode (s : State) :
    (openLzd s).errCode = s.errCode := rfl
@[simp] theorem openLzd_errInfo (s : State) :
    (openLzd s).errInfo = s.errInfo := rfl
@[simp] theorem openLzd_cSums (s : State) :
    (openLzd s).cSums = s.cSums := rfl
@[simp] theorem openLzd_mem (s : State) :
    (openLzd s).mem = s.mem := rfl
@[simp] theorem openLzd_stream (s : State) :
    (openLzd s).stream = some (.lzd (lzdStart (readSource s))) := rfl
@[simp] theorem openLzd_cfg (s : State) :
    (openLzd s).cfg = s.cfg := rfl
@[simp] theorem openLzd_host (s : State) :
    (openLzd s).host = s.host := rfl
@[simp] theorem openLzd_seen (s : State) :
    (openLzd s).seen = s.seen := rfl
@[simp] theorem openLzd_epoch (s : State) :
    (openLzd s).epoch = s.epoch := rfl

@[simp] theorem reset_mem : State.reset.mem = [] := rfl
@[simp] theorem reset_stream : State.reset.stream = none := rfl
@[simp] theorem reset_cfg : State.reset.cfg = defaultConfig := rfl
@[simp] theorem reset_host : State.reset.host = [] := rfl

end Sys2Proof.Machine
end

