-- ==== Sys2Proof/Laws/Memory.lean ====
section
/-! SUPPORT. The laws of buffer memory: reading after writing, and the canonical form. -/

namespace Sys2Proof.Machine

@[simp] theorem lookup_nil (a : Nat) : Memory.lookup [] a = none := rfl

theorem lookup_cons (c : Host.Cell) (rest : Memory) (a : Nat) :
    Memory.lookup (c :: rest) a = if a = c.1 then some c.2 else Memory.lookup rest a := rfl

@[simp] theorem lookup_memSet_same (m : Memory) (a : Nat) (v : Byte) : (memSet m a v).lookup a = some v := by
  induction m with
  | nil => simp [memSet, lookup_cons]
  | cons c rest ih =>
    obtain ⟨b, w⟩ := c
    simp only [memSet]
    split
    · simp [lookup_cons]
    · split
      · simp [lookup_cons]
      · simp [lookup_cons, *]

theorem lookup_memSet_other (m : Memory) (a b : Nat) (v : Byte) (h : b ≠ a) :
    (memSet m a v).lookup b = m.lookup b := by
  induction m with
  | nil => simp [memSet, lookup_cons, h]
  | cons c rest ih =>
    obtain ⟨d, w⟩ := c
    simp only [memSet]
    split
    · simp [lookup_cons, h]
    · split
      · next heq => subst heq; simp [lookup_cons, h]
      · simp [lookup_cons, ih]

@[simp] theorem memWrite_nil (m : Memory) (a : Nat) : memWrite m a [] = m := rfl

@[simp] theorem memWrite_cons (m : Memory) (a : Nat) (v : Byte) (vs : List Byte) :
    memWrite m a (v :: vs) = memWrite (memSet m a v) (a + 1) vs := rfl

/-- A write leaves every address outside the written ones alone (rule R51). -/
theorem lookup_memWrite_outside (vs : List Byte) (m : Memory) (a b : Nat) (h : b < a ∨ a + vs.length ≤ b) :
    (memWrite m a vs).lookup b = m.lookup b := by
  induction vs generalizing m a with
  | nil => rfl
  | cons v vs ih =>
    simp only [List.length_cons] at h
    rw [memWrite_cons, ih _ _ (by omega), lookup_memSet_other _ _ _ _ (by omega)]

/-- A written address holds the written byte (rule R51). -/
theorem lookup_memWrite_inside (vs : List Byte) (m : Memory) (a i : Nat) (h : i < vs.length) :
    (memWrite m a vs).lookup (a + i) = some vs[i] := by
  induction vs generalizing m a i with
  | nil => simp at h
  | cons v vs ih =>
    rw [memWrite_cons]
    cases i with
    | zero => rw [lookup_memWrite_outside _ _ _ _ (by omega)]; simp
    | succ i =>
      have := ih (memSet m a v) (a + 1) i (by simpa using h)
      simpa [Nat.add_assoc, Nat.add_comm 1 i] using this

/-- The canonical form, read off the head: every later address is greater. -/
theorem wf_cons_iff (c : Host.Cell) (rest : Memory) :
    Memory.wf (c :: rest) = true ↔ (∀ d ∈ rest, c.1 < d.1) ∧ Memory.wf rest = true := by
  induction rest generalizing c with
  | nil => simp [Memory.wf]
  | cons d rest ih =>
    obtain ⟨a, v⟩ := c
    obtain ⟨b, w⟩ := d
    simp only [Memory.wf, Bool.and_eq_true, decide_eq_true_eq, List.mem_cons, forall_eq_or_imp]
    constructor
    · rintro ⟨hab, hw⟩
      refine ⟨⟨hab, fun e he => ?_⟩, hw⟩
      have := ((ih (b, w)).1 hw).1 e he
      exact Nat.lt_trans hab this
    · rintro ⟨⟨hab, _⟩, hw⟩
      exact ⟨hab, hw⟩

theorem mem_memSet (m : Memory) (a : Nat) (v : Byte) (c : Host.Cell) (h : c ∈ memSet m a v) :
    c = (a, v) ∨ c ∈ m := by
  induction m with
  | nil => simpa [memSet] using h
  | cons d rest ih =>
    obtain ⟨b, w⟩ := d
    simp only [memSet] at h
    split at h
    · simpa using h
    · split at h
      · simp only [List.mem_cons] at h ⊢
        tauto
      · simp only [List.mem_cons] at h ⊢
        rcases h with h | h
        · exact .inr (.inl h)
        · exact (ih h).imp_right .inr

/-- Writing one byte keeps the canonical form. -/
theorem memSet_wf (m : Memory) (a : Nat) (v : Byte) (h : m.wf = true) : (memSet m a v).wf = true := by
  induction m with
  | nil => rfl
  | cons c rest ih =>
    obtain ⟨b, w⟩ := c
    have hc := (wf_cons_iff _ _).1 h
    simp only [memSet]
    split
    · next hab =>
      refine (wf_cons_iff _ _).2 ⟨fun d hd => ?_, h⟩
      rcases List.mem_cons.1 hd with rfl | hd
      · exact hab
      · exact Nat.lt_trans hab (hc.1 d hd)
    · split
      · next heq => subst heq; exact (wf_cons_iff _ _).2 hc
      · refine (wf_cons_iff _ _).2 ⟨fun d hd => ?_, ih hc.2⟩
        rcases mem_memSet _ _ _ _ hd with rfl | hd
        · simp only; omega
        · exact hc.1 d hd

/-- Writing bytes keeps the canonical form. -/
theorem memWrite_wf (vs : List Byte) (m : Memory) (a : Nat) (h : m.wf = true) : (memWrite m a vs).wf = true := by
  induction vs generalizing m a with
  | nil => exact h
  | cons v vs ih => exact ih _ _ (memSet_wf _ _ _ h)

/-- An entry of a written memory is an old one, or lies among the written addresses. -/
theorem mem_memWrite (vs : List Byte) (m : Memory) (a : Nat) (c : Host.Cell) (h : c ∈ memWrite m a vs) :
    c ∈ m ∨ (a ≤ c.1 ∧ c.1 < a + vs.length) := by
  induction vs generalizing m a with
  | nil => exact .inl h
  | cons v vs ih =>
    simp only [List.length_cons]
    rcases ih _ _ h with h | h
    · rcases mem_memSet _ _ _ _ h with rfl | h
      · exact .inr (by simp)
      · exact .inl h
    · exact .inr (by omega)

/-- Reset's memory has the canonical form. -/
theorem reset_mem_wf : State.reset.mem.wf = true := rfl

/-- Every operation that writes memory keeps the canonical form. -/
theorem succeed_mem_wf (out : List Byte) (aux stored : Word) (mismatch : Bool) (s : State) (h : s.mem.wf = true) :
    (succeed out aux stored mismatch s).mem.wf = true := memWrite_wf _ _ _ h

theorem hostStore_mem_wf (addr : Word) (bytes : List Byte) (s : State) (h : s.mem.wf = true) :
    (hostStore addr bytes s).mem.wf = true := memWrite_wf _ _ _ h

/-- Two states with the same memory and epoch read alike. -/
theorem readByte_congr {s t : State} (hm : t.mem = s.mem) (he : t.epoch = s.epoch) (a : Nat) :
    readByte t a = readByte s a := by
  simp [readByte, hm, he]

@[simp] theorem memRead_length (s : State) (a n : Nat) : (memRead s a n).length = n := by simp [memRead]

@[simp] theorem readSource_length (s : State) : (readSource s).length = s.srcLen.toNat := by
  simp [readSource, srcCount]

theorem memRead_getElem (s : State) (a n i : Nat) (h : i < (memRead s a n).length) :
    (memRead s a n)[i] = readByte s (a + i) := by
  simp [memRead]

/-- After a write at the destination, a byte of the result reads as written. -/
theorem readByte_succeed_inside (out : List Byte) (aux stored : Word) (mismatch : Bool) (s : State) (i : Nat)
    (h : i < out.length) : readByte (succeed out aux stored mismatch s) (s.dst.toNat + i) = out[i] := by
  simp [readByte, dstAddr, lookup_memWrite_inside _ _ _ _ h]

/-- After a write at the destination, every other byte reads as before. -/
theorem readByte_succeed_outside (out : List Byte) (aux stored : Word) (mismatch : Bool) (s : State) (a : Nat)
    (h : a < s.dst.toNat ∨ s.dst.toNat + out.length ≤ a) :
    readByte (succeed out aux stored mismatch s) a = readByte s a := by
  simp [readByte, dstAddr, lookup_memWrite_outside _ _ _ _ h]

end Sys2Proof.Machine
end

