-- ==== Sys2Proof/Laws/Commands.lean ====
section
/-! SUPPORT. What the two ends of a command and the common sequence can do, each said once; claims about commands cite
these lemmas and unfold neither. -/

namespace Sys2Proof.Machine

theorem errNumber_toNat (code : ErrCode) : 1 ≤ (errNumber code).toNat ∧ (errNumber code).toNat ≤ 12 := by
  cases code <;> decide

theorem errNumber_eq_ten (code : ErrCode) : (errNumber code).toNat = 10 ↔ code = .checksum := by
  cases code <;> decide

theorem errorStatus_eq (code : ErrCode) : errorStatus code = if code = .checksum then 7 else 3 := by
  cases code <;> decide

theorem successStatus_eq (mismatch : Bool) : successStatus mismatch = if mismatch then 5 else 1 := by
  cases mismatch <;> decide

/-- `raise` is the error end of rule R103. -/
theorem raise_errorEnd (code : ErrCode) (info computed : Word) (s : State) :
    ErrorEnd (errNumber code).toNat info computed s (raise code info computed s) where
  keeps := ⟨rfl, rfl, rfl, rfl, rfl, rfl, rfl, rfl, rfl, rfl, rfl, rfl⟩
  mem := fun _ => readByte_congr rfl rfl _
  rLen := rfl
  rAux := by simp [errNumber_eq_ten]
  errCode := rfl
  errInfo := rfl
  cSums := by simp [errNumber_eq_ten]
  status := by simp [errNumber_eq_ten, errorStatus_eq]
  stream := rfl

/-- `succeed` is the success end of rule R104. -/
theorem succeed_successEnd (out : List Byte) (aux stored : Word) (mismatch : Bool) (s : State)
    (h : out.length < 2 ^ 32) : SuccessEnd out aux stored mismatch s (succeed out aux stored mismatch s) where
  keeps := ⟨rfl, rfl, rfl, rfl, rfl, rfl, rfl, rfl, rfl, rfl, rfl, rfl⟩
  written := fun i hi => readByte_succeed_inside _ _ _ _ _ i hi
  others := fun a ha => readByte_succeed_outside _ _ _ _ _ a ha
  rLen := by simp only [succeed_rLen, BitVec.toNat_ofNat]; exact Nat.mod_eq_of_lt h
  rAux := rfl
  errCode := rfl
  errInfo := rfl
  cSums := rfl
  status := by simp [successStatus_eq]
  stream := rfl

/-- The region checks of the meaning are those of rules R57 and R58. -/
theorem regionsOk_iff (s : State) : RegionsOk s ↔ addressesOk s = true ∧ operandsOverlap s = false := by
  simp only [addressesOk, operandsOverlap, regionInMemory, regionsShare, Bool.and_eq_true, decide_eq_true_eq,
    Bool.and_eq_false_iff, decide_eq_false_iff_not]
  simp only [srcAddr, srcCount, dstAddr, dstCount]
  constructor
  · rintro ⟨h1, h2, h3⟩
    refine ⟨⟨h1, h2⟩, ?_⟩
    omega
  · rintro ⟨⟨h1, h2⟩, h3⟩
    exact ⟨h1, h2, by omega⟩

/-- With the region checks passed a command ends as its unit function says. -/
theorem runUnit_of_regionsOk (unit : List Byte → UnitResult) (s : State) (h : RegionsOk s) :
    runUnit unit s = endCommand (unit (readSource s)) s := by
  obtain ⟨h1, h2⟩ := (regionsOk_iff s).1 h
  simp [runUnit, h1, h2]

/-- The end of a command is `raise`, or `succeed` with a result that fits the destination. -/
theorem endCommand_cases (r : UnitResult) (s : State) :
    (∃ code info computed, r = .err code info computed ∧ endCommand r s = raise code info computed s) ∨
    (∃ out aux stored mismatch, r = .ok out aux stored mismatch ∧ s.dstCap.toNat < out.length ∧
      endCommand r s = raise .dstCapacity 0 0 s) ∨
    (∃ out aux stored mismatch, r = .ok out aux stored mismatch ∧ out.length ≤ s.dstCap.toNat ∧
      endCommand r s = succeed out aux stored mismatch s) := by
  cases r with
  | err code info computed => exact .inl ⟨code, info, computed, rfl, rfl⟩
  | ok out aux stored mismatch =>
    by_cases h : s.dstCap.toNat < out.length
    · exact .inr (.inl ⟨out, aux, stored, mismatch, rfl, h, by simp [endCommand, dstCount, h]⟩)
    · exact .inr (.inr ⟨out, aux, stored, mismatch, rfl, by omega, by simp [endCommand, dstCount, h]⟩)

/-- The common sequence is one of the two region errors, or the end of the command. -/
theorem runUnit_cases (unit : List Byte → UnitResult) (s : State) :
    (¬ RegionsOk s ∧ addressesOk s = false ∧ runUnit unit s = raise .addr 0 0 s) ∨
    (¬ RegionsOk s ∧ addressesOk s = true ∧ runUnit unit s = raise .overlap 0 0 s) ∨
    (RegionsOk s ∧ runUnit unit s = endCommand (unit (readSource s)) s) := by
  cases h1 : addressesOk s with
  | false => exact .inl ⟨fun h => by simp [regionsOk_iff, h1] at h, rfl, by simp [runUnit, h1]⟩
  | true =>
    cases h2 : operandsOverlap s with
    | true => exact .inr (.inl ⟨fun h => by simp [regionsOk_iff, h2] at h, rfl, by simp [runUnit, h1, h2]⟩)
    | false =>
      have h := (regionsOk_iff s).2 ⟨h1, h2⟩
      exact .inr (.inr ⟨h, runUnit_of_regionsOk unit s h⟩)

/-- `SIZE` is one of its two errors, or the predicted size. -/
theorem runSize_cases (fmt : PixelFormat) (s : State) :
    (predictedSize fmt s.width.toNat s.height.toNat = none ∧ runSize fmt s = raise .unimplementedFormat 0 0 s) ∨
    (∃ p, predictedSize fmt s.width.toNat s.height.toNat = some p ∧ 2 ^ 32 ≤ p ∧ runSize fmt s = raise .arith 0 0 s) ∨
    (∃ p, predictedSize fmt s.width.toNat s.height.toNat = some p ∧ p < 2 ^ 32 ∧ runSize fmt s = sizeEnd p s) := by
  unfold runSize
  cases h : predictedSize fmt s.width.toNat s.height.toNat with
  | none => simp
  | some p =>
    by_cases hp : 2 ^ 32 ≤ p
    · exact .inr (.inl ⟨p, rfl, hp, by simp only [hp, ↓reduceIte]⟩)
    · exact .inr (.inr ⟨p, rfl, by omega, by simp only [hp, ↓reduceIte]⟩)

/-- Every command with regions is the common sequence around a unit function of the parameters, the strict bit,
`DSTCAP`, `WIDTH` and `HEIGHT` (rule R101). -/
theorem exec_memory_command (i : Instr) (h : i ∈ usesMemory) :
    ∃ unit : Config → Bool → Nat → Nat → Nat → List Byte → UnitResult,
      ∀ s, exec i s = .next (runUnit (unit s.cfg (strictBit s) (dstCount s) s.width.toNat s.height.toNat) s) := by
  simp only [usesMemory, List.mem_cons, List.not_mem_nil, or_false] at h
  rcases h with rfl | rfl | rfl | rfl | rfl | rfl | rfl | rfl | rfl | rfl | rfl | rfl | rfl | rfl | rfl | rfl | rfl | rfl |
    rfl | rfl
  · exact ⟨fun c _ _ _ _ => toCanonical c .p4444, fun _ => rfl⟩
  · exact ⟨fun c _ _ _ _ => toCanonical c .p1555, fun _ => rfl⟩
  · exact ⟨fun c _ _ _ _ => toCanonical c .p8888, fun _ => rfl⟩
  · exact ⟨fun c _ _ _ _ => fromCanonical c .p4444, fun _ => rfl⟩
  · exact ⟨fun c _ _ _ _ => fromCanonical c .p1555, fun _ => rfl⟩
  · exact ⟨fun c _ _ _ _ => fromCanonical c .p8888, fun _ => rfl⟩
  · exact ⟨fun c _ _ w h => blockDecode c .blk1 w h, fun _ => rfl⟩
  · exact ⟨fun c _ _ w h => blockDecode c .blk2 w h, fun _ => rfl⟩
  · exact ⟨fun c _ _ w h => blockDecode c .blk3 w h, fun _ => rfl⟩
  · exact ⟨fun c _ _ w h => blockDecode c .blk4 w h, fun _ => rfl⟩
  · exact ⟨fun c _ _ w h => blockDecode c .blk5 w h, fun _ => rfl⟩
  · exact ⟨fun c _ _ w h => blockEncode c .blk1 w h, fun _ => rfl⟩
  · exact ⟨fun c _ _ w h => blockEncode c .blk2 w h, fun _ => rfl⟩
  · exact ⟨fun c _ _ w h => blockEncode c .blk3 w h, fun _ => rfl⟩
  · exact ⟨fun c _ _ w h => blockEncode c .blk4 w h, fun _ => rfl⟩
  · exact ⟨fun c _ _ w h => blockEncode c .blk5 w h, fun _ => rfl⟩
  · exact ⟨fun _ _ _ _ _ src => rldResult (decodeRle src), fun _ => rfl⟩
  · exact ⟨fun c _ _ _ _ src => okBytes (rleEncode c src), fun _ => rfl⟩
  · exact ⟨fun c strict n _ _ => lzdUnit c strict n, fun _ => rfl⟩
  · exact ⟨fun c _ _ _ _ => lzeUnit c, fun _ => rfl⟩

/-- A command has regions or is a `SIZE`. -/
theorem exec_command_cases (i : Instr) (h : i.isCommand = true) :
    i ∈ usesMemory ∨ ∃ fmt, ∀ s, exec i s = .next (runSize fmt s) := by
  cases i <;> first
    | (left; decide)
    | exact .inr ⟨_, fun _ => rfl⟩
    | cases h

end Sys2Proof.Machine
end

