-- ==== Sys2Proof/Laws/PerInstr.lean ====
section
/-! SUPPORT. Families of statements made once per instruction. -/

namespace Sys2Proof.Laws

namespace EncodedSize

/-- How many bytes a code takes: a command word has four. -/
def codeBytes : Code → Nat
  | .command _ => 4
  | .rlePacket bytes => bytes.length
  | .lzToken _ bytes => bytes.length

/-- How many bytes the spec gives an instruction: a command is one word (rule R70), `REP` has 2 bytes and `LIT` a flag
byte and its literals (rule R84), `L` has 1 byte and `P` 2 (rules R188, R189). -/
def size : Instr → Nat
  | .lit bytes => 1 + bytes.length
  | .rep _ _ => 2
  | .l _ => 1
  | .p _ _ => 2
  | .pxdP4444 => 4
  | .pxdP1555 => 4
  | .pxdP8888 => 4
  | .pxeP4444 => 4
  | .pxeP1555 => 4
  | .pxeP8888 => 4
  | .bcdBlk1 => 4
  | .bcdBlk2 => 4
  | .bcdBlk3 => 4
  | .bcdBlk4 => 4
  | .bcdBlk5 => 4
  | .bceBlk1 => 4
  | .bceBlk2 => 4
  | .bceBlk3 => 4
  | .bceBlk4 => 4
  | .bceBlk5 => 4
  | .rld => 4
  | .rle => 4
  | .lzd => 4
  | .lze => 4
  | .sizeBlk1 => 4
  | .sizeBlk2 => 4
  | .sizeBlk3 => 4
  | .sizeBlk4 => 4
  | .sizeBlk5 => 4
  | .sizeP4444 => 4
  | .sizeP1555 => 4
  | .sizeP8888 => 4
  | .sizeIndexed => 4

/-- The encoder gives an instruction the size the spec gives it. -/
def Statement (i : Instr) : Prop := i.wellFormed = true → codeBytes (encode i) = size i

theorem pxdP4444 : Statement .pxdP4444 := fun _ => rfl
theorem pxdP1555 : Statement .pxdP1555 := fun _ => rfl
theorem pxdP8888 : Statement .pxdP8888 := fun _ => rfl
theorem pxeP4444 : Statement .pxeP4444 := fun _ => rfl
theorem pxeP1555 : Statement .pxeP1555 := fun _ => rfl
theorem pxeP8888 : Statement .pxeP8888 := fun _ => rfl
theorem bcdBlk1 : Statement .bcdBlk1 := fun _ => rfl
theorem bcdBlk2 : Statement .bcdBlk2 := fun _ => rfl
theorem bcdBlk3 : Statement .bcdBlk3 := fun _ => rfl
theorem bcdBlk4 : Statement .bcdBlk4 := fun _ => rfl
theorem bcdBlk5 : Statement .bcdBlk5 := fun _ => rfl
theorem bceBlk1 : Statement .bceBlk1 := fun _ => rfl
theorem bceBlk2 : Statement .bceBlk2 := fun _ => rfl
theorem bceBlk3 : Statement .bceBlk3 := fun _ => rfl
theorem bceBlk4 : Statement .bceBlk4 := fun _ => rfl
theorem bceBlk5 : Statement .bceBlk5 := fun _ => rfl
theorem rld : Statement .rld := fun _ => rfl
theorem rle : Statement .rle := fun _ => rfl
theorem lzd : Statement .lzd := fun _ => rfl
theorem lze : Statement .lze := fun _ => rfl
theorem sizeBlk1 : Statement .sizeBlk1 := fun _ => rfl
theorem sizeBlk2 : Statement .sizeBlk2 := fun _ => rfl
theorem sizeBlk3 : Statement .sizeBlk3 := fun _ => rfl
theorem sizeBlk4 : Statement .sizeBlk4 := fun _ => rfl
theorem sizeBlk5 : Statement .sizeBlk5 := fun _ => rfl
theorem sizeP4444 : Statement .sizeP4444 := fun _ => rfl
theorem sizeP1555 : Statement .sizeP1555 := fun _ => rfl
theorem sizeP8888 : Statement .sizeP8888 := fun _ => rfl
theorem sizeIndexed : Statement .sizeIndexed := fun _ => rfl
theorem rep (n : BitVec 7) (b : Byte) : Statement (.rep n b) := fun _ => rfl
theorem lit (bytes : List Byte) : Statement (.lit bytes) := fun _ => Nat.add_comm _ _
theorem l (b : Byte) : Statement (.l b) := fun _ => rfl
theorem p (dist : BitVec 12) (len : BitVec 4) : Statement (.p dist len) := fun _ => rfl

end EncodedSize

end Sys2Proof.Laws
end

