-- ==== Sys2Proof/Laws/Step.lean ====
section
/-! SUPPORT. What a step can do, said once: the cases of the fetch, of the host's actions and of the stream elements. -/

namespace Sys2Proof.Machine

/-- A host write of `CMD` is the command to run, or the error end of an illegal word. -/
theorem issueCommand_cases (w : Word) (s : State) :
    (∃ i, decodeCommand w = .ok i ∧ issueCommand w s = .run i (beginCommand w s)) ∨
    (∃ e, decodeCommand w = .error e ∧ issueCommand w s = .done (raise .illegalCmd 0 0 (beginCommand w s))) := by
  unfold issueCommand
  cases decodeCommand w with
  | ok i => exact .inl ⟨i, rfl, rfl⟩
  | error e => exact .inr ⟨e, rfl, rfl⟩

/-- Between commands, with the host waiting, a step changes nothing. -/
theorem fetch_idle (s : State) (hs : s.stream = none) (hh : s.host = []) : fetch s = .done s := by
  simp [fetch, hs, hh]

/-- Between commands a step is the host's next action. -/
theorem fetch_host (s : State) (action : HostAction) (rest : List HostAction) (hs : s.stream = none)
    (hh : s.host = action :: rest) : fetch s = hostStep action { s with host := rest } := by
  simp [fetch, hs, hh]

theorem fetch_rld (s : State) (st : RldStream) (hs : s.stream = some (.rld st)) : fetch s = rldNext st s := by
  simp [fetch, hs]

theorem fetch_lzd (s : State) (st : LzdStream) (hs : s.stream = some (.lzd st)) : fetch s = lzdNext st s := by
  simp [fetch, hs]

/-- What a step does is what was fetched. -/
theorem step_of_run {s s' : State} {i : Instr} (h : fetch s = .run i s') : step s = exec i s' := by simp [step, h]

theorem step_of_done {s s' : State} (h : fetch s = .done s') : step s = .next s' := by simp [step, h]

theorem step_of_stop {s : State} {f : Fault} (h : fetch s = .stop f) : step s = .fault f := by simp [step, h]

/-- The next step of a run-length decode: its end, a truncation error, a packet, or one byte of a packet begun. -/
theorem rldNext_cases (st : RldStream) (s : State) :
    (st.src.length ≤ st.sp ∧ rldNext st s = .done (endCommand (rldResult (rldSerialEnd st)) s)) ∨
    (st.sp < st.src.length ∧ st.mode = .flag ∧ ∃ at', rldFetch st = .error at' ∧
      rldNext st s = .done (endCommand (rldResult (.error at')) s)) ∨
    (st.sp < st.src.length ∧ st.mode = .flag ∧ ∃ packet, rldFetch st = .ok packet ∧
      rldNext st s = .run packet.toInstr s) ∨
    (st.sp < st.src.length ∧ st.mode ≠ .flag ∧
      rldNext st s = .done { s with stream := some (.rld (rldByte (byteAt st.src st.sp) st)) }) := by
  unfold rldNext
  by_cases h : st.src.length ≤ st.sp
  · exact .inl ⟨h, by simp [h]⟩
  · by_cases hm : st.mode = .flag
    · cases hf : rldFetch st with
      | error at' => exact .inr (.inl ⟨by omega, hm, at', rfl, by simp [h, hm]⟩)
      | ok packet => exact .inr (.inr (.inl ⟨by omega, hm, packet, rfl, by simp [h, hm]⟩))
    · exact .inr (.inr (.inr ⟨by omega, hm, by simp [h, hm]⟩))

/-- The next step of a dictionary decode: the trailer, an error of the group or token, or a token. -/
theorem lzdNext_cases (st : LzdStream) (s : State) :
    (s.dstCap.toNat ≤ st.out.length ∧
      lzdNext st s = .done (endCommand (lzdTrailer s.cfg (strictBit s) st.src st.out st.sp) s)) ∨
    (st.out.length < s.dstCap.toNat ∧ ∃ at', lzdNext st s = .done (endCommand (lzStreamError at') s) ∧
      (lzdGroup st = .error at' ∨ ∃ g, lzdGroup st = .ok g ∧ lzdFetch g = .error at')) ∨
    (st.out.length < s.dstCap.toNat ∧ ∃ g token, lzdGroup st = .ok g ∧ lzdFetch g = .ok token ∧
      lzdNext st s = .run token.toInstr { s with stream := some (.lzd g) }) := by
  unfold lzdNext dstCount
  by_cases h : s.dstCap.toNat ≤ st.out.length
  · exact .inl ⟨h, by simp [h]⟩
  · refine .inr ?_
    cases hg : lzdGroup st with
    | error at' => exact .inl ⟨by omega, at', by simp [h], .inl rfl⟩
    | ok g =>
      cases hf : lzdFetch g with
      | error at' => exact .inl ⟨by omega, at', by simp [h, hf], .inr ⟨g, rfl, hf⟩⟩
      | ok token => exact .inr ⟨by omega, g, token, rfl, hf, by simp [h, hf]⟩

/-- A group read leaves the stream as it is, or reads the flag byte at `sp`. -/
theorem lzdGroup_cases {st g : LzdStream} (h : lzdGroup st = .ok g) :
    (st.bit < 8 ∧ g = st) ∨
    (8 ≤ st.bit ∧ st.sp < st.src.length ∧
      g = { st with fsp := st.sp, flag := byteAt st.src st.sp, sp := st.sp + 1, bit := 0 }) := by
  unfold lzdGroup at h
  split at h
  · next hb => exact .inl ⟨hb, by cases h; rfl⟩
  · split at h
    · cases h
    · next hb hs => exact .inr ⟨by omega, by omega, by cases h; rfl⟩

/-- A fetched token is of the kind its flag bit announces, and its bytes are there. -/
theorem lzdFetch_ok {st : LzdStream} {token : Token} (h : lzdFetch st = .ok token) :
    token.isLiteral = st.flag.getLsbD st.bit ∧
    st.sp + (if token.isLiteral then 1 else 2) ≤ st.src.length := by
  unfold lzdFetch decodeToken at h
  cases hb : st.flag.getLsbD st.bit with
  | true =>
    rw [hb] at h
    cases hd : st.src.drop st.sp with
    | nil => simp [hd] at h
    | cons b rest =>
      have hl : st.src.length - st.sp = rest.length + 1 := by simpa using congrArg List.length hd
      simp [hd] at h
      subst h
      exact ⟨rfl, by simp [Token.isLiteral]; omega⟩
  | false =>
    rw [hb] at h
    cases hd : st.src.drop st.sp with
    | nil => simp [hd] at h
    | cons b1 rest =>
      cases rest with
      | nil => simp [hd] at h
      | cons b2 rest =>
        have hl : st.src.length - st.sp = rest.length + 1 + 1 := by simpa using congrArg List.length hd
        simp [hd] at h
        subst h
        exact ⟨rfl, by simp [Token.isLiteral]; omega⟩

/-- A packet runs exactly on a run-length stream that stands at a flag byte. -/
theorem execPacket_next (packet : Packet) (s : State) (st : RldStream) (hs : s.stream = some (.rld st))
    (hm : st.mode = .flag) :
    execPacket packet s = .next { s with stream := some (.rld (rldApply packet st)) } := by
  simp [execPacket, hs, hm]

/-- A token runs exactly on a dictionary stream whose flag announces it and whose output is not complete. -/
theorem execToken_next (token : Token) (s : State) (st : LzdStream) (hs : s.stream = some (.lzd st))
    (ha : atToken token.isLiteral (dstCount s) st = true) :
    execToken token s = .next (lzdContinue (lzdApply s.cfg (dstCount s) token st) s) := by
  simp [execToken, hs, ha]

theorem exec_toInstr_packet (packet : Packet) (s : State) : exec packet.toInstr s = execPacket packet s := by
  cases packet <;> rfl

theorem exec_toInstr_token (token : Token) (s : State) : exec token.toInstr s = execToken token s := by
  cases token <;> rfl

end Sys2Proof.Machine
end

