-- ==== Sys2Proof/Tests/Slice0.lean ====
section
/-! SUPPORT. Tests: ill-formed terms refused, words written out bit by bit and decoded, one step of each instruction on
vectors of 95_test_vectors.md, and for each obligation with hypotheses a state that meets them. -/

namespace Sys2Proof.Tests

open Sys2Proof Sys2Proof.Machine

/-! ### Helpers -/

/-- A job: source bytes at 0, a destination region, everything else as after reset. -/
def job (src : List Byte) (dst cap : Nat) : State :=
  { State.reset with
    mem := memWrite [] 0 src
    srcLen := BitVec.ofNat 32 src.length
    dst := BitVec.ofNat 32 dst
    dstCap := BitVec.ofNat 32 cap }

/-- A state with dimensions. -/
def sized (w h : Nat) (s : State) : State := { s with width := BitVec.ofNat 32 w, height := BitVec.ofNat 32 h }

/-- A state with a smaller buffer memory. -/
def withMemory (n : Nat) (s : State) : State := { s with cfg := { s.cfg with memSize := n } }

/-- A state with a host action to come. -/
def hosted (actions : List HostAction) (s : State) : State := { s with host := actions }

/-- What a command left: `STATUS`, `ERRCODE`, `ERRINFO`, `RAUX`, `CSUMS`, and the result bytes. -/
def ended : Host.Outcome State Fault Refusal → Option (List Nat × List Byte)
  | .next t =>
    some ([t.status.toNat, t.errCode.toNat, t.errInfo.toNat, t.rAux.toNat, t.cSums.toNat],
      memRead t t.dst.toNat t.rLen.toNat)
  | .fault _ => none
  | .refused _ => none

/-- `STATUS`, `ERRCODE` and `RLEN` after a `SIZE`. -/
def sizeAnswer : Host.Outcome State Fault Refusal → Option (List Nat)
  | .next t => some [t.status.toNat, t.errCode.toNat, t.rLen.toNat]
  | .fault _ => none
  | .refused _ => none

/-- The state a command leaves. -/
def after (i : Instr) (s : State) : State :=
  match exec i s with
  | .next t => t
  | .fault _ => s
  | .refused _ => s

/-- The output of the stream command that runs. -/
def streamOut : Host.Outcome State Fault Refusal → Option (List Byte)
  | .next t =>
    match t.stream with
    | some (.rld st) => some st.out
    | some (.lzd st) => some st.out
    | none => none
  | .fault _ => none
  | .refused _ => none

/-- Success with these bytes and no checksum. -/
def plain (bytes : List Byte) : Option (List Nat × List Byte) := some ([1, 0, 0, 0, 0], bytes)

/-- An error without info. -/
def error (code : Nat) : Option (List Nat × List Byte) := some ([3, code, 0, 0, 0], [])

theorem ok (s : State) (h1 : addressesOk s = true) (h2 : operandsOverlap s = false) : RegionsOk s :=
  (regionsOk_iff s).2 ⟨h1, h2⟩

/-! ### Well-formedness (rules R82, R83): 1 to 128 literal bytes -/

theorem test_empty_literal_is_ill_formed : Instr.wellFormed (.lit []) = false := by decide
theorem test_literal_of_129_is_ill_formed : Instr.wellFormed (.lit (List.replicate 129 0)) = false := by decide +kernel
theorem test_literal_of_1_and_128_is_well_formed :
    Instr.wellFormed (.lit [7]) = true ∧ Instr.wellFormed (.lit (List.replicate 128 0)) = true := by decide +kernel

/-! ### Decoding: every word from the bits of rules R70 to R74, R81, R82, R188, R189 -/

theorem test_decode_pxd :
    decodeCommand 0b00000000000000000000000001010001#32 = .ok .pxdP4444 ∧
    decodeCommand 0b00000000000000000000000001100001#32 = .ok .pxdP1555 ∧
    decodeCommand 0b00000000000000000000000001110001#32 = .ok .pxdP8888 := by decide
theorem test_decode_pxe :
    decodeCommand 0b00000000000000000000000001010010#32 = .ok .pxeP4444 ∧
    decodeCommand 0b00000000000000000000000001100010#32 = .ok .pxeP1555 ∧
    decodeCommand 0b00000000000000000000000001110010#32 = .ok .pxeP8888 := by decide
theorem test_decode_bcd :
    decodeCommand 0b00000000000000000000000000000011#32 = .ok .bcdBlk1 ∧
    decodeCommand 0b00000000000000000000000000010011#32 = .ok .bcdBlk2 ∧
    decodeCommand 0b00000000000000000000000000100011#32 = .ok .bcdBlk3 ∧
    decodeCommand 0b00000000000000000000000000110011#32 = .ok .bcdBlk4 ∧
    decodeCommand 0b00000000000000000000000001000011#32 = .ok .bcdBlk5 := by decide
theorem test_decode_bce :
    decodeCommand 0b00000000000000000000000000000100#32 = .ok .bceBlk1 ∧
    decodeCommand 0b00000000000000000000000000010100#32 = .ok .bceBlk2 ∧
    decodeCommand 0b00000000000000000000000000100100#32 = .ok .bceBlk3 ∧
    decodeCommand 0b00000000000000000000000000110100#32 = .ok .bceBlk4 ∧
    decodeCommand 0b00000000000000000000000001000100#32 = .ok .bceBlk5 := by decide
theorem test_decode_streams :
    decodeCommand 0b00000000000000000000000000000101#32 = .ok .rld ∧
    decodeCommand 0b00000000000000000000000000000110#32 = .ok .rle ∧
    decodeCommand 0b00000000000000000000000000000111#32 = .ok .lzd ∧
    decodeCommand 0b00000000000000000000000000001000#32 = .ok .lze := by decide
theorem test_decode_size :
    decodeCommand 0b00000000000000000000000000001001#32 = .ok .sizeBlk1 ∧
    decodeCommand 0b00000000000000000000000000011001#32 = .ok .sizeBlk2 ∧
    decodeCommand 0b00000000000000000000000000101001#32 = .ok .sizeBlk3 ∧
    decodeCommand 0b00000000000000000000000000111001#32 = .ok .sizeBlk4 ∧
    decodeCommand 0b00000000000000000000000001001001#32 = .ok .sizeBlk5 ∧
    decodeCommand 0b00000000000000000000000001011001#32 = .ok .sizeP4444 ∧
    decodeCommand 0b00000000000000000000000001101001#32 = .ok .sizeP1555 ∧
    decodeCommand 0b00000000000000000000000001111001#32 = .ok .sizeP8888 ∧
    decodeCommand 0b00000000000000000000000010001001#32 = .ok .sizeIndexed := by decide
theorem test_decode_packets :
    decode (.rlePacket [0b10000000#8, 0x55]) = .ok (.rep 0 0x55) ∧
    decode (.rlePacket [0b11111111#8, 0x00]) = .ok (.rep 127 0x00) ∧
    decode (.rlePacket [0b00000000#8, 0x41]) = .ok (.lit [0x41]) ∧
    decode (.rlePacket [0b00000010#8, 1, 2, 3]) = .ok (.lit [1, 2, 3]) := by decide
theorem test_decode_tokens :
    decode (.lzToken true [0b01000001#8]) = .ok (.l 0x41) ∧
    decode (.lzToken false [0b00110100#8, 0b00010010#8]) = .ok (.p 0x134 2) ∧
    decode (.lzToken false [0b11111111#8, 0b11111111#8]) = .ok (.p 4095 15) := by decide
theorem test_illegal_words :
    decodeCommand 0b00000000000000000000000100000101#32 = .error .reservedBits ∧
    decodeCommand 0b10000000000000000000000000000101#32 = .error .reservedBits ∧
    decodeCommand 0b00000000000000000000000000000000#32 = .error .reservedOp ∧
    decodeCommand 0b00000000000000000000000000001010#32 = .error .reservedOp ∧
    decodeCommand 0b00000000000000000000000010011001#32 = .error .reservedFmt ∧
    decodeCommand 0b00000000000000000000000000010101#32 = .error .fmtNotAccepted := by decide
theorem test_truncated_packets :
    decode (.rlePacket [0x80]) = .error .truncated ∧ decode (.rlePacket [0x02, 1, 2]) = .error .truncated ∧
    decode (.rlePacket [0x80, 1, 2]) = .error .bytesLeftOver ∧ decode (.lzToken false [1]) = .error .truncated := by
  decide

/-! ### The table's words, placed and run -/

theorem test_table_words :
    decodeTableWord 32 0x61 = some .pxdP1555 ∧ decodeTableWord 32 0x15 = none ∧
    decodeTableWord 16 0x82AA = some (.rep 2 0xAA) ∧ decodeTableWord 16 0x0041 = some (.lit [0x41]) ∧
    decodeTableWord 8 0x41 = some (.l 0x41) := by decide
theorem test_placed_command_runs : ended (step (State.reset.withFetchWord 32 0x03)) = plain [] := by decide
theorem test_placed_packet_runs :
    streamOut (step (State.reset.withFetchWord 16 0x82AA)) = some [0xAA, 0xAA, 0xAA] := by decide
theorem test_placed_literal_token_runs : streamOut (step (State.reset.withFetchWord 8 0x41)) = some [0x41] := by decide

/-! ### The instructions: vectors V-PXD, V-PXE, V-BC, V-RLD, V-RLE, V-LZE, V-LZD, V-SIZE -/

theorem test_pxdP4444 : ended (exec .pxdP4444 (job [0x34, 0x12] 16 4)) = plain [0x22, 0x33, 0x44, 0x11] := by decide
theorem test_pxdP4444_odd : ended (exec .pxdP4444 (job [0x34, 0x12, 0x56] 16 16)) = error 5 := by decide
theorem test_pxdP1555 : ended (exec .pxdP1555 (job [0x21, 0x84] 16 4)) = plain [0x08, 0x08, 0x08, 0xFF] := by decide
theorem test_pxdP1555_red : ended (exec .pxdP1555 (job [0x00, 0x7C] 16 4)) = plain [0xFF, 0, 0, 0] := by decide
theorem test_pxdP8888 :
    ended (exec .pxdP8888 (job [0x11, 0x22, 0x33, 0x44] 16 4)) = plain [0x44, 0x33, 0x22, 0x11] := by decide
theorem test_pxdP8888_length : ended (exec .pxdP8888 (job [1, 2, 3, 4, 5, 6] 16 16)) = error 5 := by decide
theorem test_pxeP4444 : ended (exec .pxeP4444 (job [0xC8, 0x64, 0x32, 0xFF] 16 2)) = plain [0x63, 0xFC] := by decide
theorem test_pxeP4444_capacity : ended (exec .pxeP4444 (job [0xC8, 0x64, 0x32, 0xFF] 16 1)) = error 11 := by decide
theorem test_pxeP1555 : ended (exec .pxeP1555 (job [0x80, 0x40, 0x20, 0x7F] 16 2)) = plain [0x04, 0x41] := by decide
theorem test_pxeP1555_alpha : ended (exec .pxeP1555 (job [0x80, 0x40, 0x20, 0x80] 16 2)) = plain [0x04, 0xC1] := by
  decide
theorem test_pxeP8888 :
    ended (exec .pxeP8888 (job [0x12, 0x34, 0x56, 0x78] 16 4)) = plain [0x78, 0x56, 0x34, 0x12] := by decide

theorem test_bcdBlk1_black :
    ended (exec .bcdBlk1 (sized 4 4 (job [0, 0, 0, 0, 0, 0, 0, 0] 16 64))) =
      plain (List.replicate 16 [0, 0, 0, 0xFF]).flatten := by decide
theorem test_bcdBlk1_length : ended (exec .bcdBlk1 (sized 4 4 (job (List.replicate 16 0) 16 64))) = error 9 := by decide
theorem test_bcdBlk2 : ended (exec .bcdBlk2 (sized 4 4 (job (List.replicate 16 0) 16 64))) = error 12 := by decide
theorem test_bcdBlk3 :
    ended (exec .bcdBlk3 (sized 4 4 (job (0x50 :: List.replicate 15 0) 16 64))) =
      plain ([0, 0, 0, 0, 0, 0, 0, 0x55] ++ (List.replicate 14 [0, 0, 0, 0]).flatten) := by decide
theorem test_bcdBlk4 :
    ended (exec .bcdBlk4 (sized 4 4 (job ([9, 5, 1] ++ List.replicate 13 0) 16 64))) =
      plain ([0, 0, 0, 5] ++ (List.replicate 15 [0, 0, 0, 9]).flatten) := by decide
theorem test_bcdBlk5 : ended (exec .bcdBlk5 (sized 0 0 (job [] 0 0))) = plain [] := by decide
theorem test_bceBlk1_dimensions : ended (exec .bceBlk1 (sized 3 4 (job (List.replicate 60 0) 64 8))) = error 6 := by decide
theorem test_bceBlk2 : ended (exec .bceBlk2 (sized 3 4 (job (List.replicate 48 0) 64 8))) = error 12 := by decide
theorem test_bceBlk3_length : ended (exec .bceBlk3 (sized 4 4 (job (List.replicate 60 0) 64 16))) = error 5 := by decide
theorem test_bceBlk4_capacity : ended (exec .bceBlk4 (sized 4 4 (job (List.replicate 64 0) 64 15))) = error 11 := by
  decide
theorem test_bceBlk5_size : (after .bceBlk5 (sized 8 4 (job (List.replicate 128 0) 128 32))).rLen = 32 := by decide +kernel

theorem test_rld :
    ended (exec .rld (job [0x82, 0xAA, 0x01, 0x01, 0x02] 16 5)) = plain [0xAA, 0xAA, 0xAA, 0x01, 0x02] := by decide
theorem test_rld_truncated :
    ended (exec .rld (job [0x82, 0xAA, 0x01, 0x01] 16 0)) = some ([3, 7, 2, 0, 0], []) := by decide
theorem test_rle :
    ended (exec .rle (job [0xAA, 0xAA, 0xAA, 0x01, 0x02] 16 8)) = plain [0x82, 0xAA, 0x01, 0x01, 0x02] := by decide
theorem test_rle_run_of_130 : rleCanonical (List.replicate 130 5) = [0xFF, 5, 0x01, 5, 5] := by decide +kernel
/-- Rule R167 (c): the three streams that V-RLE ends with; a split run whose first part is a literal; and a short repeat
in the middle of a run, which is no remainder. -/
theorem test_rle_admissible :
    rleAdmissible [0x41, 0x41] [0x81, 0x41] = false ∧ rleAdmissible [0x41, 0x41] [0x00, 0x41, 0x00, 0x41] = true ∧
    rleAdmissible (List.replicate 130 5) [0xFF, 5, 0x81, 5] = true ∧
    rleAdmissible (List.replicate 129 5) [0x00, 5, 0xFE, 5, 0x80, 5] = true ∧
    rleAdmissible (List.replicate 179 5) [0xFF, 5, 0x80, 5, 0xB1, 5] = false := by decide +kernel
theorem test_lzd :
    ended (exec .lzd (job [0x07, 0x61, 0x62, 0x63, 0x03, 0x06, 0x98, 0x04, 0, 0] 16 12)) =
      some ([1, 0, 0, 0x498, 0x498], [0x61, 0x62, 0x63, 0x61, 0x62, 0x63, 0x61, 0x62, 0x63, 0x61, 0x62, 0x63]) := by
  decide
theorem test_lzd_strict_mismatch :
    ended (exec .lzd { job [0x00, 0x05, 0x00, 0, 0, 0, 0] 16 3 with ctrl := 1 }) = some ([7, 10, 0, 0x60, 0], []) := by
  decide
theorem test_lze :
    ended (exec .lze (job (List.replicate 5 0xFF) 16 16)) =
      some ([1, 0, 0, 0x4FB, 0], [0x01, 0xFF, 0x01, 0x01, 0xFB, 0x04, 0x00, 0x00]) := by decide
theorem test_lze_empty : ended (exec .lze (job [] 16 4)) = plain [0, 0, 0, 0] := by decide

theorem test_size :
    sizeAnswer (exec .sizeBlk1 (sized 3 3 (job [] 0 0))) = some [1, 0, 4] ∧
    sizeAnswer (exec .sizeBlk2 (sized 8 4 (job [] 0 0))) = some [1, 0, 32] ∧
    sizeAnswer (exec .sizeBlk3 (sized 8 8 (job [] 0 0))) = some [1, 0, 64] ∧
    sizeAnswer (exec .sizeBlk4 (sized 8 4 (job [] 0 0))) = some [1, 0, 32] ∧
    sizeAnswer (exec .sizeBlk5 (sized 256 256 (job [] 0 0))) = some [1, 0, 65536] ∧
    sizeAnswer (exec .sizeP4444 (sized 32768 32768 (job [] 0 0))) = some [1, 0, 0x80000000] ∧
    sizeAnswer (exec .sizeP1555 (sized 2 4 (job [] 0 0))) = some [1, 0, 16] ∧
    sizeAnswer (exec .sizeP8888 (sized 32768 32768 (job [] 0 0))) = some [3, 4, 0] ∧
    sizeAnswer (exec .sizeIndexed (sized 8 4 (job [] 0 0))) = some [3, 12, 0] := by decide

/-- Trace T1, steps 1 to 5, packet by packet. -/
theorem test_packets :
    streamOut (exec (.rep 2 0xAA) (openRld (job [0x82, 0xAA, 0x01, 0x01, 0x02] 16 5))) = some [0xAA, 0xAA, 0xAA] ∧
    streamOut (exec (.lit [0x01, 0x02]) (openRld (job [0x01, 0x01, 0x02] 16 5))) = some [0x01, 0x02] := by decide

/-- A dictionary stream in the middle of a group. -/
def inGroup (flag : Byte) (out : List Byte) (cap : Nat) : State :=
  { job [flag, 0x61, 0x62, 0x63] 16 cap with
    stream := some (.lzd { src := [flag, 0x61, 0x62, 0x63], sp := 1, fsp := 0, out := out, flag := flag, bit := 0 }) }

/-- Trace T2, steps 2 and 5. -/
theorem test_tokens :
    streamOut (exec (.l 0x61) (inGroup 1 [] 12)) = some [0x61] ∧
    streamOut (exec (.p 3 6) (inGroup 0 [0x61, 0x62, 0x63] 12)) =
      some [0x61, 0x62, 0x63, 0x61, 0x62, 0x63, 0x61, 0x62, 0x63, 0x61, 0x62, 0x63] ∧
    streamOut (exec (.p 5 0) (inGroup 0 [] 12)) = some [0x20, 0x20, 0x20] := by decide

/-! ### Witnesses: states that meet the hypotheses of the obligations, at the boundaries of their clauses -/

theorem witness_defaultConfig_wf : defaultConfig.Wf :=
  ⟨by decide, by decide, by decide, by decide, (by decide : 15 ≤ 127 ∧ 127 ≤ 239), by decide⟩

/-- Other admissible parameters: every one differs from its default. -/
def otherConfig : Config where
  memSize := 64
  pixFieldOrder := { at0 := .b, at1 := .a, at2 := .r, at3 := .g }
  pix8888Order := { at0 := .r, at1 := .g, at2 := .b, at3 := .a }
  pixDownBias := .halfTarget
  bcVariant := { blk1 := some .va, blk2 := some .vb, blk3 := some .vc, blk4 := none, blk5 := some .vb }
  bcDec := .other
  rleEnc := .other
  lzFormat := .other
  lzEnc := .other
  csumExt := .sign
  lzOvershoot := .truncate
  lzTrailing := .ignore

theorem witness_otherConfig_wf : otherConfig.Wf :=
  ⟨by decide, by decide, by decide, by decide, trivial, by decide⟩

theorem witness_DecodeOfEncodeGivesInstruction :
    Instr.wellFormed .pxdP4444 = true ∧ Instr.wellFormed (.rep 0 0x80) = true ∧ Instr.wellFormed (.lit [0xFF]) = true ∧
    Instr.wellFormed (.lit (List.replicate 128 0xFF)) = true ∧ Instr.wellFormed (.p 4095 15) = true := by
  decide +kernel

/-- The clauses meet at one byte too few: `80` alone and `01 aa` are truncated, `80 aa` and `01 aa bb` are not. -/
theorem witness_PacketLengthComesFromItsFlag :
    decodePacket [0x80] = .error .truncated ∧ decodePacket [0x80, 0xAA] = .ok (.rep 0 0xAA, []) ∧
    decodePacket [0x01, 0xAA] = .error .truncated ∧ decodePacket [0x01, 0xAA, 0xBB] = .ok (.lit [0xAA, 0xBB], []) := by
  decide

theorem witness_StepRunsTheDecodedCommand :
    let s := hosted [.writeReg 0x20 0x05, .reset] (job [0x80, 7] 16 1)
    s.stream = none ∧ s.host = .writeReg 0x20 0x05 :: [.reset] ∧ decodeCommand 0x05 = .ok .rld := by decide

/-- A packet at `sp`; a token in a group; a token after the group flag. -/
theorem witness_StepRunsTheStreamElement :
    (let st : RldStream := rldStart [0x80, 7];
      st.mode = .flag ∧ decodePacket (st.src.drop st.sp) = .ok (.rep 0 7, [])) ∧
    (let st : LzdStream := { lzdStart [0x01, 7] with sp := 1, flag := 0x80, bit := 7 };
      st.out.length < (job [] 0 1).dstCap.toNat ∧ st.bit < 8 ∧
        decodeToken (st.flag.getLsbD st.bit) (st.src.drop st.sp) = .ok (.l 7, [])) ∧
    (let st : LzdStream := lzdStart [0x00, 1, 2];
      st.out.length < (job [] 0 1).dstCap.toNat ∧ st.bit = 8 ∧ st.src.drop st.sp = 0x00 :: [1, 2] ∧
        decodeToken ((0x00 : Byte).getLsbD 0) [1, 2] = .ok (.p 1 2, [])) := by decide

/-- Illegal by each part of rule R76, beside the legal `SIZE.INDEXED`. -/
theorem witness_IllegalWordEndsInIllegalCmd :
    IllegalWord 0x100 ∧ IllegalWord 0x0 ∧ IllegalWord 0xA ∧ IllegalWord 0x99 ∧ IllegalWord 0x41 ∧
    ¬ IllegalWord 0x51 ∧ ¬ IllegalWord 0x89 := by
  simp [IllegalWord, FormatAccepted]

/-- The last byte of memory is loaded, the one after it faults, and no byte at all is loaded anywhere. -/
theorem witness_StepStopsOnlyOnHostAccess :
    (hosted [.loadMem 64 1] (withMemory 64 (job [] 0 0))).cfg.memSize < (64 : Word).toNat + 1 ∧
    ended (step (hosted [.loadMem 64 1] (withMemory 64 (job [] 0 0)))) = none ∧
    (ended (step (hosted [.loadMem 63 1] (withMemory 64 (job [] 0 0))))).isSome = true ∧
    (ended (step (hosted [.loadMem 0xFFFFFFFF 0] (withMemory 64 (job [] 0 0))))).isSome = true := by decide

/-- Formats with a codec under the default parameters and under others. -/
theorem witness_CommandsOnTheResetState :
    bcVariant defaultConfig .blk5 ≠ none ∧ bcVariant otherConfig .blk2 ≠ none ∧ defaultConfig.lzFormat = .lzss := by
  decide

theorem witness_HostResetRestoresResetValues :
    (hosted [.reset] (job [7] 16 4)).stream = none ∧ (hosted [.reset] (job [7] 16 4)).host = .reset :: [] := by decide

theorem sound_of_idle (s : State) (h1 : s.cfg.Wf) (h2 : s.mem.wf = true) (h3 : ∀ cell ∈ s.mem, cell.1 < s.cfg.memSize)
    (h4 : s.ctrl = 0) (h5 : s.status = 0) (h6 : s.errCode = 0) (h7 : s.errInfo = 0) (h8 : s.stream = none) : Sound s where
  cfg := h1
  mem_wf := h2
  mem_range := h3
  ctrl := by simp [h4]
  status := .inl h5
  errCode := by simp [h6]
  err_flag := by intro _; simp [h5, h6]
  errInfo := fun _ _ _ => h7
  stream := by intro st h; simp [h8] at h

/-- A state with bytes in memory about to run a command, and one inside a run-length stream. -/
theorem witness_StepKeepsSound :
    Sound (hosted [.writeReg 0x20 0x05] (job [0x80, 7] 16 1)) ∧
    (ended (step (hosted [.writeReg 0x20 0x05] (job [0x80, 7] 16 1)))).isSome = true := by
  refine ⟨sound_of_idle _ witness_defaultConfig_wf (by decide) ?_ rfl rfl rfl rfl rfl, by decide⟩
  decide

theorem witness_StepKeepsSound_inside :
    Sound (openRld (job [0x80, 7] 16 1)) ∧ streamOut (step (openRld (job [0x80, 7] 16 1))) = some [7] := by
  refine ⟨⟨witness_defaultConfig_wf, by decide, ?_, by decide, .inl rfl, by decide, ?_, fun _ _ _ => rfl, ?_⟩, by decide⟩
  · decide
  · intro h; cases h
  · intro st h
    cases h
    exact ⟨⟨by decide, by decide, .inl rfl⟩, ok _ (by decide) (by decide)⟩

theorem witness_NothingHiddenBetweenCommands :
    (job [0x80, 7] 16 1).stream = none ∧ exec .rld (job [0x80, 7] 16 1) = .next (after .rld (job [0x80, 7] 16 1)) ∧
    step (job [] 0 0) = .next (job [] 0 0) := ⟨rfl, rfl, rfl⟩

/-- An operand register, a result register, `CTRL`, a read-only register, an unlisted and an unaligned offset. -/
theorem witness_HostWriteReachesOneRegister :
    ∀ offset ∈ [0x00#32, 0x1C, 0x24, 0x28, 0x38, 0x01],
      let s := hosted [.writeReg offset 0xFFFFFFFF] (job [] 0 0)
      s.stream = none ∧ s.host = .writeReg offset 0xFFFFFFFF :: [] ∧ offset ≠ 0x20 := by
  intro offset h
  simp only [List.mem_cons, List.not_mem_nil, or_false] at h
  refine ⟨rfl, rfl, ?_⟩
  rcases h with rfl | rfl | rfl | rfl | rfl | rfl <;> decide

theorem witness_HostReadFollowsTheRegisterMap :
    (hosted [.readReg 0x34] (job [] 0 0)).host = .readReg 0x34 :: [] ∧ (0x33 : Word).toNat % 4 ≠ 0 ∧
    0x34 < (0x38 : Word).toNat := by decide

/-- A store that ends at the end of memory, and an empty one. -/
theorem witness_HostStoreThenLoad :
    (let s := hosted [.storeMem 60 [1, 2, 3, 4], .loadMem 60 4] (withMemory 64 (job [] 0 0));
      s.host = .storeMem 60 [1, 2, 3, 4] :: .loadMem 60 [1, 2, 3, 4].length :: [] ∧
        (60 : Word).toNat + [1, 2, 3, 4].length ≤ s.cfg.memSize) ∧
    (64 : Word).toNat + ([] : List Byte).length ≤ (withMemory 64 (job [] 0 0)).cfg.memSize := by decide

/-- Each region one byte past the end of memory; both at the end pass. -/
theorem witness_RegionOutsideMemoryIsAddrError :
    Instr.lze ∈ usesMemory ∧
    (let s := { withMemory 64 (job [] 0 0) with src := 64, srcLen := 1 };
      s.cfg.memSize < s.src.toNat + s.srcLen.toNat) ∧
    (let s := withMemory 64 (job [] 60 5);
      s.cfg.memSize < s.dst.toNat + s.dstCap.toNat) ∧
    RegionsOk { withMemory 64 (job [] 60 4) with src := 56, srcLen := 4 } :=
  ⟨by decide, by decide, by decide, ok _ (by decide) (by decide)⟩

/-- One shared byte; regions that touch share none. -/
theorem witness_OverlappingRegionsAreRefused :
    (let s := withMemory 64 (job [1, 2, 3, 4] 3 4);
      Instr.pxdP8888 ∈ usesMemory ∧ s.src.toNat + s.srcLen.toNat ≤ s.cfg.memSize ∧
        s.dst.toNat + s.dstCap.toNat ≤ s.cfg.memSize ∧ 0 < s.srcLen.toNat ∧ 0 < s.dstCap.toNat ∧
        s.src.toNat < s.dst.toNat + s.dstCap.toNat ∧ s.dst.toNat < s.src.toNat + s.srcLen.toNat) ∧
    RegionsOk (withMemory 64 (job [1, 2, 3, 4] 4 4)) := ⟨by decide, ok _ (by decide) (by decide)⟩

theorem witness_ErrorEndsWriteNoMemory :
    exec .pxdP4444 (job [1] 16 4) = .next (after .pxdP4444 (job [1] 16 4)) ∧
    (after .pxdP4444 (job [1] 16 4)).errCode ≠ 0 := ⟨rfl, by decide⟩

/-- A command with regions and one without. -/
theorem witness_CommandsKeepOperandsAndOtherBytes :
    Instr.isCommand .rld = true ∧ Instr.rld ∈ usesMemory ∧ Instr.isCommand .sizeBlk1 = true ∧
    Instr.sizeBlk1 ∉ usesMemory := by decide

theorem witness_CommandsAreIdempotent :
    let s := job [0x81, 7] 16 2
    Instr.isCommand .rld = true ∧ s.mem.wf = true ∧ exec .rld s = .next (after .rld s) ∧
      (after .rld s).mem ≠ s.mem := ⟨rfl, by decide, rfl, by decide⟩

/-- Two states that agree on the source alone: other memory, another reset. -/
theorem witness_CommandsReadOnlyTheirSource :
    let s := job [0x81, 7] 16 2
    let s' := { s with mem := memWrite s.mem 16 [9, 9], epoch := 1, cmd := 5, status := 1 }
    s'.src = s.src ∧ s'.srcLen = s.srcLen ∧ s'.dst = s.dst ∧ s'.dstCap = s.dstCap ∧ s'.ctrl = s.ctrl ∧
      (∀ k < s.srcLen.toNat, sourceByte s' k = sourceByte s k) ∧ exec .rld s = .next (after .rld s) := by
  refine ⟨rfl, rfl, rfl, rfl, rfl, by decide, rfl⟩

theorem witness_ErrorCodesOfEachCommand :
    exec .lzd (job [0] 16 0) = .next (after .lzd (job [0] 16 0)) ∧ (after .lzd (job [0] 16 0)).errCode.toNat ∈ [2, 3, 8, 10] :=
  ⟨rfl, by decide⟩

/-- The largest size that fits and the smallest that does not. -/
theorem witness_SizeGivesPredictedSize :
    ¬ 2 ^ 32 ≤ (sized 0xFFFFFFFF 1 (job [] 0 0)).width.toNat * 1 * 1 / 1 ∧
    sizeAnswer (exec .sizeBlk2 (sized 0xFFFFFFFF 1 (job [] 0 0))) = some [1, 0, 0xFFFFFFFF] ∧
    sizeAnswer (exec .sizeP8888 (sized 65536 16384 (job [] 0 0))) = some [3, 4, 0] := by decide

theorem witness_SizeOfMipmapNeverOverflows :
    let s := sized 32767 32767 (job [] 0 0)
    s.width.toNat ≤ 32767 ∧ s.height.toNat ≤ 32767 ∧ exec .sizeP8888 s = .next (after .sizeP8888 s) :=
  ⟨by decide, by decide, rfl⟩

/-- The branches of the six pixel statements, each with both regions in memory: a bad length, a result one byte too
long, one that just fits, and the empty source. -/
theorem witness_pixel_regions :
    (∀ s ∈ [job [1, 2, 3] 16 16, job [1, 2] 16 3, job [1, 2] 16 4, job [] 16 0, job [1, 2, 3, 4, 5] 16 16,
      job [1, 2, 3, 4] 16 1, job [1, 2, 3, 4] 16 2, job [1, 2, 3, 4] 16 3, job [1, 2, 3, 4] 16 4],
      addressesOk s = true ∧ operandsOverlap s = false ∧ s.cfg.pixFieldOrder.Wf ∧ s.cfg.pix8888Order.Wf) := by decide
theorem witness_PxdP4444UnpacksEachPixel :
    RegionsOk (job [1, 2] 16 4) ∧ (job [1, 2, 3] 16 16).srcLen.toNat % 2 ≠ 0 ∧
    (job [1, 2] 16 3).dstCap.toNat < 4 * ((job [1, 2] 16 3).srcLen.toNat / 2) ∧
    ¬ (job [1, 2] 16 4).dstCap.toNat < 4 * ((job [1, 2] 16 4).srcLen.toNat / 2) :=
  ⟨ok _ (by decide) (by decide), by decide, by decide, by decide⟩
theorem witness_PxdP1555UnpacksEachPixel :
    RegionsOk { job [1, 2] 16 4 with cfg := otherConfig } ∧ otherConfig.pixFieldOrder.Wf ∧
    ended (exec .pxdP1555 (job [1, 2] 16 3)) = error 11 := ⟨ok _ (by decide) (by decide), by decide, by decide⟩
theorem witness_PxdP8888ReordersEachPixel :
    RegionsOk (job [1, 2, 3, 4] 16 4) ∧ (job [1, 2, 3, 4, 5] 16 16).srcLen.toNat % 4 ≠ 0 ∧
    (job [1, 2, 3, 4] 16 3).dstCap.toNat < 4 * ((job [1, 2, 3, 4] 16 3).srcLen.toNat / 4) :=
  ⟨ok _ (by decide) (by decide), by decide, by decide⟩
theorem witness_PxeP4444PacksEachPixel :
    RegionsOk (job [1, 2, 3, 4] 16 2) ∧ (job [1, 2, 3, 4] 16 2).cfg.Wf ∧
    (job [1, 2, 3, 4] 16 1).dstCap.toNat < 2 * ((job [1, 2, 3, 4] 16 1).srcLen.toNat / 4) ∧
    (DownBias.fixed 15).Wf ∧ (DownBias.fixed 239).Wf ∧ ¬ (DownBias.fixed 14).Wf ∧ ¬ (DownBias.fixed 240).Wf :=
  ⟨ok _ (by decide) (by decide), witness_defaultConfig_wf, by decide, by decide, by decide, by decide, by decide⟩
theorem witness_PxeP1555PacksEachPixel :
    RegionsOk { job [1, 2, 3, 4] 16 2 with cfg := otherConfig } ∧ otherConfig.Wf ∧
    (job [1, 2, 3, 4, 5] 16 16).srcLen.toNat % 4 ≠ 0 :=
  ⟨ok _ (by decide) (by decide), witness_otherConfig_wf, by decide⟩
theorem witness_PxeP8888ReordersEachPixel :
    RegionsOk { job [1, 2, 3, 4] 16 4 with cfg := otherConfig } ∧ otherConfig.pix8888Order.Wf :=
  ⟨ok _ (by decide) (by decide), by decide⟩

/-- The bounds of the admissible fixed biases: at each every 5-bit value comes back (rule R134 (a)), one past it not. -/
theorem test_admissible_bias_bounds :
    (∀ v < 32, down (.fixed 15) (up v 5) 5 = v ∧ down (.fixed 239) (up v 5) 5 = v ∧ down .halfTarget (up v 5) 5 = v) ∧
    (¬ ∀ v < 32, down (.fixed 14) (up v 5) 5 = v) ∧ (¬ ∀ v < 32, down (.fixed 240) (up v 5) 5 = v) := by decide +kernel

/-- Program P3 of the vectors, unpack then pack, with the default bias and with the other reading of the rule. -/
theorem witness_PackingWhatWasUnpackedIsLossless :
    let s := job [0x21, 0x84, 0x00, 0x7C] 16 8
    s.cfg.Wf ∧ exec .pxdP1555 s = .next (after .pxdP1555 s) ∧
      (after .pxdP1555 s).errCode = 0 ∧ RegionsOk (takeResult 32 4 (after .pxdP1555 s)) ∧
      s.srcLen.toNat ≤ (4 : Word).toNat :=
  ⟨witness_defaultConfig_wf, rfl, by decide, ok _ (by decide) (by decide), by decide⟩
theorem witness_PackingWhatWasUnpackedIsLossless_halfTarget :
    let s := { job [0x21, 0x84] 16 4 with cfg := otherConfig }
    s.cfg.Wf ∧ s.cfg.pixDownBias = .halfTarget ∧ exec .pxdP4444 s = .next (after .pxdP4444 s) ∧
      (after .pxdP4444 s).errCode = 0 ∧ RegionsOk (takeResult 32 2 (after .pxdP4444 s)) :=
  ⟨witness_otherConfig_wf, rfl, rfl, by decide, ok _ (by decide) (by decide)⟩

/-- The branches of `BCD`: no codec; width, height, length; overflow; capacity; one block. -/
theorem witness_BlockDecompressEnds :
    (∀ s ∈ [sized 4 4 (job (List.replicate 16 0) 16 64), sized 6 4 (job (List.replicate 12 0) 16 64),
      sized 4 6 (job (List.replicate 12 0) 16 64), sized 4 4 (job (List.replicate 9 0) 16 64),
      sized 4 4 (job (List.replicate 8 0) 16 63), sized 4 4 (job (List.replicate 8 0) 16 64),
      { sized 32768 32768 (job [] 0 0) with srcLen := 0x40000000, dst := 0x40000000 }],
      addressesOk s = true ∧ operandsOverlap s = false) ∧
    bcVariant defaultConfig .blk2 = none ∧ bcVariant defaultConfig .blk1 = some .va ∧
    bcVariant defaultConfig .blk3 = some .vb ∧ bcVariant defaultConfig .blk4 = some .vc ∧ 2 ^ 32 ≤ 4 * 32768 * 32768 := by
  decide

/-- The branches of `BCE`: no codec; dimensions 3 and 2; length; capacity; the smallest image. -/
theorem witness_BlockCompressEnds :
    (∀ s ∈ [sized 3 4 (job (List.replicate 48 0) 64 8), sized 2 4 (job (List.replicate 32 0) 64 8),
      sized 4 4 (job (List.replicate 60 0) 64 8), sized 4 4 (job (List.replicate 64 0) 64 7),
      sized 4 4 (job (List.replicate 64 0) 64 8)], addressesOk s = true ∧ operandsOverlap s = false) ∧
    (∃ j k, 2 ≤ j ∧ 2 ≤ k ∧ (sized 4 4 (job [] 0 0)).width.toNat = 2 ^ j ∧ (sized 4 4 (job [] 0 0)).height.toNat = 2 ^ k) :=
  ⟨by decide +kernel, 2, 2, by decide, by decide, by decide, by decide⟩
theorem witness_UsualLayoutFixedBlocks : defaultConfig.bcDec = .usual := rfl

/-- A stream of two packets that just fits and one that does not. -/
theorem witness_RldRunsThePackets :
    let packets : List Packet := [.rep 2 0xAA, .lit [1, 2]]
    RegionsOk (job [0x82, 0xAA, 1, 1, 2] 16 5) ∧ RegionsOk (job [0x82, 0xAA, 1, 1, 2] 16 4) ∧
      (∀ p ∈ packets, p.wellFormed = true) ∧
      readSource (job [0x82, 0xAA, 1, 1, 2] 16 5) = packets.flatMap encodePacket ∧
      (packets.flatMap packetOutput).length = 5 :=
  ⟨ok _ (by decide) (by decide), ok _ (by decide) (by decide), by decide, by decide, by decide⟩

theorem truncated_rep : TruncatedPacket [0x80] := ⟨by decide, .rep 0 0, by decide, by decide, by decide⟩
theorem truncated_lit : TruncatedPacket [0x01, 1] := ⟨by decide, .lit [1, 2], by decide, by decide, by decide⟩

theorem witness_RldReportsTheTruncatedPacket :
    let s := job [0x82, 0xAA, 0x01, 0x01] 16 0
    RegionsOk s ∧ TruncatedPacket [0x01, 0x01] ∧
      readSource s = [Packet.rep 2 0xAA].flatMap encodePacket ++ [0x01, 0x01] :=
  ⟨ok _ (by decide) (by decide), truncated_lit, by decide⟩

/-- The encoder's result just fits, and does not. -/
theorem witness_RleEnds :
    RegionsOk (job [7, 7, 7] 16 2) ∧ RegionsOk (job [7, 7, 7] 16 1) ∧
    (rleEncode defaultConfig (readSource (job [7, 7, 7] 16 2))).length = 2 :=
  ⟨ok _ (by decide) (by decide), ok _ (by decide) (by decide), by decide⟩

/-- Program P1 of the vectors. -/
theorem witness_RldAfterRleIsLossless :
    let s := job [0xAA, 0xAA, 0xAA, 1, 2] 16 16
    exec .rle s = .next (after .rle s) ∧ (after .rle s).errCode = 0 ∧ RegionsOk (takeResult 32 16 (after .rle s)) ∧
      s.srcLen.toNat ≤ (16 : Word).toNat := ⟨rfl, by decide, ok _ (by decide) (by decide), by decide⟩

theorem witness_RunLengthSizeBounds : decodeRle [0xFF, 0] = .ok (List.replicate 128 0) := by decide +kernel

/-- A stream at a flag byte; a stream inside a packet, and no stream at all. -/
theorem witness_RepAppendsItsByte :
    (openRld (job [0x80, 7] 16 1)).stream = some (.rld (rldStart [0x80, 7])) ∧ (rldStart [0x80, 7]).mode = .flag ∧
    (¬ ∃ st : RldStream, (job [] 0 0).stream = some (.rld st) ∧ st.mode = .flag) := by
  refine ⟨by decide, rfl, ?_⟩
  rintro ⟨st, h, -⟩
  cases h
theorem witness_LitCopiesItsBytes :
    ¬ ∃ st : RldStream, ({ job [] 0 0 with stream := some (.rld { rldStart [1, 7] with sp := 1, mode := .lit 2 }) } :
      State).stream = some (.rld st) ∧ st.mode = .flag := by
  rintro ⟨st, h, hm⟩
  cases h
  cases hm

theorem witness_SteppingThePacketsIsRld : RegionsOk (job [0x82, 0xAA, 1, 1] 16 9) := ok _ (by decide) (by decide)

/-- The clauses of `LZD`: a token error; no trailer; one byte too many, refused; the trailer alone; one byte too many,
ignored; a mismatch in strict and in lenient mode. -/
theorem witness_LzdEnds :
    (∀ s ∈ [job [0x01] 16 1, job [0, 0, 0] 16 0, job [0, 0, 0, 0, 0] 16 0, job [0, 0, 0, 0] 16 0], addressesOk s = true ∧
      operandsOverlap s = false) ∧
    lzDecodeTokens defaultConfig [0x01] 1 = .error 0 ∧ lzDecodeTokens defaultConfig [0, 0, 0, 0] 0 = .ok ([], 0) ∧
    ended (exec .lzd (job [0, 0, 0] 16 0)) = error 8 ∧ ended (exec .lzd (job [0, 0, 0, 0, 0] 16 0)) = error 8 ∧
    ended (exec .lzd (job [0, 0, 0, 0] 16 0)) = plain [] ∧
    ended (exec .lzd { job [0, 0, 0, 0, 0] 16 0 with cfg := { defaultConfig with lzTrailing := .ignore } }) = plain [] ∧
    ended (exec .lzd { job [7, 0, 0, 0] 16 0 with ctrl := 1 }) = some ([7, 10, 7, 0, 7], []) ∧
    ended (exec .lzd (job [7, 0, 0, 0] 16 0)) = some ([5, 0, 0, 0, 7], []) := by decide

/-- The payload just fits, and does not. -/
theorem witness_LzeEnds :
    RegionsOk (job [0x41] 16 6) ∧ RegionsOk (job [0x41] 16 5) ∧ ended (exec .lze (job [0x41] 16 5)) = error 11 ∧
    (lzEncode defaultConfig [0x41]).length + 4 = 6 :=
  ⟨ok _ (by decide) (by decide), ok _ (by decide) (by decide), by decide, by decide⟩

theorem test_checksum_extension :
    checksum .zero [0x80, 0x80, 0x80, 0x80] = 0x200 ∧ checksum .sign [0x80, 0x80, 0x80, 0x80] = 0xFFFFFE00 := by decide

theorem witness_TokenDecoderMeetsItsContract :
    lzDecodeTokens defaultConfig [0x01, 7, 9, 9] 1 = .ok ([7], 2) ∧ [0x01, 7].take 2 = ([0x01, 7, 9, 9] : List Byte).take 2 := by
  decide

/-- Encoded, then decoded in strict mode. -/
theorem witness_LzdAfterLzeIsLossless :
    let s := job (List.replicate 5 0) 16 32
    let u : State := { takeResult 64 s.srcLen (after .lze s) with ctrl := 1 }
    exec .lze s = .next (after .lze s) ∧ (after .lze s).errCode = 0 ∧ RegionsOk u :=
  ⟨rfl, by decide, ok _ (by decide) (by decide)⟩

/-- Nine tokens: a group of eight and one more. -/
theorem witness_TokensDecodeInOrder :
    (∀ dist len, Token.p dist len ∈ (.p 1 0 :: List.replicate 8 (.l 7) : List Token) → dist ≠ 0) ∧
    (emitGroups 9 (.p 1 0 :: List.replicate 8 (.l 7))).length = 12 := by
  refine ⟨?_, by decide⟩
  intro dist len h
  simp at h
  rw [h.1]
  decide

/-- A literal due with room for one byte; no room. -/
theorem witness_LiteralTokenAppendsItsByte :
    (let st : LzdStream := { lzdStart [0x01, 7] with sp := 1, flag := 1, bit := 0 };
      st.bit < 8 ∧ st.flag.getLsbD st.bit = true ∧ st.out.length < (job [] 0 1).dstCap.toNat) ∧
    exec (.l 7) (inGroup 1 [] 0) = .refused .tokenOutsideStream := ⟨by decide, rfl⟩

/-- The clauses of a pointer: distance 0; one byte past the expected length, refused and truncated; just up to it; not
due. -/
theorem witness_PointerTokenCopiesFromTheOutput :
    (let st : LzdStream := { lzdStart [0x00, 1, 0] with sp := 1, bit := 0 };
      st.bit < 8 ∧ st.flag.getLsbD st.bit = false ∧ st.out.length < (job [] 0 3).dstCap.toNat) ∧
    ended (exec (.p 0 0) (inGroup 0 [] 3)) = error 8 ∧ ended (exec (.p 1 0) (inGroup 0 [7] 3)) = error 8 ∧
    streamOut (exec (.p 1 0) { inGroup 0 [7] 3 with cfg := { defaultConfig with lzOvershoot := .truncate } }) =
      some [7, 7, 7] ∧
    streamOut (exec (.p 1 0) (inGroup 0 [7] 4)) = some [7, 7, 7, 7] ∧
    exec (.p 1 0) (inGroup 1 [7] 4) = .refused .tokenOutsideStream :=
  ⟨by decide, by decide, by decide, by decide, by decide, rfl⟩

theorem witness_SteppingTheTokensIsLzd :
    (job [0x01, 7, 7, 0, 0, 0] 16 1).cfg.lzFormat = .lzss ∧ RegionsOk (job [0x01, 7, 7, 0, 0, 0] 16 1) :=
  ⟨rfl, ok _ (by decide) (by decide)⟩

end Sys2Proof.Tests
end

