-- ==== Sys2Proof/Proofs/ReadOnlySource.lean ====
section
/-! PROOF. A command's results depend on its operands, `CTRL`, the parameters and the source bytes alone (rules R16, R40,
R101, R296). Two relations carry the argument, on the states a command starts from and on those it ends in; each operation
of the common sequence (rule R100) leads from the first to the second. -/

namespace Sys2Proof.Machine

/-- The two states agree on all that a command may read. -/
structure SameInputs (s s' : State) : Prop where
  src : s'.src = s.src
  srcLen : s'.srcLen = s.srcLen
  dst : s'.dst = s.dst
  dstCap : s'.dstCap = s.dstCap
  width : s'.width = s.width
  height : s'.height = s.height
  ctrl : s'.ctrl = s.ctrl
  cfg : s'.cfg = s.cfg
  source : ∀ k < s.srcLen.toNat, sourceByte s' k = sourceByte s k

/-- The two states agree on every result and status register. -/
structure SameResultRegisters (t t' : State) : Prop where
  rLen : t'.rLen = t.rLen
  rAux : t'.rAux = t.rAux
  errCode : t'.errCode = t.errCode
  errInfo : t'.errInfo = t.errInfo
  cSums : t'.cSums = t.cSums
  status : t'.status = t.status

/-- The two states agree on the result registers and on the `RLEN` bytes of the result at `dst`. -/
structure SameResult (dst : Nat) (t t' : State) : Prop extends SameResultRegisters t t' where
  bytes : ∀ k < t.rLen.toNat, readByte t' (dst + k) = readByte t (dst + k)

namespace SameInputs

variable {s s' : State}

theorem readSource_eq (h : SameInputs s s') : readSource s' = readSource s := by
  refine List.ext_getElem (by simp [h.srcLen]) fun k _ hk => ?_
  have hsource : sourceByte s' k = sourceByte s k := h.source k (by simpa using hk)
  simpa only [readSource, memRead_getElem, srcAddr, sourceByte] using hsource

theorem addressesOk_eq (h : SameInputs s s') : addressesOk s' = addressesOk s := by
  unfold addressesOk regionInMemory srcAddr srcCount dstAddr dstCount
  rw [h.src, h.srcLen, h.dst, h.dstCap, h.cfg]

theorem operandsOverlap_eq (h : SameInputs s s') : operandsOverlap s' = operandsOverlap s := by
  simp only [operandsOverlap, srcAddr, srcCount, dstAddr, dstCount, h.src, h.srcLen, h.dst, h.dstCap]

end SameInputs

/-- An error end takes nothing from the state it is raised on, and leaves no result bytes. -/
theorem raise_sameResult (code : ErrCode) (info computed : Word) (dst : Nat) (s s' : State) :
    SameResult dst (raise code info computed s) (raise code info computed s') where
  rLen := rfl
  rAux := rfl
  errCode := rfl
  errInfo := rfl
  cSums := rfl
  status := rfl
  bytes := fun _ hk => absurd hk (Nat.not_lt_zero _)

/-- A success end overwrites every byte of the result, so the memory before it does not show there. -/
theorem succeed_sameResult (out : List Byte) (aux stored : Word) (mismatch : Bool) {s s' : State} (h : s'.dst = s.dst) :
    SameResult s.dst.toNat (succeed out aux stored mismatch s) (succeed out aux stored mismatch s') where
  rLen := rfl
  rAux := rfl
  errCode := rfl
  errInfo := rfl
  cSums := rfl
  status := rfl
  bytes := fun k hk => by
    have hlen : k < out.length := by
      rw [succeed_rLen, BitVec.toNat_ofNat] at hk
      exact hk.trans_le (Nat.mod_le _ _)
    calc readByte (succeed out aux stored mismatch s') (s.dst.toNat + k)
        = readByte (succeed out aux stored mismatch s') (s'.dst.toNat + k) := by rw [h]
      _ = out[k] := readByte_succeed_inside out aux stored mismatch s' k hlen
      _ = readByte (succeed out aux stored mismatch s) (s.dst.toNat + k) :=
          (readByte_succeed_inside out aux stored mismatch s k hlen).symm

theorem endCommand_ok (out : List Byte) (aux stored : Word) (mismatch : Bool) (s : State) :
    endCommand (.ok out aux stored mismatch) s =
      if s.dstCap.toNat < out.length then raise .dstCapacity 0 0 s else succeed out aux stored mismatch s := rfl

/-- Steps 9 to 12 of rule R100: what the unit function answered decides the results, given `DST` and `DSTCAP`. -/
theorem endCommand_sameResult (r : UnitResult) {s s' : State} (hdst : s'.dst = s.dst) (hcap : s'.dstCap = s.dstCap) :
    SameResult s.dst.toNat (endCommand r s) (endCommand r s') := by
  cases r with
  | err code info computed => exact raise_sameResult code info computed _ s s'
  | ok out aux stored mismatch =>
    rw [endCommand_ok, endCommand_ok, hcap]
    split
    · exact raise_sameResult .dstCapacity 0 0 _ s s'
    · exact succeed_sameResult out aux stored mismatch hdst

/-- The common sequence makes the same checks on both states and hands the unit function the same source bytes. -/
theorem runUnit_sameResult (unit : List Byte → UnitResult) {s s' : State} (h : SameInputs s s') :
    SameResult s.dst.toNat (runUnit unit s) (runUnit unit s') := by
  simp only [runUnit, h.addressesOk_eq, h.operandsOverlap_eq, h.readSource_eq]
  split
  · exact raise_sameResult .addr 0 0 _ s s'
  · split
    · exact raise_sameResult .overlap 0 0 _ s s'
    · exact endCommand_sameResult _ h.dst h.dstCap

/-- `SIZE` reads `WIDTH` and `HEIGHT` alone. It claims no result bytes: its `RLEN` counts bytes it does not write. -/
theorem runSize_sameResultRegisters (fmt : PixelFormat) {s s' : State} (h : SameInputs s s') :
    SameResultRegisters (runSize fmt s) (runSize fmt s') := by
  simp only [runSize, h.width, h.height]
  split
  · exact (raise_sameResult .unimplementedFormat 0 0 0 s s').toSameResultRegisters
  · split
    · exact (raise_sameResult .arith 0 0 0 s s').toSameResultRegisters
    · exact ⟨rfl, rfl, rfl, rfl, rfl, rfl⟩

/-- A command with regions gives the same result on states with the same inputs: its unit function takes no other
argument than those on which they agree. -/
theorem exec_memory_command_sameResult {i : Instr} (hi : i ∈ usesMemory) {s s' t : State} (h : SameInputs s s')
    (hexec : exec i s = .next t) : ∃ t', exec i s' = .next t' ∧ SameResult s.dst.toNat t t' := by
  obtain ⟨unit, hunit⟩ := exec_memory_command i hi
  rw [hunit s] at hexec
  cases hexec
  refine ⟨_, hunit s', ?_⟩
  simp only [strictBit, dstCount, h.cfg, h.ctrl, h.dstCap, h.width, h.height]
  exact runUnit_sameResult _ h

/-- Every command gives the same result registers on states with the same inputs, and the same result bytes where it has
a destination region. -/
theorem exec_command_sameResult {i : Instr} (hi : i.isCommand = true) {s s' t : State} (h : SameInputs s s')
    (hexec : exec i s = .next t) :
    ∃ t', exec i s' = .next t' ∧ SameResultRegisters t t' ∧ (i ∈ usesMemory → SameResult s.dst.toNat t t') := by
  by_cases hmem : i ∈ usesMemory
  · obtain ⟨t', hexec', hsame⟩ := exec_memory_command_sameResult hmem h hexec
    exact ⟨t', hexec', hsame.toSameResultRegisters, fun _ => hsame⟩
  · obtain ⟨fmt, hsize⟩ := (exec_command_cases i hi).resolve_left hmem
    rw [hsize s] at hexec
    cases hexec
    exact ⟨_, hsize s', runSize_sameResultRegisters fmt h, fun hmem' => absurd hmem' hmem⟩

/-- Settles O25: the two states have the same inputs, so `exec_command_sameResult` gives the second run. -/
theorem commandsReadOnlyTheirSource : Obligations.CommandsReadOnlyTheirSource := by
  intro i s s' t hi hsrc hsrcLen hdst hdstCap hwidth hheight hctrl hcfg hsource hexec
  have h : SameInputs s s' := ⟨hsrc, hsrcLen, hdst, hdstCap, hwidth, hheight, hctrl, hcfg, hsource⟩
  obtain ⟨t', hexec', hregs, hresult⟩ := exec_command_sameResult hi h hexec
  exact ⟨t', hexec', hregs.rLen, hregs.rAux, hregs.errCode, hregs.errInfo, hregs.cSums, hregs.status,
    fun hmem => (hresult hmem).bytes⟩

end Sys2Proof.Machine
end

/-! PROOF. What every step keeps (rules R20, R21, R27 to R35). `CommandEnd` says in what states a command can end and
`StepResult` to what states a step can lead; each is tied to the model by one lemma, and the invariants are read off the
cases. -/

namespace Sys2Proof.Machine

/-! ### How a command ends -/

/-- The errors that report a value in `ERRINFO` (rules R35, R266). -/
def reportingCodes : List ErrCode := [.rleTruncated, .lzStream, .checksum]

/-- A unit function's answer gives an info only with a code that reports one. -/
def UnitResult.InfoOk : UnitResult → Prop
  | .ok _ _ _ _ => True
  | .err code info _ => code ∉ reportingCodes → info = 0

@[simp] theorem infoOk_ok (out : List Byte) (aux stored : Word) (mismatch : Bool) :
    (UnitResult.ok out aux stored mismatch).InfoOk := trivial

@[simp] theorem infoOk_okBytes (out : List Byte) : (okBytes out).InfoOk := trivial

@[simp] theorem infoOk_errPlain (code : ErrCode) : (errPlain code).InfoOk := fun _ => rfl

theorem infoOk_err_of_reporting {code : ErrCode} (h : code ∈ reportingCodes) (info computed : Word) :
    (UnitResult.err code info computed).InfoOk := fun hn => absurd h hn

@[simp] theorem infoOk_lzStreamError (at' : Nat) : (lzStreamError at').InfoOk :=
  infoOk_err_of_reporting (by decide) _ _

theorem infoOk_toCanonical (c : Config) (fmt : PackedFormat) (src : List Byte) : (toCanonical c fmt src).InfoOk := by
  unfold toCanonical
  split <;> simp

theorem infoOk_fromCanonical (c : Config) (fmt : PackedFormat) (src : List Byte) :
    (fromCanonical c fmt src).InfoOk := by
  unfold fromCanonical
  split <;> simp

theorem infoOk_blockDecode (c : Config) (fmt : BlockFormat) (w h : Nat) (src : List Byte) :
    (blockDecode c fmt w h src).InfoOk := by
  unfold blockDecode
  cases bcVariant c fmt with
  | none => simp
  | some v => dsimp only; split_ifs <;> simp

theorem infoOk_blockEncode (c : Config) (fmt : BlockFormat) (w h : Nat) (src : List Byte) :
    (blockEncode c fmt w h src).InfoOk := by
  unfold blockEncode
  cases bcVariant c fmt with
  | none => simp
  | some v => dsimp only; split_ifs <;> simp

theorem infoOk_rldResult (r : Except Nat (List Byte)) : (rldResult r).InfoOk := by
  cases r with
  | error at' => exact infoOk_err_of_reporting (by decide) _ _
  | ok out => exact infoOk_okBytes out

theorem infoOk_lzdTrailer (c : Config) (strict : Bool) (src out : List Byte) (used : Nat) :
    (lzdTrailer c strict src out used).InfoOk := by
  unfold lzdTrailer
  dsimp only
  split_ifs
  · exact infoOk_lzStreamError used
  · exact infoOk_lzStreamError used
  · exact infoOk_err_of_reporting (by decide) _ _
  · exact infoOk_ok _ _ _ _

theorem infoOk_lzdUnit (c : Config) (strict : Bool) (n : Nat) (src : List Byte) : (lzdUnit c strict n src).InfoOk := by
  unfold lzdUnit
  split
  · exact infoOk_lzStreamError _
  · exact infoOk_lzdTrailer _ _ _ _ _

theorem infoOk_lzeUnit (c : Config) (src : List Byte) : (lzeUnit c src).InfoOk := infoOk_ok _ _ _ _

/-- How a command that starts on `s` may end: an error with its info, a result that fits its destination after the region
checks, or the answer of a `SIZE`. -/
inductive CommandEnd (s : State) : State → Prop
  | error (code : ErrCode) (info computed : Word) (hinfo : code ∉ reportingCodes → info = 0) :
      CommandEnd s (raise code info computed s)
  | success (out : List Byte) (aux stored : Word) (mismatch : Bool) (hregions : RegionsOk s)
      (hfits : out.length ≤ s.dstCap.toNat) : CommandEnd s (succeed out aux stored mismatch s)
  | size (p : Nat) : CommandEnd s (sizeEnd p s)

theorem endCommand_commandEnd {r : UnitResult} {s : State} (hr : r.InfoOk) (hregions : RegionsOk s) :
    CommandEnd s (endCommand r s) := by
  obtain ⟨code, info, computed, rfl, hend⟩ | ⟨out, aux, stored, mismatch, rfl, -, hend⟩ |
    ⟨out, aux, stored, mismatch, rfl, hfits, hend⟩ := endCommand_cases r s
  · exact hend ▸ .error code info computed hr
  · exact hend ▸ .error .dstCapacity 0 0 fun _ => rfl
  · exact hend ▸ .success out aux stored mismatch hregions hfits

theorem runUnit_commandEnd {unit : List Byte → UnitResult} (hunit : ∀ src, (unit src).InfoOk) {s t : State}
    (h : Host.Outcome.next (runUnit unit s) = (.next t : Host.Outcome State Fault Refusal)) : CommandEnd s t := by
  cases h
  obtain ⟨-, -, hend⟩ | ⟨-, -, hend⟩ | ⟨hregions, hend⟩ := runUnit_cases unit s
  · exact hend ▸ .error .addr 0 0 fun _ => rfl
  · exact hend ▸ .error .overlap 0 0 fun _ => rfl
  · exact hend ▸ endCommand_commandEnd (hunit _) hregions

theorem runSize_commandEnd {fmt : PixelFormat} {s t : State}
    (h : Host.Outcome.next (runSize fmt s) = (.next t : Host.Outcome State Fault Refusal)) : CommandEnd s t := by
  cases h
  obtain ⟨-, hend⟩ | ⟨p, -, -, hend⟩ | ⟨p, -, -, hend⟩ := runSize_cases fmt s
  · exact hend ▸ .error .unimplementedFormat 0 0 fun _ => rfl
  · exact hend ▸ .error .arith 0 0 fun _ => rfl
  · exact hend ▸ .size p

/-- Every command ends as `CommandEnd` says. -/
theorem exec_commandEnd {i : Instr} {s t : State} (hi : i.isCommand = true) (h : exec i s = .next t) :
    CommandEnd s t := by
  cases i with
  | pxdP4444 | pxdP1555 | pxdP8888 => exact runUnit_commandEnd (infoOk_toCanonical _ _) h
  | pxeP4444 | pxeP1555 | pxeP8888 => exact runUnit_commandEnd (infoOk_fromCanonical _ _) h
  | bcdBlk1 | bcdBlk2 | bcdBlk3 | bcdBlk4 | bcdBlk5 => exact runUnit_commandEnd (infoOk_blockDecode _ _ _ _) h
  | bceBlk1 | bceBlk2 | bceBlk3 | bceBlk4 | bceBlk5 => exact runUnit_commandEnd (infoOk_blockEncode _ _ _ _) h
  | rld => exact runUnit_commandEnd (fun src => infoOk_rldResult (decodeRle src)) h
  | rle => exact runUnit_commandEnd (fun src => infoOk_okBytes (rleEncode s.cfg src)) h
  | lzd => exact runUnit_commandEnd (infoOk_lzdUnit _ _ _) h
  | lze => exact runUnit_commandEnd (infoOk_lzeUnit _) h
  | sizeBlk1 | sizeBlk2 | sizeBlk3 | sizeBlk4 | sizeBlk5 | sizeP4444 | sizeP1555 | sizeP8888 | sizeIndexed =>
    exact runSize_commandEnd h
  | rep | lit | l | p => cases hi

theorem CommandEnd.stream_eq_none {s t : State} (h : CommandEnd s t) : t.stream = none := by
  cases h <;> rfl

theorem CommandEnd.cfg_eq {s t : State} (h : CommandEnd s t) : t.cfg = s.cfg := by
  cases h <;> rfl

/-- The part of `Sound` that no command's end sets afresh: parameters, memory and `CTRL`. -/
structure SoundStore (s : State) : Prop where
  cfg : s.cfg.Wf
  mem_wf : s.mem.wf = true
  mem_range : ∀ cell ∈ s.mem, cell.1 < s.cfg.memSize
  ctrl : s.ctrl.toNat ≤ 1

theorem Sound.store {s : State} (h : Sound s) : SoundStore s := ⟨h.cfg, h.mem_wf, h.mem_range, h.ctrl⟩

/-- Bytes written inside buffer memory leave a memory whose entries lie inside it. -/
theorem memWrite_range {m : Memory} {a size : Nat} {vs : List Byte} (hm : ∀ cell ∈ m, cell.1 < size)
    (hvs : vs = [] ∨ a + vs.length ≤ size) : ∀ cell ∈ memWrite m a vs, cell.1 < size := by
  intro cell hcell
  obtain hold | ⟨hlo, hhi⟩ := mem_memWrite vs m a cell hcell
  · exact hm cell hold
  · obtain rfl | hle := hvs
    · simp only [List.length_nil] at hhi; omega
    · omega

/-- The flags and codes of an error end are legal and agree (rules R33, R103, R260). -/
theorem raise_sound {code : ErrCode} {info computed : Word} {s : State} (h : SoundStore s)
    (hinfo : code ∉ reportingCodes → info = 0) : Sound (raise code info computed s) where
  cfg := h.cfg
  mem_wf := h.mem_wf
  mem_range := h.mem_range
  ctrl := h.ctrl
  status := by cases code <;> simp [errorStatus_eq]
  errCode := (errNumber_toNat code).2
  err_flag := fun _ => by cases code <;> simp [errorStatus_eq, errNumber]
  errInfo := fun h7 h8 h10 => hinfo fun hmem => by
    simp only [reportingCodes, List.mem_cons, List.not_mem_nil, or_false] at hmem
    obtain rfl | rfl | rfl := hmem
    · exact h7 rfl
    · exact h8 rfl
    · exact h10 rfl
  stream := fun _ hst => absurd hst (by simp)

/-- A result that fits a destination inside buffer memory is written inside it. -/
theorem succeed_sound {out : List Byte} {aux stored : Word} {mismatch : Bool} {s : State} (h : SoundStore s)
    (hregions : RegionsOk s) (hfits : out.length ≤ s.dstCap.toNat) : Sound (succeed out aux stored mismatch s) where
  cfg := h.cfg
  mem_wf := succeed_mem_wf _ _ _ _ _ h.mem_wf
  mem_range := memWrite_range h.mem_range (.inr ((Nat.add_le_add_left hfits _).trans hregions.destination))
  ctrl := h.ctrl
  status := by cases mismatch <;> simp [successStatus_eq]
  errCode := by simp
  err_flag := fun _ => by cases mismatch <;> simp [successStatus_eq]
  errInfo := fun _ _ _ => rfl
  stream := fun _ hst => absurd hst (by simp)

theorem sizeEnd_sound {p : Nat} {s : State} (h : SoundStore s) : Sound (sizeEnd p s) where
  cfg := h.cfg
  mem_wf := h.mem_wf
  mem_range := h.mem_range
  ctrl := h.ctrl
  status := by simp [successStatus_eq]
  errCode := by simp
  err_flag := fun _ => by simp [successStatus_eq]
  errInfo := fun _ _ _ => rfl
  stream := fun _ hst => absurd hst (by simp)

theorem CommandEnd.sound {s t : State} (h : CommandEnd s t) (hs : SoundStore s) : Sound t := by
  cases h with
  | error code info computed hinfo => exact raise_sound hs hinfo
  | success out aux stored mismatch hregions hfits => exact succeed_sound hs hregions hfits
  | size p => exact sizeEnd_sound hs

/-! ### Packets and tokens -/

@[simp] theorem rldApply_src (packet : Packet) (st : RldStream) : (rldApply packet st).src = st.src := by
  cases packet <;> rfl

@[simp] theorem rldApply_mode (packet : Packet) (st : RldStream) : (rldApply packet st).mode = st.mode := by
  cases packet <;> rfl

@[simp] theorem rldApply_fsp (packet : Packet) (st : RldStream) : (rldApply packet st).fsp = st.sp := by
  cases packet <;> rfl

/-- The cursor moves over the packet's bytes, which are bytes of the source (rules R84, R164). -/
theorem rldApply_sp_of_rldFetch {st : RldStream} {packet : Packet} (h : rldFetch st = .ok packet) :
    st.sp < (rldApply packet st).sp ∧ (rldApply packet st).sp ≤ st.src.length := by
  unfold rldFetch at h
  split at h
  · next packet' more hd =>
    cases h
    obtain ⟨hlen, -, -⟩ := decodePacket_ok hd
    rw [List.length_drop] at hlen
    cases packet <;> simp only [rldApply, rldRep, rldLit] at hlen ⊢ <;> omega
  · cases h

theorem rldApply_streamOk {s : State} {st : RldStream} {packet : Packet} (hm : st.mode = .flag)
    (h : rldFetch st = .ok packet) : StreamOk s (.rld (rldApply packet st)) := by
  obtain ⟨hlt, hle⟩ := rldApply_sp_of_rldFetch h
  exact ⟨by simpa using hle, by simpa using hlt.le, .inl (by simpa using hm)⟩

/-- One byte of a packet that has been begun keeps the cursors in range and the count of bytes left from 1 to 128. -/
theorem rldByte_streamOk {s : State} {st : RldStream} {c : Byte} (h : StreamOk s (.rld st)) (hsp : st.sp < st.src.length)
    (hm : st.mode ≠ .flag) : StreamOk s (.rld (rldByte c st)) := by
  obtain ⟨-, hfsp, hmode⟩ := h
  obtain ⟨k, hk1, hk128, hlit | hrep⟩ := hmode.resolve_left hm
  · simp only [rldByte, hlit, StreamOk]
    refine ⟨hsp, by omega, ?_⟩
    by_cases hk : k ≤ 1
    · exact .inl (if_pos hk)
    · exact .inr ⟨k - 1, by omega, by omega, .inl (if_neg hk)⟩
  · simp only [rldByte, hrep, StreamOk]
    exact ⟨hsp, by omega, .inl trivial⟩

/-- A token that is applied uses its bytes and its flag bit, and emits at least one byte and none past the expected
length (rules R188 to R190). -/
theorem lzdApply_ok {c : Config} {n : Nat} {token : Token} {st st' : LzdStream} (h : lzdApply c n token st = .ok st')
    (hn : st.out.length < n) :
    st'.src = st.src ∧ st'.fsp = st.fsp ∧ st'.sp = st.sp + (if token.isLiteral then 1 else 2) ∧
      st'.bit = st.bit + 1 ∧ st.out.length < st'.out.length ∧ st'.out.length ≤ n := by
  cases token with
  | l b =>
    cases h
    exact ⟨rfl, rfl, rfl, rfl, by simp [lzdLiteral], by simpa [lzdLiteral] using hn⟩
  | p dist len =>
    simp only [lzdApply, lzdPointer] at h
    split_ifs at h
    cases h
    have hpos : 3 ≤ pointerLength len := Nat.le_add_left 3 _
    refine ⟨rfl, rfl, rfl, rfl, ?_, ?_⟩ <;> simp only [copyBack_length] <;> omega

theorem lzdGroup_bit_lt {st g : LzdStream} (h : lzdGroup st = .ok g) : g.bit < 8 := by
  obtain ⟨hbit, rfl⟩ | ⟨-, -, rfl⟩ := lzdGroup_cases h
  · exact hbit
  · exact Nat.zero_lt_succ 7

theorem lzdGroup_out {st g : LzdStream} (h : lzdGroup st = .ok g) : g.out = st.out := by
  obtain ⟨-, rfl⟩ | ⟨-, -, rfl⟩ := lzdGroup_cases h <;> rfl

theorem lzdGroup_src {st g : LzdStream} (h : lzdGroup st = .ok g) : g.src = st.src := by
  obtain ⟨-, rfl⟩ | ⟨-, -, rfl⟩ := lzdGroup_cases h <;> rfl

theorem lzdGroup_streamOk {s : State} {st g : LzdStream} (h : lzdGroup st = .ok g) (hst : StreamOk s (.lzd st)) :
    StreamOk s (.lzd g) := by
  obtain ⟨-, rfl⟩ | ⟨-, hsp, rfl⟩ := lzdGroup_cases h
  · exact hst
  · exact ⟨hsp, Nat.le_succ _, Nat.zero_le 8, hst.2.2.2⟩

/-- A token that was fetched where its group stands keeps the stream sound. -/
theorem lzdApply_streamOk {s : State} {c : Config} {token : Token} {st st' : LzdStream} (hst : StreamOk s (.lzd st))
    (hbit : st.bit < 8) (hout : st.out.length < s.dstCap.toNat) (hfetch : lzdFetch st = .ok token)
    (happly : lzdApply c s.dstCap.toNat token st = .ok st') : StreamOk s (.lzd st') := by
  obtain ⟨-, hfsp, -, -⟩ := hst
  obtain ⟨-, hroom⟩ := lzdFetch_ok hfetch
  obtain ⟨hsrc, hfsp', hsp, hbit', -, hle⟩ := lzdApply_ok happly hout
  refine ⟨?_, ?_, ?_, hle⟩
  · rw [hsp, hsrc]; exact hroom
  · rw [hsp, hfsp']; omega
  · omega

/-- With its group read, the token at the cursor runs. -/
theorem atToken_of_lzdFetch {n : Nat} {st : LzdStream} {token : Token} (hbit : st.bit < 8) (hout : st.out.length < n)
    (hfetch : lzdFetch st = .ok token) : atToken token.isLiteral n st = true := by
  simp [atToken, hbit, hout, (lzdFetch_ok hfetch).1]

/-- An element's state inside the stream does not show in the command's end, which discards it. -/
@[simp] theorem endCommand_stream (r : UnitResult) (x : Option Stream) (s : State) :
    endCommand r { s with stream := x } = endCommand r s := by
  cases r <;> rfl

/-! ### Where a step leads -/

/-- The state to which a step from `s` may lead. Between commands (`stream = none`) it is idle, or what one action of the
host does; inside a stream command it is one element further, or the command's end. -/
inductive StepResult (s : State) : State → Prop
  | idle (hs : s.stream = none) : StepResult s s
  | writeReg (offset value : Word) (rest : List HostAction) (hs : s.stream = none) :
      StepResult s (sees .nothing (writeReg offset value { s with host := rest }))
  | observe (seen : HostSeen) (rest : List HostAction) (hs : s.stream = none) :
      StepResult s (sees seen { s with host := rest })
  | storeMem (addr : Word) (bytes : List Byte) (rest : List HostAction) (hs : s.stream = none)
      (hin : hostAccessOk s addr bytes.length = true) :
      StepResult s (sees .nothing (hostStore addr bytes { s with host := rest }))
  | reset (rest : List HostAction) (hs : s.stream = none) : StepResult s (resetEngine { s with host := rest })
  | command (w : Word) (rest : List HostAction) (t : State) (hs : s.stream = none)
      (hend : CommandEnd (beginCommand w (sees .nothing { s with host := rest })) t) : StepResult s t
  | element (x y : Stream) (hs : s.stream = some x) (hok : StreamOk s x → StreamOk s y) :
      StepResult s { s with stream := some y }
  | streamEnd (x : Stream) (r : UnitResult) (hs : s.stream = some x) (hr : r.InfoOk) : StepResult s (endCommand r s)

/-- The words that decode as commands decode to commands, never to packets or tokens. -/
theorem isCommand_of_decodeCommand {w : Word} {i : Instr} (h : decodeCommand w = .ok i) : i.isCommand = true := by
  simp only [decodeCommand, decodeOperation] at h
  split at h
  · cases h
  · split at h
    case h_10 => cases h
    all_goals
      simp only [decodePxd, decodePxe, decodeBcd, decodeBce, decodeFormatless, decodeSize] at h
      split at h <;> cases h <;> rfl

/-- A write of `CMD` between commands ends a command, whether its word is legal or not (rules R31, R261). -/
theorem stepResult_of_issueCommand {s t : State} (w : Word) (rest : List HostAction) (hs : s.stream = none)
    (hfetch : fetch s = issueCommand w (sees .nothing { s with host := rest })) (hstep : step s = .next t) :
    StepResult s t := by
  obtain ⟨i, hi, hissue⟩ | ⟨e, -, hissue⟩ := issueCommand_cases w (sees .nothing { s with host := rest })
  · rw [step_of_run (hfetch.trans hissue)] at hstep
    exact .command w rest t hs (exec_commandEnd (isCommand_of_decodeCommand hi) hstep)
  · rw [step_of_done (hfetch.trans hissue)] at hstep
    cases hstep
    exact .command w rest _ hs (.error .illegalCmd 0 0 fun _ => rfl)

theorem stepResult_of_hostAction {s t : State} {action : HostAction} {rest : List HostAction} (hs : s.stream = none)
    (hh : s.host = action :: rest) (hstep : step s = .next t) : StepResult s t := by
  have hfetch := fetch_host s action rest hs hh
  cases action with
  | writeReg offset value =>
    by_cases hcmd : offset = cmdOffset
    · exact stepResult_of_issueCommand value rest hs (hfetch.trans (if_pos hcmd)) hstep
    · rw [step_of_done (hfetch.trans (if_neg hcmd))] at hstep
      cases hstep
      exact .writeReg offset value rest hs
  | readReg offset =>
    rw [step_of_done hfetch] at hstep
    cases hstep
    exact .observe _ rest hs
  | storeMem addr bytes =>
    by_cases hin : hostAccessOk s addr bytes.length = true
    · rw [step_of_done (hfetch.trans (if_pos hin))] at hstep
      cases hstep
      exact .storeMem addr bytes rest hs hin
    · rw [step_of_stop (hfetch.trans (if_neg hin))] at hstep
      cases hstep
  | loadMem addr n =>
    by_cases hin : hostAccessOk s addr n = true
    · rw [step_of_done (hfetch.trans (if_pos hin))] at hstep
      cases hstep
      exact .observe _ rest hs
    · rw [step_of_stop (hfetch.trans (if_neg hin))] at hstep
      cases hstep
  | reset =>
    rw [step_of_done hfetch] at hstep
    cases hstep
    exact .reset rest hs

/-- The step at a flag byte where a packet decodes is that packet's execution (rules R107, R160). -/
theorem step_eq_exec_packet {s : State} {st : RldStream} {packet : Packet} (hs : s.stream = some (.rld st))
    (hsp : st.sp < st.src.length) (hm : st.mode = .flag) (hpacket : rldFetch st = .ok packet) :
    step s = exec packet.toInstr s := by
  have hnext : rldNext st s = .run packet.toInstr s := by simp [rldNext, Nat.not_le.2 hsp, hm, hpacket]
  exact step_of_run ((fetch_rld s st hs).trans hnext)

theorem step_of_packet {s : State} {st : RldStream} {packet : Packet} (hs : s.stream = some (.rld st))
    (hsp : st.sp < st.src.length) (hm : st.mode = .flag) (hpacket : rldFetch st = .ok packet) :
    step s = .next { s with stream := some (.rld (rldApply packet st)) } := by
  rw [step_eq_exec_packet hs hsp hm hpacket, exec_toInstr_packet, execPacket_next packet s st hs hm]

theorem stepResult_of_rld {s t : State} {st : RldStream} (hs : s.stream = some (.rld st)) (hstep : step s = .next t) :
    StepResult s t := by
  have hfetch := fetch_rld s st hs
  obtain ⟨-, hnext⟩ | ⟨-, -, at', -, hnext⟩ | ⟨hsp, hm, packet, hpacket, -⟩ | ⟨hsp, hm, hnext⟩ := rldNext_cases st s
  · rw [step_of_done (hfetch.trans hnext)] at hstep
    cases hstep
    exact .streamEnd _ _ hs (infoOk_rldResult _)
  · rw [step_of_done (hfetch.trans hnext)] at hstep
    cases hstep
    exact .streamEnd _ _ hs (infoOk_rldResult _)
  · rw [step_of_packet hs hsp hm hpacket] at hstep
    cases hstep
    exact .element _ _ hs fun _ => rldApply_streamOk hm hpacket
  · rw [step_of_done (hfetch.trans hnext)] at hstep
    cases hstep
    exact .element _ _ hs fun hok => rldByte_streamOk hok hsp hm

/-- The step while output is owed is the execution of the token at the cursor, after its group's flag where one is due
(rules R107, R187). -/
theorem step_eq_exec_token {s : State} {st g : LzdStream} {token : Token} (hs : s.stream = some (.lzd st))
    (hout : st.out.length < s.dstCap.toNat) (hgroup : lzdGroup st = .ok g) (htoken : lzdFetch g = .ok token) :
    step s = exec token.toInstr { s with stream := some (.lzd g) } := by
  have hnext : lzdNext st s = .run token.toInstr { s with stream := some (.lzd g) } := by
    simp [lzdNext, dstCount, hgroup, htoken, Nat.not_le.2 hout]
  exact step_of_run ((fetch_lzd s st hs).trans hnext)

theorem step_of_token {s : State} {st g : LzdStream} {token : Token} (hs : s.stream = some (.lzd st))
    (hout : st.out.length < s.dstCap.toNat) (hgroup : lzdGroup st = .ok g) (htoken : lzdFetch g = .ok token) :
    step s = .next (lzdContinue (lzdApply s.cfg s.dstCap.toNat token g) { s with stream := some (.lzd g) }) := by
  have hat : atToken token.isLiteral s.dstCap.toNat g = true :=
    atToken_of_lzdFetch (lzdGroup_bit_lt hgroup) (by rwa [lzdGroup_out hgroup]) htoken
  rw [step_eq_exec_token hs hout hgroup htoken, exec_toInstr_token]
  exact execToken_next token _ g rfl hat

theorem stepResult_of_lzd {s t : State} {st : LzdStream} (hs : s.stream = some (.lzd st)) (hstep : step s = .next t) :
    StepResult s t := by
  have hfetch := fetch_lzd s st hs
  obtain ⟨-, hnext⟩ | ⟨-, at', hnext, -⟩ | ⟨hout, g, token, hgroup, htoken, -⟩ := lzdNext_cases st s
  · rw [step_of_done (hfetch.trans hnext)] at hstep
    cases hstep
    exact .streamEnd _ _ hs (infoOk_lzdTrailer _ _ _ _ _)
  · rw [step_of_done (hfetch.trans hnext)] at hstep
    cases hstep
    exact .streamEnd _ _ hs (infoOk_lzStreamError at')
  · rw [step_of_token hs hout hgroup htoken] at hstep
    cases happly : lzdApply s.cfg s.dstCap.toNat token g with
    | ok st' =>
      rw [happly] at hstep
      cases hstep
      exact .element _ (.lzd st') hs fun hok =>
        lzdApply_streamOk (lzdGroup_streamOk hgroup hok) (lzdGroup_bit_lt hgroup) (by rwa [lzdGroup_out hgroup]) htoken
          happly
    | error at' =>
      rw [happly, lzdContinue, endCommand_stream] at hstep
      cases hstep
      exact .streamEnd _ _ hs (infoOk_lzStreamError at')

/-- Every step that answers a next state leads to one of the states of `StepResult`. -/
theorem stepResult_of_step {s t : State} (hstep : step s = .next t) : StepResult s t := by
  cases hs : s.stream with
  | none =>
    cases hh : s.host with
    | nil =>
      rw [step_of_done (fetch_idle s hs hh)] at hstep
      cases hstep
      exact .idle hs
    | cons action rest => exact stepResult_of_hostAction hs hh hstep
  | some x =>
    cases x with
    | rld st => exact stepResult_of_rld hs hstep
    | lzd st => exact stepResult_of_lzd hs hstep

/-! ### Host register writes -/

/-- What a host register write leaves as it is: the read-only registers, memory, and the model's own fields (rules R22,
R26, R32). -/
structure KeepsReadOnly (s t : State) : Prop where
  cmd : t.cmd = s.cmd
  status : t.status = s.status
  errCode : t.errCode = s.errCode
  errInfo : t.errInfo = s.errInfo
  cSums : t.cSums = s.cSums
  mem : t.mem = s.mem
  stream : t.stream = s.stream
  cfg : t.cfg = s.cfg
  host : t.host = s.host
  epoch : t.epoch = s.epoch

theorem writeReg_keepsReadOnly (offset value : Word) (s : State) :
    KeepsReadOnly s (writeReg offset value s) := by
  unfold writeReg
  split <;> exact ⟨rfl, rfl, rfl, rfl, rfl, rfl, rfl, rfl, rfl, rfl⟩

/-- `CTRL` keeps bit 0 of what is written to it, and so its reserved bits stay 0 (rule R32). -/
theorem writeReg_ctrl_le (offset value : Word) {s : State} (h : s.ctrl.toNat ≤ 1) :
    (writeReg offset value s).ctrl.toNat ≤ 1 := by
  unfold writeReg
  split
  case h_9 => exact (BitVec.toNat_and value 1).trans_le Nat.and_le_right
  all_goals exact h

/-! ### Soundness of each case of a step -/

section SoundSteps

variable {s : State}

/-- What the host sees and what it will do next are no part of the invariant. -/
theorem Sound.sees_host (h : Sound s) (seen : HostSeen) (rest : List HostAction) :
    Sound (sees seen { s with host := rest }) :=
  ⟨h.cfg, h.mem_wf, h.mem_range, h.ctrl, h.status, h.errCode, h.err_flag, h.errInfo,
    fun st hst => ⟨by cases st <;> exact (h.stream _ hst).1,
      (h.stream st hst).2.source, (h.stream st hst).2.destination, (h.stream st hst).2.apart⟩⟩

/-- Between commands a host write of the registers changes nothing of the invariant but `CTRL`. -/
theorem Sound.writeReg (h : Sound s) (hs : s.stream = none) (offset value : Word) :
    Sound (writeReg offset value s) := by
  have k := writeReg_keepsReadOnly offset value s
  refine ⟨?_, ?_, ?_, writeReg_ctrl_le offset value h.ctrl, ?_, ?_, ?_, ?_, ?_⟩
  · rw [k.cfg]; exact h.cfg
  · rw [k.mem]; exact h.mem_wf
  · rw [k.mem, k.cfg]; exact h.mem_range
  · rw [k.status]; exact h.status
  · rw [k.errCode]; exact h.errCode
  · rw [k.stream, k.status, k.errCode]; exact h.err_flag
  · rw [k.errCode, k.errInfo]; exact h.errInfo
  · rw [k.stream, hs]; exact fun _ hst => absurd hst (by simp)

/-- A host store inside buffer memory, between commands, keeps the memory canonical and inside it (rule R40). -/
theorem Sound.hostStore (h : Sound s) (hs : s.stream = none) {addr : Word} {bytes : List Byte}
    (hin : hostAccessOk s addr bytes.length = true) : Sound (hostStore addr bytes s) where
  cfg := h.cfg
  mem_wf := hostStore_mem_wf addr bytes s h.mem_wf
  mem_range := memWrite_range h.mem_range (by simpa [hostAccessOk] using hin)
  ctrl := h.ctrl
  status := h.status
  errCode := h.errCode
  err_flag := h.err_flag
  errInfo := h.errInfo
  stream := fun _ hst => absurd (hs.symm.trans hst) (by simp)

/-- With every register 0, no byte written and no command running, a state with admissible parameters is sound. -/
theorem resetValues_sound {c : Config} (h : c.Wf) (host : List HostAction) (epoch : Nat) :
    Sound { State.reset with cfg := c, host := host, epoch := epoch } where
  cfg := h
  mem_wf := reset_mem_wf
  mem_range := fun _ hcell => absurd hcell (by simp)
  ctrl := Nat.zero_le 1
  status := .inl rfl
  errCode := Nat.zero_le 12
  err_flag := fun _ => by simp [State.reset]
  errInfo := fun _ _ _ => rfl
  stream := fun _ hst => absurd hst (by simp)

/-- A stream that is sound keeps the state inside a command sound: nothing outside it moves. -/
theorem Sound.element (h : Sound s) {x y : Stream} (hs : s.stream = some x) (hok : StreamOk s x → StreamOk s y) :
    Sound { s with stream := some y } :=
  ⟨h.cfg, h.mem_wf, h.mem_range, h.ctrl, h.status, h.errCode, fun hnone => absurd hnone (by simp), h.errInfo,
    fun z hz => by
      cases hz
      obtain ⟨hx, hregions⟩ := h.stream x hs
      exact ⟨by have hy := hok hx; cases y <;> exact hy, hregions.source, hregions.destination, hregions.apart⟩⟩

end SoundSteps

/-- Settles O13, case by case of what a step can do. -/
theorem stepKeepsSound : Obligations.StepKeepsSound := by
  intro s t h hstep
  cases stepResult_of_step hstep with
  | idle _ => exact h
  | writeReg offset value rest hs =>
    exact ((h.sees_host s.seen rest).writeReg hs offset value).sees_host .nothing _
  | observe seen rest _ => exact h.sees_host seen rest
  | storeMem addr bytes rest hs hin =>
    exact ((h.sees_host s.seen rest).hostStore hs hin).sees_host .nothing _
  | reset rest _ => exact resetValues_sound h.cfg rest (s.epoch + 1)
  | command w rest _ _ hend => exact hend.sound ⟨h.cfg, h.mem_wf, h.mem_range, h.ctrl⟩
  | element x y hs hok => exact h.element hs hok
  | streamEnd x r hs hr => exact (endCommand_commandEnd hr (h.stream x hs).2).sound h.store

/-- Settles O14: a command's end discards the stream, and no step from a state between commands is one of a stream. -/
theorem nothingHiddenBetweenCommands : Obligations.NothingHiddenBetweenCommands := by
  refine ⟨fun i s t hi hexec => (exec_commandEnd hi hexec).stream_eq_none, fun s t hs hstep => ?_⟩
  cases stepResult_of_step hstep with
  | idle _ => exact hs
  | writeReg offset value rest _ => exact (writeReg_keepsReadOnly offset value _).stream.trans hs
  | observe seen rest _ => exact hs
  | storeMem addr bytes rest _ _ => exact hs
  | reset rest _ => rfl
  | command w rest _ _ hend => exact hend.stream_eq_none
  | element x y hx _ => exact absurd (hs.symm.trans hx) (by simp)
  | streamEnd x r hx _ => exact absurd (hs.symm.trans hx) (by simp)

theorem endCommand_cfg (r : UnitResult) (s : State) : (endCommand r s).cfg = s.cfg := by
  obtain ⟨_, _, _, -, hend⟩ | ⟨_, _, _, _, -, -, hend⟩ | ⟨_, _, _, _, -, -, hend⟩ := endCommand_cases r s <;>
    rw [hend] <;> rfl

/-- Settles O15: no case of a step writes the parameters. -/
theorem parametersNeverChange : Obligations.ParametersNeverChange := by
  intro s t hstep
  cases stepResult_of_step hstep with
  | idle _ => rfl
  | writeReg offset value rest _ => exact (writeReg_keepsReadOnly offset value _).cfg
  | observe seen rest _ => rfl
  | storeMem addr bytes rest _ _ => rfl
  | reset rest _ => rfl
  | command w rest _ _ hend => exact hend.cfg_eq
  | element x y _ _ => rfl
  | streamEnd x r _ _ => exact endCommand_cfg r s

end Sys2Proof.Machine

/-! PROOF. Stepping through a stream ends where the atomic command ends (rules R28, R107, R160, R187): each turn of a
decoder's loop is one step of the machine, by induction on the loop's fuel. -/

namespace Sys2Proof.Machine

/-- Some number of steps leads from `s` to `t`. -/
def RunsTo (s t : State) : Prop := ∃ k, Host.Core.run Sys2Proof.core k s = .next t

theorem RunsTo.head {s t u : State} (hstep : step s = .next t) (h : RunsTo t u) : RunsTo s u := by
  obtain ⟨k, hk⟩ := h
  have hcore : Sys2Proof.core.step s = .next t := hstep
  exact ⟨k + 1, by simpa only [Host.Core.run, hcore] using hk⟩

theorem RunsTo.single {s t : State} (hstep : step s = .next t) : RunsTo s t := .head hstep ⟨0, rfl⟩

/-! ### Packet by packet -/

theorem decodeRle_eq_map (src : List Byte) :
    decodeRle src = (rldLoop src.length (rldStart src)).map RldStream.out := by
  unfold decodeRle
  cases rldLoop src.length (rldStart src) <;> rfl

theorem rldLoop_of_exhausted {st : RldStream} (h : st.src.length ≤ st.sp) (k : Nat) : rldLoop k st = .ok st := by
  cases k with
  | zero => rfl
  | succ k => simp [rldLoop, h]

theorem rldLoop_succ_of_lt {st : RldStream} (h : st.sp < st.src.length) (k : Nat) :
    rldLoop (k + 1) st = rldFetch st >>= fun packet => rldLoop k (rldApply packet st) := by
  simp only [rldLoop, Nat.not_le.2 h, ↓reduceIte]
  cases rldFetch st <;> rfl

/-- With the source exhausted at a flag byte a step ends the command with the output so far. -/
theorem step_of_rld_exhausted {s : State} {st : RldStream} (hs : s.stream = some (.rld st)) (hm : st.mode = .flag)
    (h : st.src.length ≤ st.sp) : step s = .next (endCommand (rldResult (.ok st.out)) s) := by
  have hnext : rldNext st s = .done (endCommand (rldResult (.ok st.out)) s) := by simp [rldNext, h, rldSerialEnd, hm]
  exact step_of_done ((fetch_rld s st hs).trans hnext)

/-- Where no packet decodes a step is the truncation error (rule R164). -/
theorem step_of_rldFetch_error {s : State} {st : RldStream} {at' : Nat} (hs : s.stream = some (.rld st))
    (hm : st.mode = .flag) (hsp : st.sp < st.src.length) (h : rldFetch st = .error at') :
    step s = .next (endCommand (rldResult (.error at')) s) := by
  have hnext : rldNext st s = .done (endCommand (rldResult (.error at')) s) := by
    simp [rldNext, Nat.not_le.2 hsp, hm, h]
  exact step_of_done ((fetch_rld s st hs).trans hnext)

theorem runsTo_rldLoop_of_exhausted (s : State) (k : Nat) {st : RldStream} (hm : st.mode = .flag)
    (h : st.src.length ≤ st.sp) :
    RunsTo { s with stream := some (.rld st) } (endCommand (rldResult ((rldLoop k st).map RldStream.out)) s) := by
  have hstep := step_of_rld_exhausted (s := { s with stream := some (.rld st) }) rfl hm h
  rw [endCommand_stream] at hstep
  rw [rldLoop_of_exhausted h]
  exact .single hstep

/-- From a flag byte the steps end as the packet loop does, given as much fuel as there are bytes left. -/
theorem runsTo_rldLoop (s : State) (k : Nat) (st : RldStream) (hm : st.mode = .flag)
    (hfuel : st.src.length ≤ st.sp + k) :
    RunsTo { s with stream := some (.rld st) } (endCommand (rldResult ((rldLoop k st).map RldStream.out)) s) := by
  induction k generalizing st with
  | zero => exact runsTo_rldLoop_of_exhausted s 0 hm hfuel
  | succ k ih =>
    by_cases hend : st.src.length ≤ st.sp
    · exact runsTo_rldLoop_of_exhausted s (k + 1) hm hend
    · have hsp : st.sp < st.src.length := Nat.not_le.1 hend
      rw [rldLoop_succ_of_lt hsp]
      cases hfetch : rldFetch st with
      | error at' => exact .single ((step_of_rldFetch_error rfl hm hsp hfetch).trans (by rw [endCommand_stream]; rfl))
      | ok packet =>
        obtain ⟨hlt, -⟩ := rldApply_sp_of_rldFetch hfetch
        have hrest := ih (rldApply packet st) (by simpa using hm) (by rw [rldApply_src]; omega)
        exact .head (step_of_packet rfl hsp hm hfetch) hrest

/-- Settles O50: the atomic `RLD` is the packet loop, whose every turn is a step. -/
theorem steppingThePacketsIsRld : Obligations.SteppingThePacketsIsRld := by
  intro s hregions
  obtain ⟨k, hk⟩ := runsTo_rldLoop s (readSource s).length (rldStart (readSource s)) rfl (Nat.le_add_left _ _)
  have hexec : exec .rld s =
      .next (endCommand (rldResult ((rldLoop (readSource s).length (rldStart (readSource s))).map RldStream.out)) s) := by
    rw [← decodeRle_eq_map, ← runUnit_of_regionsOk (fun src => rldResult (decodeRle src)) s hregions]
    rfl
  exact ⟨k, hk.trans hexec.symm⟩

/-! ### Token by token -/

/-- What `LZD` answers when its token loop is over (rule R184): the loop's error, or the trailer's answer. -/
def lzdFinish (c : Config) (strict : Bool) (src : List Byte) : Except Nat LzdStream → UnitResult
  | .error at' => lzStreamError at'
  | .ok st => lzdTrailer c strict src st.out st.sp

theorem lzdUnit_eq_lzdFinish {c : Config} (hc : c.lzFormat = .lzss) (strict : Bool) (n : Nat) (src : List Byte) :
    lzdUnit c strict n src = lzdFinish c strict src (lzdLoop c n n (lzdStart src)) := by
  simp only [lzdUnit, lzDecodeTokens, hc, lzssDecode]
  cases lzdLoop c n n (lzdStart src) <;> rfl

theorem lzdLoop_of_complete (c : Config) {n : Nat} {st : LzdStream} (h : n ≤ st.out.length) (k : Nat) :
    lzdLoop c n k st = .ok st := by
  cases k with
  | zero => rfl
  | succ k => simp [lzdLoop, h]

theorem lzdLoop_succ_of_lt (c : Config) {n : Nat} {st : LzdStream} (h : st.out.length < n) (k : Nat) :
    lzdLoop c n (k + 1) st = lzdStep c n st >>= lzdLoop c n k := by
  simp only [lzdLoop, Nat.not_le.2 h, ↓reduceIte]
  cases lzdStep c n st <;> rfl

/-- With the expected length reached a step is the trailer (rule R184). -/
theorem step_of_lzd_complete {s : State} {st : LzdStream} (hs : s.stream = some (.lzd st))
    (h : s.dstCap.toNat ≤ st.out.length) :
    step s = .next (endCommand (lzdTrailer s.cfg (strictBit s) st.src st.out st.sp) s) := by
  have hnext : lzdNext st s = .done (endCommand (lzdTrailer s.cfg (strictBit s) st.src st.out st.sp) s) := by
    simp [lzdNext, dstCount, h]
  exact step_of_done ((fetch_lzd s st hs).trans hnext)

/-- While output is owed a step is one token: the stream one token further, or the error end. -/
theorem step_of_lzdStep {s : State} {st : LzdStream} (hs : s.stream = some (.lzd st))
    (hout : st.out.length < s.dstCap.toNat) :
    step s = .next (lzdContinue (lzdStep s.cfg s.dstCap.toNat st) s) := by
  have hfetch := fetch_lzd s st hs
  have howed : ¬ s.dstCap.toNat ≤ st.out.length := Nat.not_le.2 hout
  cases hgroup : lzdGroup st with
  | error at' =>
    have hnext : lzdNext st s = .done (endCommand (lzStreamError at') s) := by simp [lzdNext, dstCount, howed, hgroup]
    rw [step_of_done (hfetch.trans hnext)]
    simp only [lzdStep, hgroup, lzdContinue]
  | ok g =>
    cases htoken : lzdFetch g with
    | error at' =>
      have hnext : lzdNext st s = .done (endCommand (lzStreamError at') s) := by
        simp [lzdNext, dstCount, howed, hgroup, htoken]
      rw [step_of_done (hfetch.trans hnext)]
      simp only [lzdStep, hgroup, htoken, lzdContinue]
    | ok token =>
      rw [step_of_token hs hout hgroup htoken]
      cases happly : lzdApply s.cfg s.dstCap.toNat token g <;> simp [lzdStep, hgroup, htoken, happly, lzdContinue]

/-- A token leaves the source as it is and emits a byte or more (rule R306). -/
theorem lzdStep_ok {c : Config} {n : Nat} {st st' : LzdStream} (h : lzdStep c n st = .ok st')
    (hout : st.out.length < n) : st'.src = st.src ∧ st.out.length < st'.out.length := by
  unfold lzdStep at h
  cases hgroup : lzdGroup st with
  | error at' => simp [hgroup] at h
  | ok g =>
    cases htoken : lzdFetch g with
    | error at' => simp [hgroup, htoken] at h
    | ok token =>
      simp only [hgroup, htoken] at h
      rw [← lzdGroup_out hgroup] at hout ⊢
      obtain ⟨hsrc, -, -, -, hlt, -⟩ := lzdApply_ok h hout
      exact ⟨hsrc.trans (lzdGroup_src hgroup), hlt⟩

theorem runsTo_lzdLoop_of_complete (s : State) (k : Nat) {st : LzdStream} (h : s.dstCap.toNat ≤ st.out.length) :
    RunsTo { s with stream := some (.lzd st) }
      (endCommand (lzdFinish s.cfg (strictBit s) st.src (lzdLoop s.cfg s.dstCap.toNat k st)) s) := by
  have hstep := step_of_lzd_complete (s := { s with stream := some (.lzd st) }) rfl h
  rw [endCommand_stream] at hstep
  rw [lzdLoop_of_complete _ h]
  exact .single hstep

/-- The steps end as the token loop does, given as much fuel as there are bytes owed. -/
theorem runsTo_lzdLoop (s : State) (k : Nat) (st : LzdStream) (hfuel : s.dstCap.toNat ≤ st.out.length + k) :
    RunsTo { s with stream := some (.lzd st) }
      (endCommand (lzdFinish s.cfg (strictBit s) st.src (lzdLoop s.cfg s.dstCap.toNat k st)) s) := by
  induction k generalizing st with
  | zero => exact runsTo_lzdLoop_of_complete s 0 hfuel
  | succ k ih =>
    by_cases hdone : s.dstCap.toNat ≤ st.out.length
    · exact runsTo_lzdLoop_of_complete s (k + 1) hdone
    · have hout : st.out.length < s.dstCap.toNat := Nat.not_le.1 hdone
      have hstep := step_of_lzdStep (s := { s with stream := some (.lzd st) }) rfl hout
      rw [lzdLoop_succ_of_lt _ hout]
      cases htoken : lzdStep s.cfg s.dstCap.toNat st with
      | error at' =>
        rw [htoken, lzdContinue, endCommand_stream] at hstep
        exact .single hstep
      | ok st' =>
        obtain ⟨hsrc, hlt⟩ := lzdStep_ok htoken hout
        have hrest := ih st' (by omega)
        rw [hsrc] at hrest
        rw [htoken] at hstep
        exact .head hstep hrest

/-- Settles O59: the atomic `LZD` is the token loop and the trailer, and every turn of the loop is a step. -/
theorem steppingTheTokensIsLzd : Obligations.SteppingTheTokensIsLzd := by
  intro s hformat hregions
  obtain ⟨k, hk⟩ := runsTo_lzdLoop s s.dstCap.toNat (lzdStart (readSource s)) (Nat.le_add_left _ _)
  have hexec : exec .lzd s = .next (endCommand (lzdFinish s.cfg (strictBit s) (readSource s)
      (lzdLoop s.cfg s.dstCap.toNat s.dstCap.toNat (lzdStart (readSource s)))) s) := by
    rw [← lzdUnit_eq_lzdFinish hformat, ← runUnit_of_regionsOk (lzdUnit s.cfg (strictBit s) s.dstCap.toNat) s hregions]
    rfl
  exact ⟨k, hk.trans hexec.symm⟩

end Sys2Proof.Machine

/-! PROOF. The host's port and the first step of a command or stream element (rules R22, R30, R31, R40, R45, R100). -/

namespace Sys2Proof.Machine

/-! ### The register map -/

/-- The fourteen registers in the order of the register map, the one at index `i` at byte offset `4*i` (rule R30). -/
def registerFile (s : State) : List Word :=
  [s.src, s.srcLen, s.dst, s.dstCap, s.width, s.height, s.rLen, s.rAux, s.cmd, s.ctrl, s.status, s.errCode, s.errInfo,
    s.cSums]

theorem registerFile_length (s : State) : (registerFile s).length = 14 := rfl

theorem registerFile_getD_past (s : State) {i : Nat} (h : 14 ≤ i) : (registerFile s).getD i 0 = 0 :=
  List.getD_eq_default _ _ h

/-- A host read is the register of the map at an aligned offset, and 0 past the map and at unaligned offsets (rules R30,
R281). -/
theorem readReg_eq_registerFile (s : State) (o : Word) :
    readReg s o = if o.toNat % 4 = 0 then (registerFile s).getD (o.toNat / 4) 0 else 0 := by
  unfold readReg
  split
  case h_15 =>
    split_ifs with haligned
    · have hpast : 14 ≤ o.toNat / 4 := by simp only [imp_false] at *; omega
      exact (registerFile_getD_past s hpast).symm
    · rfl
  all_goals simp [*, registerFile]

/-- The byte offsets of the operand registers `a[0]` to `a[7]` (rule R30). -/
def operandOffsets : List Nat := [0x00, 0x04, 0x08, 0x0C, 0x10, 0x14, 0x18, 0x1C]

/-- A host write of an operand register stores the value there. -/
theorem registerFile_writeReg_operand {offset : Word} (value : Word) (s : State) (h : offset.toNat ∈ operandOffsets) :
    registerFile (writeReg offset value s) = (registerFile s).set (offset.toNat / 4) value := by
  simp only [operandOffsets, List.mem_cons, List.not_mem_nil, or_false] at h
  rcases h with h | h | h | h | h | h | h | h <;> simp only [writeReg, h] <;> rfl

/-- A host write of `CTRL` stores bit 0 of the value there (rule R32). -/
theorem registerFile_writeReg_ctrl {offset : Word} (value : Word) (s : State) (h : offset.toNat = 0x24) :
    registerFile (writeReg offset value s) = (registerFile s).set (offset.toNat / 4) (value &&& 1) := by
  simp only [writeReg, h]
  rfl

/-- A host write of a read-only register or an unlisted offset is ignored (rule R281). -/
theorem writeReg_ignored {offset : Word} (value : Word) (s : State) (hop : offset.toNat ∉ operandOffsets)
    (hctrl : offset.toNat ≠ 0x24) : writeReg offset value s = s := by
  simp only [operandOffsets, List.mem_cons, List.not_mem_nil, or_false, not_or] at hop
  unfold writeReg
  split
  case h_10 => rfl
  all_goals omega

/-- What a host reads after the register at an aligned offset inside the map has been set. -/
theorem readReg_of_registerFile_set {s t : State} {offset v : Word} (haligned : offset.toNat % 4 = 0)
    (hlisted : offset.toNat < 0x38) (h : registerFile t = (registerFile s).set (offset.toNat / 4) v) (o : Word) :
    readReg t o = if o = offset then v else readReg s o := by
  have hlen : offset.toNat / 4 < (registerFile s).length := by rw [registerFile_length]; omega
  rw [readReg_eq_registerFile t, readReg_eq_registerFile s, h]
  by_cases ho : o = offset
  · subst ho
    simp [haligned, List.getD_eq_getElem?_getD, List.getElem?_set_self hlen]
  · by_cases halign : o.toNat % 4 = 0
    · have hne : offset.toNat / 4 ≠ o.toNat / 4 := fun heq => ho (BitVec.eq_of_toNat_eq (by omega))
      simp [ho, halign, List.getD_eq_getElem?_getD, List.getElem?_set_ne hne]
    · simp [ho, halign]

/-- What the host reads of a register after writing it: the value, its bit 0, or the old value (rules R22, R32, R281). -/
def writtenReg (s : State) (offset value : Word) : Word :=
  if offset.toNat ∈ operandOffsets then value
  else if offset.toNat = 0x24 then value &&& 1
  else readReg s offset

theorem readReg_writeReg (s : State) (offset value o : Word) :
    readReg (writeReg offset value s) o = if o = offset then writtenReg s offset value else readReg s o := by
  unfold writtenReg
  by_cases hop : offset.toNat ∈ operandOffsets
  · have hbounds : offset.toNat % 4 = 0 ∧ offset.toNat < 0x38 := by
      simp only [operandOffsets, List.mem_cons, List.not_mem_nil, or_false] at hop
      omega
    rw [if_pos hop, readReg_of_registerFile_set hbounds.1 hbounds.2 (registerFile_writeReg_operand value s hop)]
  · by_cases hctrl : offset.toNat = 0x24
    · rw [if_neg hop, if_pos hctrl, readReg_of_registerFile_set (by omega) (by omega)
        (registerFile_writeReg_ctrl value s hctrl)]
    · rw [if_neg hop, if_neg hctrl, writeReg_ignored value s hop hctrl]
      split_ifs with ho
      · rw [ho]
      · rfl

theorem and_one_eq_ofNat_mod_two (value : Word) : value &&& 1 = BitVec.ofNat 32 (value.toNat % 2) := by
  refine BitVec.eq_of_toNat_eq ?_
  rw [BitVec.toNat_and, BitVec.toNat_ofNat]
  have hone : (1 : Word).toNat = 1 := rfl
  rw [hone, Nat.and_one_is_mod]
  omega

/-- Settles O16: the step is the write, and `readReg_writeReg` says what is read after it. -/
theorem hostWriteReachesOneRegister : Obligations.HostWriteReachesOneRegister := by
  intro s offset value rest hs hh hcmd
  have k := writeReg_keepsReadOnly offset value { s with host := rest }
  have hfetch : fetch s = .done (sees .nothing (writeReg offset value { s with host := rest })) :=
    (fetch_host s _ rest hs hh).trans (if_neg hcmd)
  refine ⟨_, step_of_done hfetch, k.mem, k.cfg, k.epoch, k.stream.trans hs, k.host, fun o => ?_⟩
  have hread : readReg (sees .nothing (writeReg offset value { s with host := rest })) o =
      if o = offset then writtenReg s offset value else readReg s o :=
    readReg_writeReg { s with host := rest } offset value o
  rw [hread, ← and_one_eq_ofNat_mod_two]
  by_cases ho : o = offset
  · subst ho
    simp [writtenReg, operandOffsets]
  · simp [ho]

/-- Settles O17: the read leaves all but what the host has seen, and the map is `registerFile`. -/
theorem hostReadFollowsTheRegisterMap : Obligations.HostReadFollowsTheRegisterMap := by
  refine ⟨fun s offset rest hs hh => step_of_done (fetch_host s _ rest hs hh), fun s => rfl, fun s offset h => ?_⟩
  rw [readReg_eq_registerFile]
  split_ifs with haligned
  · exact registerFile_getD_past s (by omega)
  · rfl

/-! ### Host stores and loads -/

theorem hostAccessOk_of_le {s : State} {addr : Word} {n : Nat} (h : addr.toNat + n ≤ s.cfg.memSize) :
    hostAccessOk s addr n = true := by
  simp [hostAccessOk, h]

/-- Stored bytes are the bytes read from where they were stored (rules R50, R51). -/
theorem memRead_of_mem_eq_memWrite {s : State} {m : Memory} {a : Nat} {bytes : List Byte}
    (h : s.mem = memWrite m a bytes) : memRead s a bytes.length = bytes := by
  refine List.ext_getElem (memRead_length s a _) fun i _ hi => ?_
  rw [memRead_getElem, readByte, h, lookup_memWrite_inside bytes m a i hi]
  rfl

theorem step_storeMem {s : State} {addr : Word} {bytes : List Byte} {rest : List HostAction} (hs : s.stream = none)
    (hh : s.host = .storeMem addr bytes :: rest) (hin : addr.toNat + bytes.length ≤ s.cfg.memSize) :
    step s = .next (sees .nothing (hostStore addr bytes { s with host := rest })) :=
  step_of_done ((fetch_host s _ rest hs hh).trans (if_pos (hostAccessOk_of_le hin)))

theorem step_loadMem {s : State} {addr : Word} {n : Nat} {rest : List HostAction} (hs : s.stream = none)
    (hh : s.host = .loadMem addr n :: rest) (hin : addr.toNat + n ≤ s.cfg.memSize) :
    step s = .next (sees (.bytes (memRead { s with host := rest } addr.toNat n)) { s with host := rest }) :=
  step_of_done ((fetch_host s _ rest hs hh).trans (if_pos (hostAccessOk_of_le hin)))

/-- Settles O18: the two steps are the store and the load. -/
theorem hostStoreThenLoad : Obligations.HostStoreThenLoad := by
  intro s addr bytes rest hs hh hin
  refine ⟨_, _, step_storeMem hs hh hin, step_loadMem hs rfl hin,
    congrArg HostSeen.bytes (memRead_of_mem_eq_memWrite rfl), rfl, rfl, fun a ha => ?_⟩
  simp [readByte, lookup_memWrite_outside bytes s.mem addr.toNat a ha]

/-! ### What a step runs -/

/-- Settles O5: the host's write of a legal word is the command fetched. -/
theorem stepRunsTheDecodedCommand : Obligations.StepRunsTheDecodedCommand := by
  intro s w rest i hs hh hdecode
  refine step_of_run ((fetch_host s _ rest hs hh).trans ?_)
  simp [hostStep, cmdOffset, issueCommand, hdecode, sees, beginCommand]

theorem rldFetch_of_decodePacket {st : RldStream} {packet : Packet} {more : List Byte}
    (h : decodePacket (st.src.drop st.sp) = .ok (packet, more)) :
    rldFetch st = .ok packet ∧ st.sp < st.src.length := by
  refine ⟨by simp [rldFetch, h], ?_⟩
  by_contra hend
  rw [List.drop_eq_nil_of_le (Nat.not_lt.1 hend)] at h
  cases h

theorem lzdFetch_of_decodeToken {st : LzdStream} {token : Token} {more : List Byte}
    (h : decodeToken (st.flag.getLsbD st.bit) (st.src.drop st.sp) = .ok (token, more)) : lzdFetch st = .ok token := by
  simp [lzdFetch, h]

theorem lzdGroup_of_bit_lt {st : LzdStream} (h : st.bit < 8) : lzdGroup st = .ok st := if_pos h

/-- Where no flag bit is left the byte at the cursor is the next group's flag (rules R186, R187). -/
theorem lzdGroup_of_flag_due {st : LzdStream} {flag : Byte} {body : List Byte} (hbit : st.bit = 8)
    (hsrc : st.src.drop st.sp = flag :: body) :
    lzdGroup st = .ok { st with fsp := st.sp, flag := flag, sp := st.sp + 1, bit := 0 } := by
  have hget : st.src[st.sp]? = some flag := by rw [← List.head?_drop, hsrc]; rfl
  obtain ⟨hsp, -⟩ := List.getElem?_eq_some_iff.1 hget
  have hflag : byteAt st.src st.sp = flag := by rw [byteAt, List.getD_eq_getElem?_getD, hget]; rfl
  simp [lzdGroup, hbit, Nat.not_le.2 hsp, hflag]

/-- Settles O6: the packet or token that decodes at the cursor is the one fetched. -/
theorem stepRunsTheStreamElement : Obligations.StepRunsTheStreamElement := by
  refine ⟨fun s st packet more hs hm hdecode => ?_, fun s st token more hs hout hbit hdecode => ?_,
    fun s st flag body token more hs hout hbit hsrc hdecode => ?_⟩
  · obtain ⟨hpacket, hsp⟩ := rldFetch_of_decodePacket hdecode
    exact step_eq_exec_packet hs hsp hm hpacket
  · have hstep := step_eq_exec_token hs hout (lzdGroup_of_bit_lt hbit) (lzdFetch_of_decodeToken hdecode)
    rwa [← hs] at hstep
  · refine step_eq_exec_token hs hout (lzdGroup_of_flag_due hbit hsrc) (lzdFetch_of_decodeToken (more := more) ?_)
    rw [← List.drop_drop, hsrc]
    exact hdecode

/-! ### Reset -/

/-- Settles O9: the registers are those of `State.reset`, and without a host action a step is idle. -/
theorem resetValuesAreZero : Obligations.ResetValuesAreZero :=
  ⟨rfl, rfl, rfl, rfl, rfl, rfl, rfl, rfl, rfl, rfl, rfl, rfl, rfl, rfl, rfl,
    step_of_done (fetch_idle State.reset reset_stream reset_host)⟩

/-- The defaults of rule R8 meet its constraints. -/
theorem defaultConfig_wf : defaultConfig.Wf where
  memSize_pos := by decide
  memSize_le := Nat.le_refl _
  pixFieldOrder := by decide
  pix8888Order := by decide
  pixDownBias := ⟨by decide, by decide⟩
  bcVariant := by decide

/-- Settles O12: the default parameters are admissible, and all else is 0 or empty. -/
theorem resetIsSound : Obligations.ResetIsSound := resetValues_sound defaultConfig_wf [] 0

end Sys2Proof.Machine

/-! PROOF. The region checks and running a command again (rules R56 to R58). A command ends as its answer says, and the
answer is a function of what the command reads; its own result lies outside its source, so the answer is the same the
second time and writes the bytes that already stand there. -/

namespace Sys2Proof.Machine

/-! ### Writing the bytes that memory holds -/

theorem cell_mem_of_lookup {m : Memory} {a : Nat} {v : Byte} (h : m.lookup a = some v) : (a, v) ∈ m := by
  induction m with
  | nil => simp at h
  | cons c rest ih =>
    rw [lookup_cons] at h
    split at h
    · next ha =>
      cases h
      exact ha ▸ List.mem_cons_self
    · exact List.mem_cons_of_mem c (ih h)

/-- In a memory in canonical form, setting a byte to what it holds changes nothing, the list of entries included. -/
theorem memSet_of_lookup {m : Memory} {a : Nat} {v : Byte} (hwf : m.wf = true) (h : m.lookup a = some v) :
    memSet m a v = m := by
  induction m with
  | nil => simp at h
  | cons c rest ih =>
    obtain ⟨b, w⟩ := c
    obtain ⟨hrising, hrest⟩ := (wf_cons_iff _ _).1 hwf
    rw [lookup_cons] at h
    by_cases hab : a = b
    · rw [if_pos hab] at h
      cases h
      simp [memSet, hab]
    · rw [if_neg hab] at h
      have htail : Memory.lookup rest a = some v := h
      have hlt : b < a := hrising _ (cell_mem_of_lookup htail)
      simp [memSet, hab, Nat.lt_asymm hlt, ih hrest htail]

theorem memWrite_of_lookup (vs : List Byte) {m : Memory} {a : Nat} (hwf : m.wf = true)
    (h : ∀ i (hi : i < vs.length), m.lookup (a + i) = some vs[i]) : memWrite m a vs = m := by
  induction vs generalizing a with
  | nil => rfl
  | cons v vs ih =>
    have hhead : m.lookup a = some v := h 0 (Nat.succ_pos _)
    rw [memWrite_cons, memSet_of_lookup hwf hhead]
    refine ih fun i hi => ?_
    have hnext := h (i + 1) (Nat.succ_lt_succ hi)
    rwa [List.getElem_cons_succ, Nat.add_comm i 1, ← Nat.add_assoc] at hnext

theorem memWrite_memWrite (vs : List Byte) {m : Memory} (a : Nat) (hwf : m.wf = true) :
    memWrite (memWrite m a vs) a vs = memWrite m a vs :=
  memWrite_of_lookup vs (memWrite_wf vs m a hwf) fun i hi => lookup_memWrite_inside vs m a i hi

/-! ### The ends of a command, taken twice -/

theorem raise_raise (code : ErrCode) (info computed : Word) (s : State) :
    raise code info computed (raise code info computed s) = raise code info computed s := rfl

theorem succeed_succeed (out : List Byte) (aux stored : Word) (mismatch : Bool) {s : State} (hwf : s.mem.wf = true) :
    succeed out aux stored mismatch (succeed out aux stored mismatch s) = succeed out aux stored mismatch s := by
  have hmem : (succeed out aux stored mismatch (succeed out aux stored mismatch s)).mem =
      (succeed out aux stored mismatch s).mem := memWrite_memWrite out (dstAddr s) hwf
  exact congrArg (fun m => { succeed out aux stored mismatch s with mem := m }) hmem

theorem endCommand_endCommand (r : UnitResult) {s : State} (hwf : s.mem.wf = true) :
    endCommand r (endCommand r s) = endCommand r s := by
  obtain ⟨code, info, computed, rfl, hend⟩ | ⟨out, aux, stored, mismatch, rfl, hlong, hend⟩ |
    ⟨out, aux, stored, mismatch, rfl, hfits, hend⟩ := endCommand_cases r s
  · rfl
  · rw [hend, endCommand_ok, raise_dstCap, if_pos hlong, raise_raise]
  · rw [hend, endCommand_ok, succeed_dstCap, if_neg (Nat.not_lt.2 hfits), succeed_succeed _ _ _ _ hwf]

/-! ### The answer of a command with regions -/

/-- What steps 5 to 8 of rule R100 answer: a region error, or the unit function on the source bytes. -/
def regionAnswer (unit : List Byte → UnitResult) (s : State) : UnitResult :=
  if !addressesOk s then errPlain .addr
  else if operandsOverlap s then errPlain .overlap
  else unit (readSource s)

theorem runUnit_eq_endCommand (unit : List Byte → UnitResult) (s : State) :
    runUnit unit s = endCommand (regionAnswer unit s) s := by
  unfold runUnit regionAnswer
  split_ifs <;> rfl

theorem SameInputs.regionAnswer_eq {s s' : State} (h : SameInputs s s') (unit : List Byte → UnitResult) :
    regionAnswer unit s' = regionAnswer unit s := by
  simp only [regionAnswer, h.addressesOk_eq, h.operandsOverlap_eq, h.readSource_eq]

/-- A command leaves all that it may read as it was: its result stands apart from its source (rule R58). -/
theorem CommandEnd.sameInputs {s t : State} (h : CommandEnd s t) : SameInputs s t := by
  cases h with
  | error code info computed _ => exact ⟨rfl, rfl, rfl, rfl, rfl, rfl, rfl, rfl, fun _ _ => rfl⟩
  | size p => exact ⟨rfl, rfl, rfl, rfl, rfl, rfl, rfl, rfl, fun _ _ => rfl⟩
  | success out aux stored mismatch hregions hfits =>
    refine ⟨rfl, rfl, rfl, rfl, rfl, rfl, rfl, rfl, fun k hk => ?_⟩
    have hapart := hregions.apart
    exact readByte_succeed_outside out aux stored mismatch s (s.src.toNat + k) (by omega)

theorem runUnit_again {unit : List Byte → UnitResult} {s t : State} (hwf : s.mem.wf = true)
    (hrun : runUnit unit s = t) (h : SameInputs s t) : runUnit unit t = t := by
  have hend : endCommand (regionAnswer unit s) s = t := (runUnit_eq_endCommand unit s).symm.trans hrun
  calc runUnit unit t
      = endCommand (regionAnswer unit s) t := by rw [runUnit_eq_endCommand, h.regionAnswer_eq]
    _ = endCommand (regionAnswer unit s) (endCommand (regionAnswer unit s) s) := by rw [hend]
    _ = t := (endCommand_endCommand _ hwf).trans hend

theorem runSize_again (fmt : PixelFormat) (s : State) : runSize fmt (runSize fmt s) = runSize fmt s := by
  obtain ⟨hsize, hend⟩ | ⟨p, hsize, hp, hend⟩ | ⟨p, hsize, hp, hend⟩ := runSize_cases fmt s
  · rw [hend]
    simp only [runSize, raise_width, raise_height, hsize, raise_raise]
  · rw [hend]
    simp only [runSize, raise_width, raise_height, hsize, if_pos hp, raise_raise]
  · rw [hend]
    simp only [runSize, sizeEnd_width, sizeEnd_height, hsize, if_neg (Nat.not_le.2 hp)]
    rfl

/-- Settles O24: the second run has the inputs of the first, and taking the same end twice changes nothing more. -/
theorem commandsAreIdempotent : Obligations.CommandsAreIdempotent := by
  intro i s t hi hwf hexec
  have h : SameInputs s t := (exec_commandEnd hi hexec).sameInputs
  by_cases hmem : i ∈ usesMemory
  · obtain ⟨unit, hunit⟩ := exec_memory_command i hmem
    rw [hunit s, Host.Outcome.next.injEq] at hexec
    rw [hunit t]
    simp only [strictBit, dstCount, h.cfg, h.ctrl, h.dstCap, h.width, h.height]
    exact congrArg _ (runUnit_again hwf hexec h)
  · obtain ⟨fmt, hsize⟩ := (exec_command_cases i hi).resolve_left hmem
    rw [hsize s] at hexec
    cases hexec
    rw [hsize, runSize_again]

/-! ### The region checks -/

theorem addressesOk_iff (s : State) :
    addressesOk s = true ↔
      s.src.toNat + s.srcLen.toNat ≤ s.cfg.memSize ∧ s.dst.toNat + s.dstCap.toNat ≤ s.cfg.memSize := by
  simp only [addressesOk, regionInMemory, Bool.and_eq_true, decide_eq_true_eq]
  rfl

/-- Settles O19: the address check comes before the overlap check and before the unit function. -/
theorem regionOutsideMemoryIsAddrError : Obligations.RegionOutsideMemoryIsAddrError := by
  intro i s hi houtside
  obtain ⟨unit, hunit⟩ := exec_memory_command i hi
  refine ⟨_, hunit s, ?_⟩
  have hfails : ¬ addressesOk s = true := by rw [addressesOk_iff]; omega
  obtain ⟨-, -, hend⟩ | ⟨-, hok, -⟩ | ⟨hregions, -⟩ := runUnit_cases (unit _ _ _ _ _) s
  · exact hend ▸ raise_errorEnd .addr 0 0 s
  · exact absurd hok hfails
  · exact absurd ((regionsOk_iff s).1 hregions).1 hfails

/-- Settles O20: with both regions in memory a shared byte is all that keeps the region checks from passing. -/
theorem overlappingRegionsAreRefused : Obligations.OverlappingRegionsAreRefused := by
  intro i s hi hsource hdestination hsrcLen hdstCap hsrc hdst
  obtain ⟨unit, hunit⟩ := exec_memory_command i hi
  refine ⟨_, hunit s, ?_⟩
  have hok : addressesOk s = true := (addressesOk_iff s).2 ⟨hsource, hdestination⟩
  obtain ⟨-, hfails, -⟩ | ⟨-, -, hend⟩ | ⟨hregions, -⟩ := runUnit_cases (unit _ _ _ _ _) s
  · exact absurd hok (by simp [hfails])
  · exact hend ▸ raise_errorEnd .overlap 0 0 s
  · exact absurd ⟨hsrcLen, hdstCap, hsrc, hdst⟩ hregions.apart

end Sys2Proof.Machine

/-! PROOF. The encoding (rules R70 to R76, R80 to R84, R186 to R189). A command word is its two fields, and the words
that decode are those the encoder writes; a packet's flag byte alone gives its length, so a byte sequence is cut into
packets from its front, up to one that runs past the end. -/

namespace Sys2Proof.Machine

/-! ### The fields of a command word -/

theorem opField_toNat (w : Word) : (opField w).toNat = w.toNat % 16 := by
  simp [opField]

theorem fmtField_toNat (w : Word) : (fmtField w).toNat = w.toNat / 16 % 16 := by
  simp [fmtField, Nat.shiftRight_eq_div_pow]

theorem reservedField_eq_zero_iff (w : Word) : reservedField w = 0 ↔ w.toNat / 256 = 0 := by
  rw [← BitVec.toNat_inj]
  simp only [reservedField, BitVec.extractLsb'_toNat, Nat.shiftRight_eq_div_pow, BitVec.ofNat_eq_ofNat,
    BitVec.toNat_ofNat]
  omega

theorem commandWord_toNat (op fmt : BitVec 4) : (commandWord op fmt).toNat = fmt.toNat * 16 + op.toNat := by
  simp only [commandWord, BitVec.toNat_append, BitVec.toNat_ofNat, Nat.zero_mod, Nat.zero_shiftLeft, Nat.zero_or]
  rw [← Nat.shiftLeft_add_eq_or_of_lt op.isLt, Nat.shiftLeft_eq]

theorem commandWord_eq_iff (op fmt : BitVec 4) (w : Word) :
    commandWord op fmt = w ↔ w.toNat = fmt.toNat * 16 + op.toNat := by
  rw [← commandWord_toNat, eq_comm, BitVec.toNat_inj]

/-! ### Command words -/

/-- The decoder accepts a word without reserved bits whose operation accepts its format (rules R70 to R72). -/
theorem decodeCommand_ok_iff (w : Word) (i : Instr) :
    decodeCommand w = .ok i ↔ w.toNat / 256 = 0 ∧ decodeOperation (w.toNat % 16) (w.toNat / 16 % 16) = .ok i := by
  rw [← opField_toNat, ← fmtField_toNat, ← reservedField_eq_zero_iff, decodeCommand]
  split_ifs with h
  · exact ⟨nofun, fun ⟨hzero, _⟩ => absurd hzero h⟩
  · exact ⟨fun hok => ⟨not_not.1 h, hok⟩, And.right⟩

theorem decodeCommand_commandWord (op fmt : BitVec 4) (i : Instr) (h : decodeOperation op.toNat fmt.toNat = .ok i) :
    decodeCommand (commandWord op fmt) = .ok i := by
  have hop := op.isLt
  have hfmt := fmt.isLt
  rw [decodeCommand_ok_iff, commandWord_toNat]
  refine ⟨by omega, ?_⟩
  rwa [show (fmt.toNat * 16 + op.toNat) % 16 = op.toNat by omega,
    show (fmt.toNat * 16 + op.toNat) / 16 % 16 = fmt.toNat by omega]

/-- An operation decodes accepted formats alone, to the command that the encoder gives these fields (rule R72). -/
theorem decodeOperation_ok {op fmt : Nat} {i : Instr} (h : decodeOperation op fmt = .ok i) :
    FormatAccepted op fmt ∧ encode i = .command (commandWord (BitVec.ofNat 4 op) (BitVec.ofNat 4 fmt)) := by
  unfold decodeOperation at h
  split at h
  case h_10 => cases h
  all_goals
    simp only [decodePxd, decodePxe, decodeBcd, decodeBce, decodeFormatless, decodeSize] at h
    split at h <;> cases h <;> exact ⟨by simp [FormatAccepted], rfl⟩

/-- Each of the accepted formats is a command (rule R72). -/
theorem decodeOperation_of_formatAccepted {op fmt : Nat} (h : FormatAccepted op fmt) :
    ∃ i, decodeOperation op fmt = .ok i := by
  obtain ⟨rfl | rfl, hlow, hhigh⟩ | ⟨rfl | rfl, hhigh⟩ | ⟨hlow, hhigh, rfl⟩ | ⟨rfl, hhigh⟩ := h
  case inr.inr.inl => interval_cases op <;> exact ⟨_, rfl⟩
  all_goals interval_cases fmt <;> exact ⟨_, rfl⟩

/-- The words that decode to a command are those that the encoder writes for it. -/
theorem encode_of_decodeCommand {w : Word} {i : Instr} (h : decodeCommand w = .ok i) : encode i = .command w := by
  obtain ⟨hreserved, hoperation⟩ := (decodeCommand_ok_iff w i).1 h
  obtain ⟨-, hencode⟩ := decodeOperation_ok hoperation
  rw [hencode, Code.command.injEq, commandWord_eq_iff, BitVec.toNat_ofNat, BitVec.toNat_ofNat]
  omega

/-- The illegal words of rule R76 are those that decode to no command. -/
theorem not_illegalWord_iff (w : Word) : ¬ IllegalWord w ↔ ∃ i, decodeCommand w = .ok i := by
  simp only [IllegalWord, not_or, not_not, decodeCommand_ok_iff, exists_and_left]
  refine and_congr_right fun _ => ⟨decodeOperation_of_formatAccepted, fun ⟨i, hoperation⟩ => ?_⟩
  exact (decodeOperation_ok hoperation).1

/-! ### Decoding what was encoded -/

/-- A packet's bytes alone decode to it, with nothing left over. -/
theorem decode_encodePacket (packet : Packet) (h : packet.wellFormed = true) :
    decode (.rlePacket (encodePacket packet)) = .ok packet.toInstr := by
  have hdecode := decodePacket_encodePacket packet [] h
  rw [List.append_nil] at hdecode
  rw [decode, hdecode, decodeWhole]

/-- A token's bytes alone decode to it where its flag bit announces its kind. -/
theorem decode_encodeToken (token : Token) :
    decode (.lzToken token.isLiteral (encodeToken token)) = .ok token.toInstr := by
  have hdecode := decodeToken_encodeToken token []
  rw [List.append_nil] at hdecode
  rw [decode, hdecode, decodeWhole]

/-- Settles O1: command words by their fields, packets and tokens by the rules that read them back from a stream. -/
theorem decodeOfEncodeGivesInstruction : Obligations.DecodeOfEncodeGivesInstruction := by
  intro i hwf
  cases i with
  | rep n b => exact decode_encodePacket (.rep n b) rfl
  | lit bytes => exact decode_encodePacket (.lit bytes) hwf
  | l b => exact decode_encodeToken (.l b)
  | p dist len => exact decode_encodeToken (.p dist len)
  | _ => exact decodeCommand_commandWord _ _ _ rfl

theorem decodeCommand_ok_iff_encode (w : Word) (i : Instr) : decodeCommand w = .ok i ↔ encode i = .command w := by
  refine ⟨encode_of_decodeCommand, fun h => ?_⟩
  have hwf : i.wellFormed = true := by
    cases i with
    | lit bytes => cases h
    | _ => rfl
  have hdecode := decodeOfEncodeGivesInstruction i hwf
  rwa [h] at hdecode

/-- Settles O2: the pairs of the table are the commands with the words that the encoder writes for them. -/
theorem legalCommandWordsAreThe29 : Obligations.LegalCommandWordsAreThe29 := by
  intro w i
  rw [decodeCommand_ok_iff_encode]
  cases i <;> simp [encode, commandWord_eq_iff]

/-- Settles O3: the decoder is run on each of the words and bytes. -/
theorem writtenOutWordsDecode : Obligations.WrittenOutWordsDecode :=
  ⟨rfl, rfl, rfl, rfl, rfl, rfl⟩

/-! ### Illegal words -/

/-- The error end does not depend on what `STATUS` was, so that of a command begun is that of the state before. -/
theorem errorEnd_of_beginCommand {code : Nat} {info computed : Word} {t : State} (w : Word) (s : State)
    (h : ErrorEnd code info computed (beginCommand w s) t) : ErrorEnd code info computed { s with cmd := w } t where
  keeps := { h.keeps with }
  mem := h.mem
  rLen := h.rLen
  rAux := h.rAux
  errCode := h.errCode
  errInfo := h.errInfo
  cSums := h.cSums
  status := h.status
  stream := h.stream

/-- Settles O7: the decoder rejects the illegal words and no others, and a rejected word raises the error. -/
theorem illegalWordEndsInIllegalCmd : Obligations.IllegalWordEndsInIllegalCmd := by
  refine ⟨fun s w rest hs hh hillegal => ?_, fun w hlegal => ?_⟩
  · obtain ⟨i, hdecode, -⟩ | ⟨e, -, hissue⟩ := issueCommand_cases w (sees .nothing { s with host := rest })
    · exact absurd hillegal ((not_illegalWord_iff w).2 ⟨i, hdecode⟩)
    · exact ⟨_, step_of_done ((fetch_host s _ rest hs hh).trans hissue),
        errorEnd_of_beginCommand w (sees .nothing { s with host := rest }) (raise_errorEnd .illegalCmd 0 0 _)⟩
  · obtain ⟨i, hdecode⟩ := (not_illegalWord_iff w).1 hlegal
    exact ⟨i, hdecode, isCommand_of_decodeCommand hdecode⟩

/-! ### The length of a packet -/

/-- A packet's length, which its flag byte alone gives (rule R84). -/
def packetSize (flag : Byte) : Nat := if 128 ≤ flag.toNat then 2 else 2 + flag.toNat

theorem packetSize_of_rep {flag : Byte} (h : 128 ≤ flag.toNat) : packetSize flag = 2 := if_pos h

theorem packetSize_of_lit {flag : Byte} (h : ¬ 128 ≤ flag.toNat) : packetSize flag = 2 + flag.toNat := if_neg h

theorem packetSize_pos (flag : Byte) : 0 < packetSize flag := by
  unfold packetSize
  split <;> omega

/-- Bit 7 of a flag byte says which kind of packet it begins (rules R81, R82). -/
theorem flagBit_eq (flag : Byte) : flag.getLsbD 7 = decide (128 ≤ flag.toNat) := by
  rw [← BitVec.msb_eq_getLsbD_last, BitVec.msb_eq_decide]

theorem countField_toNat (flag : Byte) : (flag.extractLsb' 0 7).toNat = flag.toNat % 128 := by
  simp

/-- A flag byte with bit 7 set is that bit and its count field (rule R81). -/
theorem repFlag_back {flag : Byte} (h : 128 ≤ flag.toNat) : (1#1 ++ flag.extractLsb' 0 7 : BitVec 8) = flag := by
  rw [← BitVec.toNat_inj, BitVec.toNat_append, ← Nat.shiftLeft_add_eq_or_of_lt (BitVec.isLt _), Nat.shiftLeft_eq,
    countField_toNat]
  have hlt := flag.isLt
  have hone : (1#1).toNat = 1 := rfl
  omega

theorem decodePacket_rep {flag : Byte} (h : 128 ≤ flag.toNat) (b : Byte) (more : List Byte) :
    decodePacket (flag :: b :: more) = .ok (.rep (flag.extractLsb' 0 7) b, more) := by
  simp [decodePacket, flagBit_eq, h]

theorem decodePacket_lit {flag : Byte} (h : ¬ 128 ≤ flag.toNat) (rest : List Byte) :
    decodePacket (flag :: rest) = if rest.length < flag.toNat + 1 then .error .truncated
      else .ok (.lit (rest.take (flag.toNat + 1)), rest.drop (flag.toNat + 1)) := by
  have hbit : flag.getLsbD 7 = false := (flagBit_eq flag).trans (decide_eq_false h)
  have hcount : (flag.extractLsb' 0 7).toNat = flag.toNat := by
    rw [countField_toNat]
    omega
  simp only [decodePacket, hbit, hcount, Bool.false_eq_true, ↓reduceIte]

/-- Fewer bytes than the flag announces are no packet (rule R164). -/
theorem decodePacket_truncated {flag : Byte} {rest : List Byte} (h : rest.length + 1 < packetSize flag) :
    decodePacket (flag :: rest) = .error .truncated := by
  by_cases hrep : 128 ≤ flag.toNat
  · rw [packetSize_of_rep hrep] at h
    obtain rfl : rest = [] := List.eq_nil_of_length_eq_zero (by omega)
    simp [decodePacket, flagBit_eq, hrep]
  · rw [packetSize_of_lit hrep] at h
    rw [decodePacket_lit hrep, if_pos (by omega)]

/-- Where the bytes that the flag announces are there, they are the encoding of a packet (rules R81, R82, R84). -/
theorem decodePacket_whole {flag : Byte} {rest : List Byte} (h : packetSize flag ≤ rest.length + 1) :
    ∃ packet more, decodePacket (flag :: rest) = .ok (packet, more) ∧ packet.wellFormed = true ∧
      encodePacket packet ++ more = flag :: rest ∧ (encodePacket packet).length = packetSize flag := by
  by_cases hrep : 128 ≤ flag.toNat
  · rw [packetSize_of_rep hrep] at h ⊢
    obtain ⟨b, more, rfl⟩ := List.exists_cons_of_length_pos (show 0 < rest.length by omega)
    exact ⟨_, _, decodePacket_rep hrep b more, rfl, by simp [encodePacket, repFlag_back hrep], rfl⟩
  · rw [packetSize_of_lit hrep] at h ⊢
    have hdecode := (decodePacket_lit hrep rest).trans (if_neg (by omega))
    have hlen : (rest.take (flag.toNat + 1)).length = flag.toNat + 1 := List.length_take_of_le (by omega)
    obtain ⟨-, -, hwf⟩ := decodePacket_ok hdecode
    refine ⟨_, _, hdecode, hwf, by simp [encodePacket, hlen], ?_⟩
    simp only [encodePacket, List.length_cons, hlen]
    omega

/-- Settles O4: a flag announces two bytes or more, and they are a packet where they are there. -/
theorem packetLengthComesFromItsFlag : Obligations.PacketLengthComesFromItsFlag := by
  intro flag rest size
  split_ifs with hshort
  · exact decodePacket_truncated hshort
  · exact decodePacket_whole (Nat.not_lt.1 hshort)

/-! ### A byte sequence as packets -/

/-- Bytes that end before the length that their flag announces begin a packet: with zeros up to that length they are
one. -/
theorem truncatedPacket_of_short {flag : Byte} {rest : List Byte} (h : rest.length + 1 < packetSize flag) :
    TruncatedPacket (flag :: rest) := by
  have hpadded : packetSize flag ≤ (rest ++ List.replicate (packetSize flag) 0).length + 1 := by
    simp only [List.length_append, List.length_replicate]
    omega
  obtain ⟨packet, more, -, hwf, hbytes, hlen⟩ := decodePacket_whole hpadded
  have hshorter : (flag :: rest).length < (encodePacket packet).length := by rwa [hlen]
  have hprefix : flag :: rest <+: encodePacket packet ++ more := by
    rw [hbytes, ← List.cons_append]
    exact List.prefix_append _ _
  exact ⟨List.cons_ne_nil _ _, packet, hwf,
    List.prefix_of_prefix_length_le hprefix (List.prefix_append _ _) hshorter.le, hshorter⟩

/-- Settles O42, by induction on the number of bytes: the packet that the first flag announces, then the packets of the
bytes after it. -/
theorem everyStreamIsPacketsOrTruncated : Obligations.EveryStreamIsPacketsOrTruncated := by
  intro src
  induction hn : src.length using Nat.strong_induction_on generalizing src with
  | _ n ih =>
    cases src with
    | nil => exact ⟨[], by simp, .inl rfl⟩
    | cons flag rest =>
      by_cases hshort : rest.length + 1 < packetSize flag
      · exact ⟨[], by simp, .inr ⟨_, truncatedPacket_of_short hshort, rfl⟩⟩
      · obtain ⟨packet, more, -, hwf, hbytes, hlen⟩ := decodePacket_whole (Nat.not_lt.1 hshort)
        have hless : more.length < n := by
          have hpos := packetSize_pos flag
          rw [← hn, ← hbytes, List.length_append]
          omega
        obtain ⟨packets, hpackets, hmore⟩ := ih more.length hless more rfl
        refine ⟨packet :: packets, by simpa [hwf] using hpackets, ?_⟩
        rw [← hbytes, List.flatMap_cons]
        obtain hmore | ⟨tail, htail, hmore⟩ := hmore
        · exact .inl (by rw [← hmore])
        · exact .inr ⟨tail, htail, by rw [List.append_assoc, ← hmore]⟩

end Sys2Proof.Machine

/-! PROOF. What a command changes, and the `SIZE` commands (rules R103, R104, R108 to R114). A command with regions ends as
an answer of `endCommand` does, a `SIZE` as its predicted size says; the frame is read off these two kinds of end. -/

namespace Sys2Proof.Machine

/-! ### What a command keeps -/

theorem CommandEnd.keepsOperands {s t : State} (h : CommandEnd s t) : KeepsOperands s t := by
  cases h <;> exact ⟨rfl, rfl, rfl, rfl, rfl, rfl, rfl, rfl, rfl, rfl, rfl, rfl⟩

/-- A command that ends with an error code has ended in `raise`. -/
theorem CommandEnd.errorEnd {s t : State} (h : CommandEnd s t) (hcode : t.errCode ≠ 0) :
    ∃ info computed, ErrorEnd t.errCode.toNat info computed s t := by
  cases h with
  | error code info computed _ => exact ⟨info, computed, raise_errorEnd code info computed s⟩
  | success out aux stored mismatch _ _ => exact absurd (succeed_errCode out aux stored mismatch s) hcode
  | size p => exact absurd (sizeEnd_errCode p s) hcode

/-- Settles O21: of the ends of a command only `raise` leaves an error code, and it writes no memory. -/
theorem errorEndsWriteNoMemory : Obligations.ErrorEndsWriteNoMemory :=
  fun _ _ _ hi hexec hcode => (exec_commandEnd hi hexec).errorEnd hcode

/-- A command with regions ends as `endCommand` does on some answer. -/
theorem exec_memory_command_eq_endCommand {i : Instr} {s t : State} (hi : i ∈ usesMemory) (hexec : exec i s = .next t) :
    ∃ r, t = endCommand r s := by
  obtain ⟨unit, hunit⟩ := exec_memory_command i hi
  rw [hunit s, Host.Outcome.next.injEq] at hexec
  exact ⟨_, hexec.symm.trans (runUnit_eq_endCommand _ s)⟩

/-- The end of a command writes at most the first `RLEN` bytes of the destination region; an error's `RLEN` is 0 (rules
R103, R104). -/
theorem endCommand_frame (r : UnitResult) (s : State) :
    (endCommand r s).rLen.toNat ≤ s.dstCap.toNat ∧
      ∀ a, a < s.dst.toNat ∨ s.dst.toNat + (endCommand r s).rLen.toNat ≤ a →
        readByte (endCommand r s) a = readByte s a := by
  obtain ⟨code, info, computed, -, hend⟩ | ⟨out, aux, stored, mismatch, -, -, hend⟩ |
    ⟨out, aux, stored, mismatch, -, hfits, hend⟩ := endCommand_cases r s
  · exact hend ▸ ⟨Nat.zero_le _, fun _ _ => readByte_congr rfl rfl _⟩
  · exact hend ▸ ⟨Nat.zero_le _, fun _ _ => readByte_congr rfl rfl _⟩
  · have hsuccess := succeed_successEnd out aux stored mismatch s (hfits.trans_lt s.dstCap.isLt)
    rw [hend, hsuccess.rLen]
    exact ⟨hfits, hsuccess.others⟩

theorem runSize_mem (fmt : PixelFormat) (s : State) : (runSize fmt s).mem = s.mem := by
  obtain ⟨-, hend⟩ | ⟨p, -, -, hend⟩ | ⟨p, -, -, hend⟩ := runSize_cases fmt s <;> rw [hend] <;> rfl

/-- A command without regions is a `SIZE`, which leaves memory as it is (rule R109). -/
theorem exec_command_mem {i : Instr} {s t : State} (hi : i.isCommand = true) (hmem : i ∉ usesMemory)
    (hexec : exec i s = .next t) : t.mem = s.mem := by
  obtain ⟨fmt, hsize⟩ := (exec_command_cases i hi).resolve_left hmem
  rw [hsize s, Host.Outcome.next.injEq] at hexec
  exact hexec ▸ runSize_mem fmt s

/-- Settles O23: the registers by the ends of a command, memory by whether it has regions. -/
theorem commandsKeepOperandsAndOtherBytes : Obligations.CommandsKeepOperandsAndOtherBytes := by
  intro i s t hi hexec
  have hkeeps : KeepsOperands s t := (exec_commandEnd hi hexec).keepsOperands
  refine ⟨hkeeps, fun hmem => readByte_congr (exec_command_mem hi hmem hexec) hkeeps.epoch, fun hmem => ?_⟩
  obtain ⟨r, rfl⟩ := exec_memory_command_eq_endCommand hmem hexec
  exact endCommand_frame r s

/-! ### `SIZE` -/

/-- The `SIZE` commands whose format has a size, each with the factor and the divisor of `WIDTH * HEIGHT` (rule R111). -/
def sizedCommands : List (Instr × Nat × Nat) :=
  [(.sizeBlk1, 1, 2), (.sizeBlk2, 1, 1), (.sizeBlk3, 1, 1), (.sizeBlk4, 1, 1), (.sizeBlk5, 1, 1), (.sizeP4444, 2, 1),
    (.sizeP1555, 2, 1), (.sizeP8888, 4, 1)]

/-- A command of the table is the `SIZE` of a format whose predicted size the table gives. -/
theorem sizedCommand_format {i : Instr} {mul div : Nat} (h : (i, mul, div) ∈ sizedCommands) :
    ∃ fmt, (∀ s, exec i s = .next (runSize fmt s)) ∧ ∀ w h, predictedSize fmt w h = some (w * h * mul / div) := by
  simp only [sizedCommands, List.mem_cons, List.not_mem_nil, or_false, Prod.mk.injEq] at h
  rcases h with ⟨rfl, rfl, rfl⟩ | ⟨rfl, rfl, rfl⟩ | ⟨rfl, rfl, rfl⟩ | ⟨rfl, rfl, rfl⟩ | ⟨rfl, rfl, rfl⟩ | ⟨rfl, rfl, rfl⟩ |
    ⟨rfl, rfl, rfl⟩ | ⟨rfl, rfl, rfl⟩ <;> exact ⟨_, fun _ => rfl, fun _ _ => by simp [predictedSize]⟩

/-- A command of the table ends in `ERR_ARITH` where its size needs more than 32 bits, and else with the size (rules
R110, R113). -/
theorem exec_sizedCommand {i : Instr} {mul div : Nat} (h : (i, mul, div) ∈ sizedCommands) (s : State) :
    exec i s = .next (if 2 ^ 32 ≤ s.width.toNat * s.height.toNat * mul / div then raise .arith 0 0 s
      else sizeEnd (s.width.toNat * s.height.toNat * mul / div) s) := by
  obtain ⟨fmt, hexec, hsize⟩ := sizedCommand_format h
  rw [hexec s, runSize, hsize]

/-- Settles O27: the two ends of a command of the table. -/
theorem sizeGivesPredictedSize : Obligations.SizeGivesPredictedSize := by
  intro s i mul div h size
  have hexec := exec_sizedCommand h s
  split_ifs with hlarge
  · rw [if_pos hlarge] at hexec
    exact ⟨_, hexec, raise_errorEnd .arith 0 0 s⟩
  · rw [if_neg hlarge] at hexec
    exact hexec

/-- The factors of the table are at most 4. -/
theorem sizedCommand_factor {i : Instr} (h : i ∈ sizedCommands.map Prod.fst) :
    ∃ mul div, (i, mul, div) ∈ sizedCommands ∧ mul ≤ 4 := by
  have hfactors : ∀ entry ∈ sizedCommands, entry.2.1 ≤ 4 := by decide
  obtain ⟨⟨_, mul, div⟩, hentry, rfl⟩ := List.mem_map.1 h
  exact ⟨mul, div, hentry, hfactors _ hentry⟩

/-- The largest size of an image with dimensions of at most 32767 (rule R114). -/
theorem size_le_of_dimensions {w h mul : Nat} (div : Nat) (hw : w ≤ 32767) (hh : h ≤ 32767) (hmul : mul ≤ 4) :
    w * h * mul / div ≤ 4294705156 :=
  calc w * h * mul / div ≤ w * h * mul := Nat.div_le_self _ _
    _ ≤ 32767 * 32767 * 4 := Nat.mul_le_mul (Nat.mul_le_mul hw hh) hmul

theorem exec_sizedCommand_of_dimensions {i : Instr} {mul div : Nat} {s : State} (h : (i, mul, div) ∈ sizedCommands)
    (hmul : mul ≤ 4) (hwidth : s.width.toNat ≤ 32767) (hheight : s.height.toNat ≤ 32767) :
    exec i s = .next (sizeEnd (s.width.toNat * s.height.toNat * mul / div) s) := by
  have hle := size_le_of_dimensions div hwidth hheight hmul
  rw [exec_sizedCommand h s, if_neg (by omega)]

/-- Settles O29: the bound at 32767, which the 32-bit format reaches there, and its overflow at 65536. -/
theorem sizeOfMipmapNeverOverflows : Obligations.SizeOfMipmapNeverOverflows := by
  have hP8888 : (Instr.sizeP8888, 4, 1) ∈ sizedCommands := by decide
  refine ⟨fun i s t hi hwidth hheight hexec => ?_, fun s hwidth hheight => ?_, fun s hwidth hheight => ?_⟩
  · obtain ⟨mul, div, hsized, hmul⟩ := sizedCommand_factor hi
    rw [exec_sizedCommand_of_dimensions hsized hmul hwidth hheight, Host.Outcome.next.injEq] at hexec
    subst hexec
    refine ⟨sizeEnd_errCode _ s, ?_⟩
    rw [sizeEnd_rLen, BitVec.toNat_ofNat]
    exact (Nat.mod_le _ _).trans (size_le_of_dimensions div hwidth hheight hmul)
  · refine ⟨_, exec_sizedCommand_of_dimensions hP8888 le_rfl (by simp [hwidth]) (by simp [hheight]),
      sizeEnd_errCode _ s, ?_⟩
    simp [hwidth, hheight]
  · have hexec := exec_sizedCommand hP8888 s
    rw [if_pos (by simp [hwidth, hheight])] at hexec
    exact ⟨_, hexec, raise_errorEnd .arith 0 0 s⟩

/-- Settles O28: the indexed format has no predicted size. -/
theorem sizeIndexedIsUnimplemented : Obligations.SizeIndexedIsUnimplemented :=
  fun s => ⟨_, rfl, raise_errorEnd .unimplementedFormat 0 0 s⟩

end Sys2Proof.Machine

/-! PROOF. The pixel converter (rules R120 to R134, R303). A command applies one function to each pixel; what stands at a
byte of its result is read off that function, a place of the channel order being a place of the canonical pixel. Packing
undoes unpacking field by field, because the downward scaling undoes the upward one. -/

namespace Sys2Proof.Machine

/-! ### How a command with regions ends -/

theorem runUnit_errPlain_errorEnd {unit : List Byte → UnitResult} {s : State} {code : ErrCode} (hregions : RegionsOk s)
    (hunit : unit (readSource s) = errPlain code) : ErrorEnd (errNumber code).toNat 0 0 s (runUnit unit s) := by
  rw [runUnit_of_regionsOk unit s hregions, hunit]
  exact raise_errorEnd code 0 0 s

/-- A result that does not fit its destination is an error (rule R105). -/
theorem runUnit_okBytes_errorEnd {unit : List Byte → UnitResult} {s : State} {out : List Byte} (hregions : RegionsOk s)
    (hunit : unit (readSource s) = okBytes out) (hlong : s.dstCap.toNat < out.length) :
    ErrorEnd 11 0 0 s (runUnit unit s) := by
  rw [runUnit_of_regionsOk unit s hregions, hunit, okBytes, endCommand_ok, if_pos hlong]
  exact raise_errorEnd .dstCapacity 0 0 s

theorem runUnit_okBytes_successEnd {unit : List Byte → UnitResult} {s : State} {out : List Byte}
    (hregions : RegionsOk s) (hunit : unit (readSource s) = okBytes out) (hfits : out.length ≤ s.dstCap.toNat) :
    SuccessEnd out 0 0 false s (runUnit unit s) := by
  rw [runUnit_of_regionsOk unit s hregions, hunit, okBytes, endCommand_ok, if_neg (Nat.not_lt.2 hfits)]
  exact succeed_successEnd out 0 0 false s (hfits.trans_lt s.dstCap.isLt)

/-- A command with regions that ends without an error code has written what its unit function answered. -/
theorem runUnit_successEnd_of_errCode {unit : List Byte → UnitResult} {s : State}
    (hcode : (runUnit unit s).errCode = 0) :
    ∃ out aux stored mismatch, unit (readSource s) = .ok out aux stored mismatch ∧
      SuccessEnd out aux stored mismatch s (runUnit unit s) := by
  have hraise : ∀ code info computed, runUnit unit s ≠ raise code info computed s := by
    intro code info computed h
    rw [h, raise_errCode] at hcode
    cases code <;> cases hcode
  obtain ⟨-, -, hend⟩ | ⟨-, -, hend⟩ | ⟨-, hend⟩ := runUnit_cases unit s
  · exact absurd hend (hraise _ _ _)
  · exact absurd hend (hraise _ _ _)
  · obtain ⟨code, info, computed, -, hans⟩ | ⟨out, aux, stored, mismatch, -, -, hans⟩ |
      ⟨out, aux, stored, mismatch, hunit, hfits, hans⟩ := endCommand_cases (unit (readSource s)) s
    · exact absurd (hend.trans hans) (hraise _ _ _)
    · exact absurd (hend.trans hans) (hraise _ _ _)
    · refine ⟨out, aux, stored, mismatch, hunit, ?_⟩
      rw [hend, hans]
      exact succeed_successEnd _ _ _ _ s (hfits.trans_lt s.dstCap.isLt)

/-- The host takes a result to the next command as its source bytes. -/
theorem readSource_takeResult {out : List Byte} {aux stored : Word} {mismatch : Bool} {s t : State} (dst cap : Word)
    (h : SuccessEnd out aux stored mismatch s t) : readSource (takeResult dst cap t) = out := by
  refine List.ext_getElem (by simpa [takeResult] using h.rLen) fun i _ hi => ?_
  have hbyte : readByte t (t.dst.toNat + i) = out[i] := h.keeps.dst ▸ h.written i hi
  simp only [readSource, memRead_getElem]
  exact hbyte

theorem byteAt_readSource {s : State} {i : Nat} (h : i < s.srcLen.toNat) :
    byteAt (readSource s) i = sourceByte s i := by
  have hi : i < (readSource s).length := by simpa using h
  rw [byteAt, List.getD_eq_getElem _ _ hi]
  simp only [readSource, memRead_getElem, srcAddr, sourceByte]

/-! ### Converting pixel by pixel -/

theorem unpack16_length (c : Config) (layout : Layout16) (s0 s1 : Byte) : (unpack16 c layout s0 s1).length = 4 := rfl

theorem unpack32_length (c : Config) (s0 s1 s2 s3 : Byte) : (unpack32 c s0 s1 s2 s3).length = 4 := rfl

theorem pack16_length (c : Config) (layout : Layout16) (r g b a : Byte) : (pack16 c layout r g b a).length = 2 := rfl

theorem pack32_length (c : Config) (r g b a : Byte) : (pack32 c r g b a).length = 4 := rfl

theorem mapPairs_eq_flatMap (f : Byte → Byte → List Byte) : ∀ src : List Byte,
    mapPairs f src = (List.range (src.length / 2)).flatMap fun k => f (byteAt src (2 * k)) (byteAt src (2 * k + 1))
  | [] | [_] => by simp [mapPairs]
  | s0 :: s1 :: rest => by
    have hcount : (s0 :: s1 :: rest).length / 2 = rest.length / 2 + 1 := Nat.add_div_right _ Nat.two_pos
    rw [mapPairs, mapPairs_eq_flatMap f rest, hcount, List.range_succ_eq_map, List.flatMap_cons, List.flatMap_map]
    rfl

theorem mapQuads_eq_flatMap (f : Byte → Byte → Byte → Byte → List Byte) : ∀ src : List Byte,
    mapQuads f src = (List.range (src.length / 4)).flatMap fun k =>
      f (byteAt src (4 * k)) (byteAt src (4 * k + 1)) (byteAt src (4 * k + 2)) (byteAt src (4 * k + 3))
  | [] | [_] | [_, _] | [_, _, _] => by simp [mapQuads]
  | s0 :: s1 :: s2 :: s3 :: rest => by
    have hcount : (s0 :: s1 :: s2 :: s3 :: rest).length / 4 = rest.length / 4 + 1 := Nat.add_div_right _ four_pos
    rw [mapQuads, mapQuads_eq_flatMap f rest, hcount, List.range_succ_eq_map, List.flatMap_cons, List.flatMap_map]
    rfl

section FixedLength

variable {g : Nat → List Byte} {m : Nat} (hg : ∀ k, (g k).length = m)
include hg

/-- Pieces of one length `m`: together they have `m` bytes each. -/
theorem flatMap_range_length (n : Nat) : ((List.range n).flatMap g).length = m * n := by
  simp [List.length_flatMap, hg, Nat.mul_comm]

/-- Pieces of one length `m`: byte `j` of piece `k` stands at `m * k + j`. -/
theorem flatMap_range_getElem? {n k j : Nat} (hk : k < n) (hj : j < m) :
    ((List.range n).flatMap g)[m * k + j]? = (g k)[j]? := by
  induction n with
  | zero => exact absurd hk (Nat.not_lt_zero k)
  | succ n ih =>
    have hlen := flatMap_range_length hg n
    rw [List.range_succ, List.flatMap_append, List.flatMap_singleton]
    obtain hlt | rfl := Nat.lt_succ_iff_lt_or_eq.1 hk
    · have hinside : m * k + j < m * n := by
        have : m * (k + 1) ≤ m * n := Nat.mul_le_mul_left m hlt
        rw [Nat.mul_succ] at this
        omega
      rw [List.getElem?_append_left (hlen ▸ hinside), ih hlt]
    · rw [List.getElem?_append_right (hlen ▸ Nat.le_add_right _ _), hlen, Nat.add_sub_cancel_left]

end FixedLength

section SourcePixels

variable {s : State} {m k j : Nat}

theorem mapPairs_readSource_length {f : Byte → Byte → List Byte} (hf : ∀ s0 s1, (f s0 s1).length = m) :
    (mapPairs f (readSource s)).length = m * (s.srcLen.toNat / 2) := by
  rw [mapPairs_eq_flatMap, flatMap_range_length (fun _ => hf _ _), readSource_length]

theorem mapPairs_readSource_getElem? {f : Byte → Byte → List Byte} (hf : ∀ s0 s1, (f s0 s1).length = m)
    (hk : k < s.srcLen.toNat / 2) (hj : j < m) :
    (mapPairs f (readSource s))[m * k + j]? = (f (sourceByte s (2 * k)) (sourceByte s (2 * k + 1)))[j]? := by
  rw [mapPairs_eq_flatMap, flatMap_range_getElem? (fun _ => hf _ _) (by simpa using hk) hj,
    byteAt_readSource (by omega), byteAt_readSource (by omega)]

theorem mapQuads_readSource_length {f : Byte → Byte → Byte → Byte → List Byte}
    (hf : ∀ s0 s1 s2 s3, (f s0 s1 s2 s3).length = m) :
    (mapQuads f (readSource s)).length = m * (s.srcLen.toNat / 4) := by
  rw [mapQuads_eq_flatMap, flatMap_range_length (fun _ => hf _ _ _ _), readSource_length]

theorem mapQuads_readSource_getElem? {f : Byte → Byte → Byte → Byte → List Byte}
    (hf : ∀ s0 s1 s2 s3, (f s0 s1 s2 s3).length = m) (hk : k < s.srcLen.toNat / 4) (hj : j < m) :
    (mapQuads f (readSource s))[m * k + j]? =
      (f (sourceByte s (4 * k)) (sourceByte s (4 * k + 1)) (sourceByte s (4 * k + 2))
        (sourceByte s (4 * k + 3)))[j]? := by
  rw [mapQuads_eq_flatMap, flatMap_range_getElem? (fun _ => hf _ _ _ _) (by simpa using hk) hj,
    byteAt_readSource (by omega), byteAt_readSource (by omega), byteAt_readSource (by omega),
    byteAt_readSource (by omega)]

end SourcePixels

/-! ### The orders of the channels -/

theorem channelPlace_lt (c : Channel) : channelPlace c < 4 := by
  cases c <;> decide

theorem canonical_getElem?_channelPlace {α : Type} (o : ChannelOrder) (q : Quad α) (c : Channel) :
    (canonical o q)[channelPlace c]? = some (pickChannel o c q) := by
  cases c <;> rfl

theorem ofCanonical_pickChannel {α : Type} (o : ChannelOrder) (q : Quad α) (c : Channel) :
    ofCanonical c (pickChannel o .r q) (pickChannel o .g q) (pickChannel o .b q) (pickChannel o .a q) =
      pickChannel o c q := by
  cases c <;> rfl

/-- In an order with no channel twice, the channel of a place picks the value of that place. -/
theorem pickChannel_at {α : Type} {o : ChannelOrder} (ho : o.Wf) (q : Quad α) :
    pickChannel o o.at0 q = q.at0 ∧ pickChannel o o.at1 q = q.at1 ∧ pickChannel o o.at2 q = q.at2 ∧
      pickChannel o o.at3 q = q.at3 := by
  simp only [ChannelOrder.Wf, List.nodup_cons, List.mem_cons, List.not_mem_nil, or_false, not_or] at ho
  obtain ⟨⟨h01, h02, h03⟩, ⟨h12, h13⟩, h23, -⟩ := ho
  simp [pickChannel, h01, h02, h03, h12, h13, h23]

/-- Rule R131: putting a canonical pixel into an order undoes `canonical`. -/
theorem ordered_canonical {α : Type} {o : ChannelOrder} (ho : o.Wf) (q : Quad α) :
    ordered o (pickChannel o .r q) (pickChannel o .g q) (pickChannel o .b q) (pickChannel o .a q) = q := by
  obtain ⟨h0, h1, h2, h3⟩ := pickChannel_at ho q
  simp only [ordered, ofCanonical_pickChannel, h0, h1, h2, h3]

/-- A channel of a canonical pixel of the source. -/
theorem ofCanonical_sourceByte (s : State) (k : Nat) (c : Channel) :
    ofCanonical c (sourceByte s (4 * k)) (sourceByte s (4 * k + 1)) (sourceByte s (4 * k + 2))
      (sourceByte s (4 * k + 3)) = sourceByte s (4 * k + channelPlace c) := by
  cases c <;> rfl

/-- A canonical pixel is taken whole by a conversion of four bytes. -/
theorem mapQuads_canonical_append (f : Byte → Byte → Byte → Byte → List Byte) (o : ChannelOrder) (q : Quad Byte)
    (rest : List Byte) :
    mapQuads f (canonical o q ++ rest) =
      f (pickChannel o .r q) (pickChannel o .g q) (pickChannel o .b q) (pickChannel o .a q) ++ mapQuads f rest := rfl

/-! ### The two scalings -/

/-- An admissible bias is at least the rounding loss of the upward scaling and leaves room for its rounding gain, for
every width of a bit-field (log 6). -/
theorem downBias_bounds {bias : DownBias} (hb : bias.Wf) {n : Nat} (hn : n ≤ 5) :
    (2 ^ n - 1) / 2 ≤ downBias bias n ∧ downBias bias n + (2 ^ n - 1) / 2 < 255 := by
  have hpow : 2 ^ n ≤ 2 ^ 5 := Nat.pow_le_pow_right (by decide) hn
  cases bias with
  | fixed b =>
    obtain ⟨hlo, hhi⟩ := hb
    rw [downBias]
    omega
  | halfTarget =>
    rw [downBias]
    omega

/-- Rule R134 (a): the upward scaling rounds to within half the field's maximum, and the bias makes the downward scaling
take that back. -/
theorem down_up {bias : DownBias} (hb : bias.Wf) {n : Nat} (hpos : 0 < n) (hn : n ≤ 5) (v : Nat) :
    down bias (up v n) n = v := by
  obtain ⟨hlo, hhi⟩ := downBias_bounds hb hn
  have hodd : 2 ^ n = 2 * 2 ^ (n - 1) := (mul_pow_sub_one hpos.ne' 2).symm
  have hhalf : 0 < 2 ^ (n - 1) := Nat.two_pow_pos _
  have hmod : (v * 255 + (2 ^ n - 1) / 2) % (2 ^ n - 1) < 2 ^ n - 1 := Nat.mod_lt _ (by omega)
  have hdiv : up v n * (2 ^ n - 1) + (v * 255 + (2 ^ n - 1) / 2) % (2 ^ n - 1) = v * 255 + (2 ^ n - 1) / 2 :=
    Nat.div_add_mod' _ _
  unfold down
  omega

theorem fieldWidths_bounds (layout : Layout16) :
    (0 < (fieldWidths layout).at0 ∧ (fieldWidths layout).at0 ≤ 5) ∧
    (0 < (fieldWidths layout).at1 ∧ (fieldWidths layout).at1 ≤ 5) ∧
    (0 < (fieldWidths layout).at2 ∧ (fieldWidths layout).at2 ≤ 5) ∧
    (0 < (fieldWidths layout).at3 ∧ (fieldWidths layout).at3 ≤ 5) := by
  cases layout <;> decide

/-- A bit-field scaled up and down again is the bit-field. -/
theorem down_upField {bias : DownBias} (hb : bias.Wf) (w shift : Nat) {width : Nat} (h : 0 < width ∧ width ≤ 5) :
    down bias (upField w shift width).toNat width = bitField w shift width := by
  have hup : (upField w shift width).toNat = up (bitField w shift width) width :=
    (BitVec.toNat_ofNat ..).trans <| Nat.mod_eq_of_lt (up_lt _ _ h.1 (bitField_lt w shift width))
  rw [hup, down_up hb h.1 h.2]

/-! ### The bit-fields of a word -/

/-- The word with the given bit-fields (rule R123). -/
def fieldsWord (layout : Layout16) (q : Quad Nat) : Nat :=
  q.at0 <<< (fieldShifts layout).at0 ||| q.at1 <<< (fieldShifts layout).at1 |||
    q.at2 <<< (fieldShifts layout).at2 ||| q.at3 <<< (fieldShifts layout).at3

/-- Every value is in the range of its bit-field. -/
structure FieldsFit (layout : Layout16) (q : Quad Nat) : Prop where
  at0 : q.at0 < 2 ^ (fieldWidths layout).at0
  at1 : q.at1 < 2 ^ (fieldWidths layout).at1
  at2 : q.at2 < 2 ^ (fieldWidths layout).at2
  at3 : q.at3 < 2 ^ (fieldWidths layout).at3

/-- The four bit-fields of a word. -/
def wordFields (layout : Layout16) (w : Nat) : Quad Nat where
  at0 := bitField w (fieldShifts layout).at0 (fieldWidths layout).at0
  at1 := bitField w (fieldShifts layout).at1 (fieldWidths layout).at1
  at2 := bitField w (fieldShifts layout).at2 (fieldWidths layout).at2
  at3 := bitField w (fieldShifts layout).at3 (fieldWidths layout).at3

/-- The values of a pixel in the order of the bit-fields, each scaled to its width (rule R133). -/
def scaledFields (bias : DownBias) (layout : Layout16) (q : Quad Byte) : Quad Nat where
  at0 := down bias q.at0.toNat (fieldWidths layout).at0
  at1 := down bias q.at1.toNat (fieldWidths layout).at1
  at2 := down bias q.at2.toNat (fieldWidths layout).at2
  at3 := down bias q.at3.toNat (fieldWidths layout).at3

theorem packWord_eq_fieldsWord (c : Config) (layout : Layout16) (r g b a : Byte) :
    packWord c layout r g b a =
      fieldsWord layout (scaledFields c.pixDownBias layout (ordered c.pixFieldOrder r g b a)) := rfl

theorem wordFields_fit (layout : Layout16) (w : Nat) : FieldsFit layout (wordFields layout w) :=
  ⟨bitField_lt _ _ _, bitField_lt _ _ _, bitField_lt _ _ _, bitField_lt _ _ _⟩

theorem scaledFields_fit {bias : DownBias} (hb : bias.Wf) (layout : Layout16) (q : Quad Byte) :
    FieldsFit layout (scaledFields bias layout q) := by
  have hfit : ∀ (v : Byte) {n : Nat}, 0 < n ∧ n ≤ 5 → down bias v.toNat n < 2 ^ n := by
    intro v n hn
    obtain ⟨-, hhi⟩ := downBias_bounds hb hn.2
    exact down_lt bias v.toNat n (by omega) v.isLt
  obtain ⟨h0, h1, h2, h3⟩ := fieldWidths_bounds layout
  exact ⟨hfit _ h0, hfit _ h1, hfit _ h2, hfit _ h3⟩

/-- Values that stay below each other's places are joined by a sum. -/
theorem or_shifted_eq_add {x0 x1 x2 x3 n0 n1 n2 : Nat} (h3 : x3 < 2 ^ n2) (h2 : x2 <<< n2 + x3 < 2 ^ n1)
    (h1 : x1 <<< n1 + (x2 <<< n2 + x3) < 2 ^ n0) :
    x0 <<< n0 ||| x1 <<< n1 ||| x2 <<< n2 ||| x3 = x0 <<< n0 + (x1 <<< n1 + (x2 <<< n2 + x3)) := by
  rw [Nat.or_assoc, Nat.or_assoc, ← Nat.shiftLeft_add_eq_or_of_lt h3, ← Nat.shiftLeft_add_eq_or_of_lt h2,
    ← Nat.shiftLeft_add_eq_or_of_lt h1]

theorem fieldsWord_l4444 {q : Quad Nat} (h : FieldsFit .l4444 q) :
    fieldsWord .l4444 q = 4096 * q.at0 + 256 * q.at1 + 16 * q.at2 + q.at3 := by
  obtain ⟨h0, h1, h2, h3⟩ := h
  simp only [fieldWidths] at h0 h1 h2 h3
  have hsum := @or_shifted_eq_add q.at0 q.at1 q.at2 q.at3 12 8 4 (by omega)
    (by rw [Nat.shiftLeft_eq]; omega) (by simp only [Nat.shiftLeft_eq]; omega)
  simp only [Nat.shiftLeft_eq] at hsum
  simp only [fieldsWord, fieldShifts, Nat.shiftLeft_eq, Nat.pow_zero, Nat.mul_one]
  omega

theorem fieldsWord_l1555 {q : Quad Nat} (h : FieldsFit .l1555 q) :
    fieldsWord .l1555 q = 32768 * q.at0 + 1024 * q.at1 + 32 * q.at2 + q.at3 := by
  obtain ⟨h0, h1, h2, h3⟩ := h
  simp only [fieldWidths] at h0 h1 h2 h3
  have hsum := @or_shifted_eq_add q.at0 q.at1 q.at2 q.at3 15 10 5 (by omega)
    (by rw [Nat.shiftLeft_eq]; omega) (by simp only [Nat.shiftLeft_eq]; omega)
  simp only [Nat.shiftLeft_eq] at hsum
  simp only [fieldsWord, fieldShifts, Nat.shiftLeft_eq, Nat.pow_zero, Nat.mul_one]
  omega

theorem fieldsWord_lt {layout : Layout16} {q : Quad Nat} (h : FieldsFit layout q) : fieldsWord layout q < 65536 := by
  cases layout with
  | l4444 =>
    rw [fieldsWord_l4444 h]
    obtain ⟨h0, h1, h2, h3⟩ := h
    simp only [fieldWidths] at h0 h1 h2 h3
    omega
  | l1555 =>
    rw [fieldsWord_l1555 h]
    obtain ⟨h0, h1, h2, h3⟩ := h
    simp only [fieldWidths] at h0 h1 h2 h3
    omega

/-- The bit-fields of a layout are all of the word (rule R123). -/
theorem fieldsWord_wordFields (layout : Layout16) {w : Nat} (hw : w < 65536) :
    fieldsWord layout (wordFields layout w) = w := by
  cases layout with
  | l4444 =>
    rw [fieldsWord_l4444 (wordFields_fit _ w)]
    simp only [wordFields, bitField, fieldShifts, fieldWidths]
    omega
  | l1555 =>
    rw [fieldsWord_l1555 (wordFields_fit _ w)]
    simp only [wordFields, bitField, fieldShifts, fieldWidths]
    omega

/-! ### One pixel of 16 bits -/

/-- The values of a word's bit-fields scaled to 8 bits, in the order of the fields (rules R124, R125). -/
def upFields (layout : Layout16) (w : Nat) : Quad Byte where
  at0 := upField w (fieldShifts layout).at0 (fieldWidths layout).at0
  at1 := upField w (fieldShifts layout).at1 (fieldWidths layout).at1
  at2 := upField w (fieldShifts layout).at2 (fieldWidths layout).at2
  at3 := upField w (fieldShifts layout).at3 (fieldWidths layout).at3

theorem unpack16_eq_canonical (c : Config) (layout : Layout16) (s0 s1 : Byte) :
    unpack16 c layout s0 s1 = canonical c.pixFieldOrder (upFields layout (pixelWord s0 s1)) := rfl

theorem pixelWord_lt (s0 s1 : Byte) : pixelWord s0 s1 < 65536 := by
  have h0 := s0.isLt
  have h1 := s1.isLt
  unfold pixelWord
  omega

theorem upFields_l4444 {w : Nat} (hw : w < 65536) :
    upFields .l4444 w =
      { at0 := BitVec.ofNat 8 ((w / 4096 * 255 + 7) / 15)
        at1 := BitVec.ofNat 8 ((w / 256 % 16 * 255 + 7) / 15)
        at2 := BitVec.ofNat 8 ((w / 16 % 16 * 255 + 7) / 15)
        at3 := BitVec.ofNat 8 ((w % 16 * 255 + 7) / 15) } := by
  have htop : w / 4096 % 16 = w / 4096 := Nat.mod_eq_of_lt (by omega)
  simp [upFields, upField, up, bitField, fieldShifts, fieldWidths, htop]

theorem upFields_l1555 {w : Nat} (hw : w < 65536) :
    upFields .l1555 w =
      { at0 := BitVec.ofNat 8 (w / 32768 * 255)
        at1 := BitVec.ofNat 8 ((w / 1024 % 32 * 255 + 15) / 31)
        at2 := BitVec.ofNat 8 ((w / 32 % 32 * 255 + 15) / 31)
        at3 := BitVec.ofNat 8 ((w % 32 * 255 + 15) / 31) } := by
  have htop : w / 32768 % 2 = w / 32768 := Nat.mod_eq_of_lt (by omega)
  simp [upFields, upField, up, bitField, fieldShifts, fieldWidths, htop]

theorem scaledFields_upFields {bias : DownBias} (hb : bias.Wf) (layout : Layout16) (w : Nat) :
    scaledFields bias layout (upFields layout w) = wordFields layout w := by
  obtain ⟨h0, h1, h2, h3⟩ := fieldWidths_bounds layout
  simp only [scaledFields, upFields, wordFields, down_upField hb _ _ h0, down_upField hb _ _ h1,
    down_upField hb _ _ h2, down_upField hb _ _ h3]

/-- The little-endian bytes of a packed pixel (rule R129). -/
theorem pack16_eq (c : Config) (layout : Layout16) (r g b a : Byte) (hw : packWord c layout r g b a < 65536) :
    pack16 c layout r g b a =
      [BitVec.ofNat 8 (packWord c layout r g b a % 256), BitVec.ofNat 8 (packWord c layout r g b a / 256)] := by
  have hhigh : packWord c layout r g b a / 256 % 256 = packWord c layout r g b a / 256 := Nat.mod_eq_of_lt (by omega)
  simp [pack16, bitField, hhigh]

/-- The little-endian bytes of a stored pixel's word are the stored bytes. -/
theorem bytes_pixelWord (s0 s1 : Byte) :
    [BitVec.ofNat 8 (pixelWord s0 s1 % 256), BitVec.ofNat 8 (pixelWord s0 s1 / 256)] = [s0, s1] := by
  have h0 := s0.isLt
  have hlow : pixelWord s0 s1 % 256 = s0.toNat := by unfold pixelWord; omega
  have hhigh : pixelWord s0 s1 / 256 = s1.toNat := by unfold pixelWord; omega
  rw [hlow, hhigh, BitVec.ofNat_toNat, BitVec.ofNat_toNat, BitVec.setWidth_eq, BitVec.setWidth_eq]

/-- One 16-bit pixel unpacked and packed: its word has the fields it had. -/
theorem pack16_upFields {c : Config} (hc : c.Wf) (layout : Layout16) (s0 s1 : Byte) :
    let q := upFields layout (pixelWord s0 s1)
    let o := c.pixFieldOrder
    pack16 c layout (pickChannel o .r q) (pickChannel o .g q) (pickChannel o .b q) (pickChannel o .a q) = [s0, s1] := by
  intro q o
  have hword : packWord c layout (pickChannel o .r q) (pickChannel o .g q) (pickChannel o .b q) (pickChannel o .a q) =
      pixelWord s0 s1 := by
    rw [packWord_eq_fieldsWord, ordered_canonical hc.pixFieldOrder, scaledFields_upFields hc.pixDownBias,
      fieldsWord_wordFields layout (pixelWord_lt s0 s1)]
  rw [pack16_eq _ _ _ _ _ _ (hword ▸ pixelWord_lt s0 s1), hword, bytes_pixelWord]

/-! ### Packing what was unpacked -/

theorem mapQuads_pack16_mapPairs_unpack16 {c : Config} (hc : c.Wf) (layout : Layout16) :
    ∀ src : List Byte, src.length % 2 = 0 → mapQuads (pack16 c layout) (mapPairs (unpack16 c layout) src) = src
  | [], _ => rfl
  | [_], hodd => absurd hodd (by simp)
  | s0 :: s1 :: rest, heven => by
    have hrest : rest.length % 2 = 0 := (Nat.add_mod_right _ 2).symm.trans heven
    rw [mapPairs, unpack16_eq_canonical, mapQuads_canonical_append, pack16_upFields hc,
      mapQuads_pack16_mapPairs_unpack16 hc layout rest hrest]
    rfl

theorem mapQuads_pack32_mapQuads_unpack32 {c : Config} (hc : c.Wf) :
    ∀ src : List Byte, src.length % 4 = 0 → mapQuads (pack32 c) (mapQuads (unpack32 c) src) = src
  | [], _ => rfl
  | [_], hpart | [_, _], hpart | [_, _, _], hpart => absurd hpart (by simp)
  | s0 :: s1 :: s2 :: s3 :: rest, hwhole => by
    have hrest : rest.length % 4 = 0 := (Nat.add_mod_right _ 4).symm.trans hwhole
    rw [mapQuads, unpack32, mapQuads_canonical_append, pack32, ordered_canonical hc.pix8888Order,
      mapQuads_pack32_mapQuads_unpack32 hc rest hrest]
    rfl

/-- Rule R303 for the pixels of a whole source. -/
theorem packAll_unpackAll {c : Config} (hc : c.Wf) (fmt : PackedFormat) (src : List Byte)
    (h : src.length % bytesPerPixel fmt = 0) : packAll c fmt (unpackAll c fmt src) = src := by
  cases fmt with
  | p4444 => exact mapQuads_pack16_mapPairs_unpack16 hc .l4444 src h
  | p1555 => exact mapQuads_pack16_mapPairs_unpack16 hc .l1555 src h
  | p8888 => exact mapQuads_pack32_mapQuads_unpack32 hc src h

/-- The canonical pixels have four bytes each (rule R120). -/
theorem unpackAll_length_mod (c : Config) (fmt : PackedFormat) (src : List Byte) :
    (unpackAll c fmt src).length % 4 = 0 := by
  cases fmt with
  | p4444 | p1555 =>
    rw [unpackAll, mapPairs_eq_flatMap, flatMap_range_length (m := 4) (fun _ => rfl), Nat.mul_mod_right]
  | p8888 =>
    rw [unpackAll, mapQuads_eq_flatMap, flatMap_range_length (m := 4) (fun _ => rfl), Nat.mul_mod_right]

/-- What `to_canonical` answers, it answers for a source of whole pixels (rule R121). -/
theorem toCanonical_ok {c : Config} {fmt : PackedFormat} {src out : List Byte} {aux stored : Word} {mismatch : Bool}
    (h : toCanonical c fmt src = .ok out aux stored mismatch) :
    src.length % bytesPerPixel fmt = 0 ∧ out = unpackAll c fmt src := by
  unfold toCanonical at h
  split_ifs at h with hlength
  · cases h
  · cases h
    exact ⟨not_not.1 hlength, rfl⟩

/-- The conversions of a format, `PXD` then `PXE` on its result. -/
theorem fromCanonical_unpackAll {c : Config} (hc : c.Wf) (fmt : PackedFormat) (src : List Byte)
    (h : src.length % bytesPerPixel fmt = 0) : fromCanonical c fmt (unpackAll c fmt src) = okBytes src := by
  rw [fromCanonical, if_neg (not_not.2 (unpackAll_length_mod c fmt src)), packAll_unpackAll hc fmt src h]

/-- Settles O36: the result of the `PXD` is the source of the `PXE`, whose answer on it is the source of the `PXD`. -/
theorem packingWhatWasUnpackedIsLossless : Obligations.PackingWhatWasUnpackedIsLossless := by
  intro s t dst cap unpack pack hpair hc hexec hcode hregions hfits
  obtain ⟨fmt, hunpack, hpack⟩ : ∃ fmt, (∀ s, exec unpack s = .next (runUnit (toCanonical s.cfg fmt) s)) ∧
      ∀ s, exec pack s = .next (runUnit (fromCanonical s.cfg fmt) s) := by
    simp only [List.mem_cons, List.not_mem_nil, or_false, Prod.mk.injEq] at hpair
    obtain ⟨rfl, rfl⟩ | ⟨rfl, rfl⟩ | ⟨rfl, rfl⟩ := hpair
    · exact ⟨.p4444, fun _ => rfl, fun _ => rfl⟩
    · exact ⟨.p1555, fun _ => rfl, fun _ => rfl⟩
    · exact ⟨.p8888, fun _ => rfl, fun _ => rfl⟩
  rw [hunpack s, Host.Outcome.next.injEq] at hexec
  subst hexec
  obtain ⟨out, aux, stored, mismatch, hanswer, hend⟩ := runUnit_successEnd_of_errCode hcode
  obtain ⟨hwhole, rfl⟩ := toCanonical_ok hanswer
  have hcfg : (takeResult dst cap (runUnit (toCanonical s.cfg fmt) s)).cfg = s.cfg := hend.keeps.cfg
  refine ⟨_, hpack _, ?_⟩
  rw [hcfg]
  refine runUnit_okBytes_successEnd hregions ?_ (by simpa [takeResult] using hfits)
  rw [readSource_takeResult dst cap hend, fromCanonical_unpackAll hc fmt _ hwhole]

/-! ### Each conversion, pixel by pixel -/

/-- The ends of a pixel conversion in their order (rules R121, R128, R105): the length of the source, the capacity of the
destination, the result. -/
theorem pixelCommand_ends {i : Instr} {s : State} {unit : List Byte → UnitResult} {width len : Nat}
    {result : List Byte} {P : List Byte → Prop} (hregions : RegionsOk s) (hexec : exec i s = .next (runUnit unit s))
    (hunit : unit (readSource s) =
      if (readSource s).length % width ≠ 0 then errPlain .length else okBytes result)
    (hlen : result.length = len) (hresult : P result) :
    if s.srcLen.toNat % width ≠ 0 then ∃ t, exec i s = .next t ∧ ErrorEnd 5 0 0 s t
    else if s.dstCap.toNat < len then ∃ t, exec i s = .next t ∧ ErrorEnd 11 0 0 s t
    else ∃ t out, exec i s = .next t ∧ SuccessEnd out 0 0 false s t ∧ out.length = len ∧ P out := by
  rw [readSource_length] at hunit
  subst hlen
  split_ifs with hlength hlong
  · rw [if_pos hlength] at hunit
    exact ⟨_, hexec, runUnit_errPlain_errorEnd hregions hunit⟩
  · rw [if_neg hlength] at hunit
    exact ⟨_, hexec, runUnit_okBytes_errorEnd hregions hunit hlong⟩
  · rw [if_neg hlength] at hunit
    exact ⟨_, result, hexec, runUnit_okBytes_successEnd hregions hunit (Nat.not_lt.1 hlong), rfl, hresult⟩

/-- In an unpacked pixel the value of each place of the order stands at its channel's place (rule R120). -/
theorem canonical_at {α : Type} {o : ChannelOrder} (ho : o.Wf) (q : Quad α) :
    (canonical o q)[channelPlace o.at0]? = some q.at0 ∧ (canonical o q)[channelPlace o.at1]? = some q.at1 ∧
      (canonical o q)[channelPlace o.at2]? = some q.at2 ∧ (canonical o q)[channelPlace o.at3]? = some q.at3 := by
  simpa only [canonical_getElem?_channelPlace, Option.some.injEq] using pickChannel_at ho q

/-- Rules R122 to R125: in the result of a 16-bit `PXD` each scaled field stands at its channel's place. -/
theorem mapPairs_unpack16_at {s : State} (ho : s.cfg.pixFieldOrder.Wf) (layout : Layout16) {k : Nat}
    (hk : k < s.srcLen.toNat / 2) :
    let out := mapPairs (unpack16 s.cfg layout) (readSource s)
    let q := upFields layout (pixelWord (sourceByte s (2 * k)) (sourceByte s (2 * k + 1)))
    out[4 * k + channelPlace s.cfg.pixFieldOrder.at0]? = some q.at0 ∧
      out[4 * k + channelPlace s.cfg.pixFieldOrder.at1]? = some q.at1 ∧
      out[4 * k + channelPlace s.cfg.pixFieldOrder.at2]? = some q.at2 ∧
      out[4 * k + channelPlace s.cfg.pixFieldOrder.at3]? = some q.at3 := by
  intro out q
  have hbyte : ∀ c, out[4 * k + channelPlace c]? = (canonical s.cfg.pixFieldOrder q)[channelPlace c]? :=
    fun c => mapPairs_readSource_getElem? (unpack16_length _ _) hk (channelPlace_lt c)
  simpa only [hbyte] using canonical_at ho q

/-- Settles O30: the four scaled fields of `upFields_l4444` at their channels' places. -/
theorem pxdP4444UnpacksEachPixel : Obligations.PxdP4444UnpacksEachPixel := by
  intro s ho hregions n
  refine pixelCommand_ends hregions rfl rfl (mapPairs_readSource_length (unpack16_length _ _)) fun k hk => ?_
  have hplaces := mapPairs_unpack16_at ho .l4444 hk
  rw [upFields_l4444 (pixelWord_lt _ _)] at hplaces
  exact hplaces

/-- Settles O31: the four scaled fields of `upFields_l1555` at their channels' places. -/
theorem pxdP1555UnpacksEachPixel : Obligations.PxdP1555UnpacksEachPixel := by
  intro s ho hregions n
  refine pixelCommand_ends hregions rfl rfl (mapPairs_readSource_length (unpack16_length _ _)) fun k hk => ?_
  have hplaces := mapPairs_unpack16_at ho .l1555 hk
  rw [upFields_l1555 (pixelWord_lt _ _)] at hplaces
  exact hplaces

/-- Settles O32: each stored byte at its channel's place. -/
theorem pxdP8888ReordersEachPixel : Obligations.PxdP8888ReordersEachPixel := by
  intro s ho hregions n
  refine pixelCommand_ends hregions rfl rfl (mapQuads_readSource_length (unpack32_length _)) fun k hk => ?_
  have hbyte := fun c => mapQuads_readSource_getElem? (unpack32_length s.cfg) hk (channelPlace_lt c)
  simp only [unpackAll, hbyte]
  exact canonical_at ho _

/-- The channels of canonical pixel `k` of the source, in a given order. -/
def sourceQuad (s : State) (o : ChannelOrder) (k : Nat) : Quad Byte where
  at0 := sourceByte s (4 * k + channelPlace o.at0)
  at1 := sourceByte s (4 * k + channelPlace o.at1)
  at2 := sourceByte s (4 * k + channelPlace o.at2)
  at3 := sourceByte s (4 * k + channelPlace o.at3)

theorem ordered_sourceByte (s : State) (o : ChannelOrder) (k : Nat) :
    ordered o (sourceByte s (4 * k)) (sourceByte s (4 * k + 1)) (sourceByte s (4 * k + 2)) (sourceByte s (4 * k + 3)) =
      sourceQuad s o k := by
  simp only [ordered, ofCanonical_sourceByte, sourceQuad]

/-- Rules R128 to R130: in the result of a 16-bit `PXE` pixel `k` is the little-endian word of its scaled channels. -/
theorem mapQuads_pack16_at {s : State} (hc : s.cfg.Wf) (layout : Layout16) {k : Nat} (hk : k < s.srcLen.toNat / 4) :
    let out := mapQuads (pack16 s.cfg layout) (readSource s)
    let w := fieldsWord layout (scaledFields s.cfg.pixDownBias layout (sourceQuad s s.cfg.pixFieldOrder k))
    w < 65536 ∧ out[2 * k]? = some (BitVec.ofNat 8 (w % 256)) ∧
      out[2 * k + 1]? = some (BitVec.ofNat 8 (w / 256)) := by
  intro out w
  have hw : w < 65536 := fieldsWord_lt (scaledFields_fit hc.pixDownBias layout _)
  have hword : packWord s.cfg layout (sourceByte s (4 * k)) (sourceByte s (4 * k + 1)) (sourceByte s (4 * k + 2))
      (sourceByte s (4 * k + 3)) = w := by
    rw [packWord_eq_fieldsWord, ordered_sourceByte]
  have hbyte : ∀ j < 2, out[2 * k + j]? = [BitVec.ofNat 8 (w % 256), BitVec.ofNat 8 (w / 256)][j]? := by
    intro j hj
    rw [mapQuads_readSource_getElem? (pack16_length _ _) hk hj, pack16_eq _ _ _ _ _ _ (hword ▸ hw), hword]
  exact ⟨hw, hbyte 0 (by decide), hbyte 1 (by decide)⟩

/-- Settles O33: the word of `fieldsWord_l4444`, whose fields are the scaled channels. -/
theorem pxeP4444PacksEachPixel : Obligations.PxeP4444PacksEachPixel := by
  intro s hc hregions n o field
  refine pixelCommand_ends hregions rfl rfl (mapQuads_readSource_length (pack16_length _ _)) fun k hk => ?_
  have hpixel := mapQuads_pack16_at hc .l4444 hk
  rw [fieldsWord_l4444 (scaledFields_fit hc.pixDownBias _ _)] at hpixel
  exact hpixel

/-- Settles O34: the word of `fieldsWord_l1555`, whose fields are the scaled channels. -/
theorem pxeP1555PacksEachPixel : Obligations.PxeP1555PacksEachPixel := by
  intro s hc hregions n o value field
  refine pixelCommand_ends hregions rfl rfl (mapQuads_readSource_length (pack16_length _ _)) fun k hk => ?_
  have hpixel := mapQuads_pack16_at hc .l1555 hk
  rw [fieldsWord_l1555 (scaledFields_fit hc.pixDownBias _ _)] at hpixel
  simp only [scaledFields, down, fieldWidths, Nat.pow_one, Nat.reducePow, Nat.reduceSub, Nat.mul_one] at hpixel
  exact hpixel

/-- Settles O35: each channel at its stored place. -/
theorem pxeP8888ReordersEachPixel : Obligations.PxeP8888ReordersEachPixel := by
  intro s _ hregions n
  refine pixelCommand_ends hregions rfl rfl (mapQuads_readSource_length (pack32_length _)) fun k hk => ?_
  have hbyte : ∀ j < 4, (mapQuads (pack32 s.cfg) (readSource s))[4 * k + j]? =
      [(sourceQuad s s.cfg.pix8888Order k).at0, (sourceQuad s s.cfg.pix8888Order k).at1,
        (sourceQuad s s.cfg.pix8888Order k).at2, (sourceQuad s s.cfg.pix8888Order k).at3][j]? := by
    intro j hj
    rw [mapQuads_readSource_getElem? (pack32_length _) hk hj, pack32, ordered_sourceByte]
  exact ⟨hbyte 0 (by decide), hbyte 1 (by decide), hbyte 2 (by decide), hbyte 3 (by decide)⟩

end Sys2Proof.Machine

/-! PROOF. The block-compression adapter (rules R140 to R150). Each command is the common sequence over one unit
function, which is said once with its checks in their order; the ends of the command are read off it. -/

namespace Sys2Proof.Machine

/-! ### The ends of a block command -/

theorem exec_bcdCommand {i : Instr} {fmt : BlockFormat} (hi : (i, fmt) ∈ bcdCommands) (s : State) :
    exec i s = .next (runUnit (blockDecode s.cfg fmt s.width.toNat s.height.toNat) s) := by
  simp only [bcdCommands, List.mem_cons, Prod.mk.injEq, List.not_mem_nil, or_false] at hi
  obtain ⟨rfl, rfl⟩ | ⟨rfl, rfl⟩ | ⟨rfl, rfl⟩ | ⟨rfl, rfl⟩ | ⟨rfl, rfl⟩ := hi <;> rfl

theorem exec_bceCommand {i : Instr} {fmt : BlockFormat} (hi : (i, fmt) ∈ bceCommands) (s : State) :
    exec i s = .next (runUnit (blockEncode s.cfg fmt s.width.toNat s.height.toNat) s) := by
  simp only [bceCommands, List.mem_cons, Prod.mk.injEq, List.not_mem_nil, or_false] at hi
  obtain ⟨rfl, rfl⟩ | ⟨rfl, rfl⟩ | ⟨rfl, rfl⟩ | ⟨rfl, rfl⟩ | ⟨rfl, rfl⟩ := hi <;> rfl

/-- The last two ends of a command with regions (rules R100, R105): the capacity of the destination, the result. -/
theorem runUnit_okBytes_ends {i : Instr} {s : State} {unit : List Byte → UnitResult} {result : List Byte} {len : Nat}
    (hregions : RegionsOk s) (hexec : exec i s = .next (runUnit unit s))
    (hunit : unit (readSource s) = okBytes result) (hlen : result.length = len) :
    if s.dstCap.toNat < len then ∃ t, exec i s = .next t ∧ ErrorEnd 11 0 0 s t
    else ∃ t out, exec i s = .next t ∧ SuccessEnd out 0 0 false s t ∧ out = result ∧ out.length = len := by
  subst hlen
  split_ifs with hlong
  · exact ⟨_, hexec, runUnit_okBytes_errorEnd hregions hunit hlong⟩
  · exact ⟨_, result, hexec, runUnit_okBytes_successEnd hregions hunit (Nat.not_lt.1 hlong), rfl, rfl⟩

/-- Rule R143: `VA` takes half a byte for a pixel, the other variants one. -/
theorem compressedSize_eq (v : BcVariant) (w h : Nat) :
    compressedSize v w h = if v = .va then w * h / 2 else w * h := by
  cases v <;> rfl

/-! ### `BCD` -/

theorem blockDecode_of_no_variant {c : Config} {fmt : BlockFormat} (hv : bcVariant c fmt = none) (w h : Nat)
    (src : List Byte) : blockDecode c fmt w h src = errPlain .unimplementedFormat := by
  simp only [blockDecode, hv]

/-- Rule R146: the checks of `BCD` in their order. -/
theorem blockDecode_of_variant {c : Config} {fmt : BlockFormat} {v : BcVariant} (hv : bcVariant c fmt = some v)
    (w h : Nat) (src : List Byte) :
    blockDecode c fmt w h src =
      if w % 4 ≠ 0 ∨ h % 4 ≠ 0 ∨ src.length ≠ compressedSize v w h then errPlain .bcStream
      else if 2 ^ 32 ≤ 4 * w * h then errPlain .arith
      else okBytes (bcDec c v w h src) := by
  simp only [blockDecode, hv, ← or_assoc (a := w % 4 ≠ 0)]
  by_cases hdim : w % 4 ≠ 0 ∨ h % 4 ≠ 0
  · rw [if_pos hdim, if_pos (.inl hdim)]
  · simp only [hdim, false_or, if_false]

/-- Settles O37: the branches of `blockDecode_of_variant`, and the two ends of a result. -/
theorem blockDecompressEnds : Obligations.BlockDecompressEnds := by
  intro s i fmt hi hregions w h
  have hexec := exec_bcdCommand hi s
  refine ⟨fun hv => ⟨_, hexec, runUnit_errPlain_errorEnd hregions (blockDecode_of_no_variant hv _ _ _)⟩, ?_⟩
  intro v hv csize
  have hunit := blockDecode_of_variant hv w h (readSource s)
  rw [readSource_length, compressedSize_eq] at hunit
  by_cases hstream : w % 4 ≠ 0 ∨ h % 4 ≠ 0 ∨ s.srcLen.toNat ≠ csize
  · rw [if_pos hstream] at hunit ⊢
    exact ⟨_, hexec, runUnit_errPlain_errorEnd hregions hunit⟩
  rw [if_neg hstream] at hunit ⊢
  by_cases harith : 2 ^ 32 ≤ 4 * w * h
  · rw [if_pos harith] at hunit ⊢
    exact ⟨_, hexec, runUnit_errPlain_errorEnd hregions hunit⟩
  rw [if_neg harith] at hunit ⊢
  exact runUnit_okBytes_ends hregions hexec hunit (bcDec_length _ _ _ _ _)

/-! ### `BCE` -/

/-- Rule R149: below `2^32` the exponents that `isPow2` tries are all there are. -/
theorem isPow2_iff {n : Nat} (hn : n < 2 ^ 32) : isPow2 n = true ↔ ∃ j, n = 2 ^ j := by
  simp only [isPow2, List.any_eq_true, List.mem_range, beq_iff_eq]
  refine ⟨fun ⟨j, _, hj⟩ => ⟨j, hj⟩, fun ⟨j, hj⟩ => ⟨j, ?_, hj⟩⟩
  exact (Nat.pow_lt_pow_iff_right Nat.one_lt_two).1 (hj ▸ hn)

/-- Rules R148, R149: a dimension of `BCE` is a power of two from 4 up. -/
theorem dimensionOk_iff {n : Nat} (hn : n < 2 ^ 32) : dimensionOk n = true ↔ ∃ j, 2 ≤ j ∧ n = 2 ^ j := by
  have hfour : ∀ j, 4 ≤ 2 ^ j ↔ 2 ≤ j := fun _ => Nat.pow_le_pow_iff_right (n := 2) Nat.one_lt_two
  rw [dimensionOk, Bool.and_eq_true, isPow2_iff hn, decide_eq_true_eq]
  constructor
  · rintro ⟨⟨j, rfl⟩, h4⟩
    exact ⟨j, (hfour j).1 h4, rfl⟩
  · rintro ⟨j, hj, rfl⟩
    exact ⟨⟨j, rfl⟩, (hfour j).2 hj⟩

theorem dimensionsOk_iff {w h : Nat} (hw : w < 2 ^ 32) (hh : h < 2 ^ 32) :
    (dimensionOk w && dimensionOk h) = true ↔ ∃ j k, 2 ≤ j ∧ 2 ≤ k ∧ w = 2 ^ j ∧ h = 2 ^ k := by
  rw [Bool.and_eq_true, dimensionOk_iff hw, dimensionOk_iff hh]
  constructor
  · rintro ⟨⟨j, hj, hwj⟩, k, hk, hhk⟩
    exact ⟨j, k, hj, hk, hwj, hhk⟩
  · rintro ⟨j, k, hj, hk, hwj, hhk⟩
    exact ⟨⟨j, hj, hwj⟩, k, hk, hhk⟩

theorem blockEncode_of_no_variant {c : Config} {fmt : BlockFormat} (hv : bcVariant c fmt = none) (w h : Nat)
    (src : List Byte) : blockEncode c fmt w h src = errPlain .unimplementedFormat := by
  simp only [blockEncode, hv]

theorem blockEncode_of_bad_dimensions {c : Config} {fmt : BlockFormat} {v : BcVariant}
    (hv : bcVariant c fmt = some v) {w h : Nat} (hdim : (dimensionOk w && dimensionOk h) = false) (src : List Byte) :
    blockEncode c fmt w h src = errPlain .badDimensions := by
  simp only [blockEncode, hv, hdim, Bool.not_false, if_true]

theorem blockEncode_of_dimensionsOk {c : Config} {fmt : BlockFormat} {v : BcVariant}
    (hv : bcVariant c fmt = some v) {w h : Nat} (hdim : (dimensionOk w && dimensionOk h) = true) (src : List Byte) :
    blockEncode c fmt w h src =
      if src.length ≠ 4 * w * h then errPlain .length else okBytes (bcEnc v w h src) := by
  simp only [blockEncode, hv, hdim, Bool.not_true, Bool.false_eq_true, if_false]

/-- Settles O38: the dimensions by `dimensionsOk_iff`, then the length of the source, and the two ends of a result. -/
theorem blockCompressEnds : Obligations.BlockCompressEnds := by
  intro s i fmt hi hregions w h good
  have hexec := exec_bceCommand hi s
  have hgood : (dimensionOk w && dimensionOk h) = true ↔ good := dimensionsOk_iff s.width.isLt s.height.isLt
  refine ⟨fun hv => ⟨_, hexec, runUnit_errPlain_errorEnd hregions (blockEncode_of_no_variant hv _ _ _)⟩, ?_⟩
  intro v hv csize
  refine ⟨fun hbad => ?_, fun hdim => ?_⟩
  · have hfalse := Bool.eq_false_iff.2 (mt hgood.1 hbad)
    exact ⟨_, hexec, runUnit_errPlain_errorEnd hregions (blockEncode_of_bad_dimensions hv hfalse _)⟩
  · have hunit := blockEncode_of_dimensionsOk hv (hgood.2 hdim) (readSource s)
    rw [readSource_length] at hunit
    by_cases hlength : s.srcLen.toNat ≠ 4 * w * h
    · rw [if_pos hlength] at hunit ⊢
      exact ⟨_, hexec, runUnit_errPlain_errorEnd hregions hunit⟩
    rw [if_neg hlength] at hunit ⊢
    exact runUnit_okBytes_ends hregions hexec hunit ((bcEnc_length _ _ _ _).trans (compressedSize_eq _ _ _))

/-! ### The usual layout on one block -/

/-- In an image of one block, byte `t` is channel `t mod 4` of that block's pixel `t div 4` (rule R150). -/
theorem usualByte_of_one_block (v : BcVariant) (comp : List Byte) {t : Nat} (ht : t < 64) :
    usualByte v 4 comp t = BitVec.ofNat 8 (blockPixel v comp 0 (t / 4) (canonicalChannel (t % 4))) := by
  have hblock : t / 4 / 4 / 4 * (4 / 4) + t / 4 % 4 / 4 = 0 := by omega
  have hpixel : 4 * (t / 4 / 4 % 4) + t / 4 % 4 % 4 = t / 4 := by omega
  simp only [usualByte, hblock, hpixel, Nat.zero_mul]

/-- The image of one block whose sixteen pixels are alike. -/
theorem bcDec_of_one_block {c : Config} (hc : c.bcDec = .usual) (v : BcVariant) (comp : List Byte)
    {pixel : Channel → Nat} (hpixel : ∀ i < 16, ∀ ch, blockPixel v comp 0 i ch = pixel ch) :
    bcDec c v 4 4 comp = (List.range 64).map fun t => BitVec.ofNat 8 (pixel (canonicalChannel (t % 4))) := by
  simp only [bcDec, hc]
  refine List.map_congr_left fun t ht => ?_
  have ht : t < 64 := List.mem_range.1 ht
  rw [usualByte_of_one_block v comp ht, hpixel (t / 4) (by omega)]

/-- A colour of zeros is black (rule R150). -/
theorem colourChannel_zero (ch : Channel) : colourChannel 0 ch = 0 := by
  cases ch <;> rfl

/-- Entry 0 of a palette is its first colour, opaque (rule R150). -/
theorem paletteChannel_entry_zero (fourColour : Bool) (c0 c1 : Nat) (ch : Channel) :
    paletteChannel fourColour c0 c1 0 ch = if ch = .a then 255 else colourChannel c0 ch := rfl

/-- Entry 3 of a three-colour palette is transparent black (rule R150). -/
theorem paletteChannel_three_colour_entry_three (c0 c1 : Nat) (ch : Channel) :
    paletteChannel false c0 c1 3 ch = 0 := rfl

theorem bitField_zero (lo width : Nat) : bitField 0 lo width = 0 := by
  simp only [bitField, Nat.zero_div, Nat.zero_mod]

theorem blockPixel_zeros (i : Nat) (ch : Channel) :
    blockPixel .va [0, 0, 0, 0, 0, 0, 0, 0] 0 i ch = if ch = .a then 255 else 0 := by
  calc blockPixel .va [0, 0, 0, 0, 0, 0, 0, 0] 0 i ch
      = paletteChannel false 0 0 (bitField 0 (2 * i) 2) ch := rfl
    _ = if ch = .a then 255 else 0 := by rw [bitField_zero, paletteChannel_entry_zero, colourChannel_zero]

theorem blockPixel_indices_three {i : Nat} (hi : i < 16) (ch : Channel) :
    blockPixel .va [0, 0, 0, 0, 0xFF, 0xFF, 0xFF, 0xFF] 0 i ch = 0 := by
  have hindex : ∀ i < 16, bitField 0xFFFFFFFF (2 * i) 2 = 3 := by decide
  calc blockPixel .va [0, 0, 0, 0, 0xFF, 0xFF, 0xFF, 0xFF] 0 i ch
      = paletteChannel false 0 0 (bitField 0xFFFFFFFF (2 * i) 2) ch := rfl
    _ = 0 := by rw [hindex i hi, paletteChannel_three_colour_entry_three]

/-- Settles O39: entry 0 of the palette for the one block, entry 3 for the other; neither is a rounded quotient. -/
theorem usualLayoutFixedBlocks : Obligations.UsualLayoutFixedBlocks := by
  intro c hc
  refine ⟨?_, ?_⟩
  · rw [bcDec_of_one_block hc .va _ fun i _ => blockPixel_zeros i]
    decide
  · rw [bcDec_of_one_block hc .va _ fun _ hi => blockPixel_indices_three hi]
    decide

end Sys2Proof.Machine

/-! PROOF. The run-length codec (rules R160 to R169). On the packets of a stream the decoder's loop and the byte-serial
machine pass through the same states, and both stop at the flag of a packet that is cut short. Each canonical encoding
is a sequence of packets that emit the plain bytes, so it decodes to them. -/

namespace Sys2Proof.Machine

/-! ### One packet -/

theorem exec_rep (n : BitVec 7) (b : Byte) (s : State) : exec (.rep n b) s = execPacket (.rep n b) s := rfl

theorem exec_lit (bytes : List Byte) (s : State) : exec (.lit bytes) s = execPacket (.lit bytes) s := rfl

/-- Where no run-length stream stands at a flag byte a packet is refused (log 12). -/
theorem execPacket_refused (packet : Packet) {s : State}
    (h : ¬ ∃ st : RldStream, s.stream = some (.rld st) ∧ st.mode = .flag) :
    execPacket packet s = .refused .packetOutsideStream := by
  cases hs : s.stream with
  | none => simp [execPacket, hs]
  | some stream =>
    cases stream with
    | lzd st => simp [execPacket, hs]
    | rld st =>
      have hm : st.mode ≠ .flag := fun hm => h ⟨st, hs, hm⟩
      simp [execPacket, hs, hm]

/-- Settles O48: a packet runs exactly at a flag byte. -/
theorem repAppendsItsByte : Obligations.RepAppendsItsByte := fun n b s =>
  ⟨fun st hs hm => (exec_rep n b s).trans (execPacket_next _ s st hs hm),
    fun h => (exec_rep n b s).trans (execPacket_refused _ h)⟩

/-- Settles O49: a packet runs exactly at a flag byte. -/
theorem litCopiesItsBytes : Obligations.LitCopiesItsBytes := fun bytes s =>
  ⟨fun st hs hm => (exec_lit bytes s).trans (execPacket_next _ s st hs hm),
    fun h => (exec_lit bytes s).trans (execPacket_refused _ h)⟩

/-- A packet's effect on the output and the cursor is its output and its encoding (rules R160, R161, R165). -/
@[simp] theorem rldApply_out (packet : Packet) (st : RldStream) :
    (rldApply packet st).out = st.out ++ packetOutput packet := by
  cases packet <;> rfl

@[simp] theorem rldApply_sp (packet : Packet) (st : RldStream) :
    (rldApply packet st).sp = st.sp + (encodePacket packet).length := by
  cases packet with
  | rep n b => rfl
  | lit bytes => simp only [rldApply, rldLit, encodePacket, List.length_cons]; omega

theorem encodePacket_length_pos (packet : Packet) : 0 < (encodePacket packet).length := by
  cases packet <;> exact Nat.succ_pos _

/-- The longest repeat, of 128 bytes, has two bytes (rule R169). -/
theorem packetOutput_length_le (packet : Packet) :
    (packetOutput packet).length ≤ 64 * (encodePacket packet).length := by
  cases packet with
  | rep n b =>
    have hn := n.isLt
    simp only [packetOutput, encodePacket, List.length_replicate, List.length_cons, List.length_nil]
    omega
  | lit bytes => simp only [packetOutput, encodePacket, List.length_cons]; omega

/-- A truncated packet is shorter than its flag announces; otherwise a packet would stand in it, and be a proper
beginning of another (rules R84, R164). -/
theorem short_of_truncatedPacket {tail : List Byte} (h : TruncatedPacket tail) :
    ∃ flag rest, tail = flag :: rest ∧ rest.length + 1 < packetSize flag := by
  obtain ⟨hne, packet, hwf, ⟨missing, hpacket⟩, hshorter⟩ := h
  obtain ⟨flag, rest, rfl⟩ := List.exists_cons_of_ne_nil hne
  refine ⟨flag, rest, rfl, Nat.not_le.1 fun hwhole => ?_⟩
  obtain ⟨packet', more, -, hwf', hbytes, -⟩ := decodePacket_whole hwhole
  have hsame : encodePacket packet' ++ (more ++ missing) = encodePacket packet ++ [] := by
    rw [← List.append_assoc, hbytes, hpacket, List.append_nil]
  have hdecode := decodePacket_encodePacket packet [] hwf
  rw [← hsame, decodePacket_encodePacket packet' _ hwf'] at hdecode
  simp only [Except.ok.injEq, Prod.mk.injEq, List.append_eq_nil_iff] at hdecode
  obtain ⟨-, -, rfl⟩ := hdecode
  rw [← hpacket, List.append_nil] at hshorter
  exact Nat.lt_irrefl _ hshorter

/-! ### The decoder on a sequence of packets -/

/-- The decoder after the packets. -/
def rldRun (packets : List Packet) (st : RldStream) : RldStream :=
  packets.foldl (fun st packet => rldApply packet st) st

@[simp] theorem rldRun_nil (st : RldStream) : rldRun [] st = st := rfl

@[simp] theorem rldRun_cons (packet : Packet) (packets : List Packet) (st : RldStream) :
    rldRun (packet :: packets) st = rldRun packets (rldApply packet st) := rfl

@[simp] theorem rldRun_src (packets : List Packet) (st : RldStream) : (rldRun packets st).src = st.src := by
  induction packets generalizing st with
  | nil => rfl
  | cons packet packets ih => rw [rldRun_cons, ih, rldApply_src]

@[simp] theorem rldRun_mode (packets : List Packet) (st : RldStream) : (rldRun packets st).mode = st.mode := by
  induction packets generalizing st with
  | nil => rfl
  | cons packet packets ih => rw [rldRun_cons, ih, rldApply_mode]

@[simp] theorem rldRun_sp (packets : List Packet) (st : RldStream) :
    (rldRun packets st).sp = st.sp + (packets.flatMap encodePacket).length := by
  induction packets generalizing st with
  | nil => rfl
  | cons packet packets ih =>
    rw [rldRun_cons, ih, rldApply_sp, List.flatMap_cons, List.length_append, Nat.add_assoc]

@[simp] theorem rldRun_out (packets : List Packet) (st : RldStream) :
    (rldRun packets st).out = st.out ++ packets.flatMap packetOutput := by
  induction packets generalizing st with
  | nil => simp
  | cons packet packets ih => rw [rldRun_cons, ih, rldApply_out, List.flatMap_cons, List.append_assoc]

/-- Each packet at the cursor takes one turn of the loop. -/
theorem rldLoop_packets {packets : List Packet} (tail : List Byte) (k : Nat) {st : RldStream}
    (hwf : ∀ p ∈ packets, p.wellFormed = true)
    (hsrc : st.src.drop st.sp = packets.flatMap encodePacket ++ tail) :
    rldLoop (packets.length + k) st = rldLoop k (rldRun packets st) := by
  induction packets generalizing st with
  | nil => rw [List.length_nil, Nat.zero_add, rldRun_nil]
  | cons packet packets ih =>
    obtain ⟨hpacket, hpackets⟩ := List.forall_mem_cons.1 hwf
    rw [List.flatMap_cons, List.append_assoc] at hsrc
    have hdecode : decodePacket (st.src.drop st.sp) = .ok (packet, packets.flatMap encodePacket ++ tail) := by
      rw [hsrc, decodePacket_encodePacket packet _ hpacket]
    obtain ⟨hfetch, hsp⟩ := rldFetch_of_decodePacket hdecode
    have hrest : (rldApply packet st).src.drop (rldApply packet st).sp = packets.flatMap encodePacket ++ tail := by
      rw [rldApply_src, rldApply_sp, ← List.drop_drop, hsrc, List.drop_left]
    rw [List.length_cons, Nat.add_right_comm, rldLoop_succ_of_lt hsp, hfetch, rldRun_cons, ← ih hpackets hrest]
    rfl

theorem length_le_flatMap_encodePacket (packets : List Packet) :
    packets.length ≤ (packets.flatMap encodePacket).length := by
  induction packets with
  | nil => exact Nat.le_refl 0
  | cons packet packets ih =>
    have hpos := encodePacket_length_pos packet
    simp only [List.length_cons, List.flatMap_cons, List.length_append]
    omega

/-- The loop's fuel outlasts the packets by at least the number of bytes after them (rule R306). -/
theorem decodeRle_packets_append {packets : List Packet} (hwf : ∀ p ∈ packets, p.wellFormed = true) (tail : List Byte) :
    ∃ k, tail.length ≤ k ∧ decodeRle (packets.flatMap encodePacket ++ tail) =
      (rldLoop k (rldRun packets (rldStart (packets.flatMap encodePacket ++ tail)))).map RldStream.out := by
  obtain ⟨k, hk⟩ := Nat.exists_eq_add_of_le (length_le_flatMap_encodePacket packets)
  refine ⟨k + tail.length, Nat.le_add_left _ _, ?_⟩
  rw [decodeRle_eq_map, List.length_append, hk, Nat.add_assoc, rldLoop_packets tail _ hwf rfl]

/-- The output of a stream is the concatenation of the outputs of its packets (rule R160). -/
theorem decodeRle_packets {packets : List Packet} (hwf : ∀ p ∈ packets, p.wellFormed = true) :
    decodeRle (packets.flatMap encodePacket) = .ok (packets.flatMap packetOutput) := by
  obtain ⟨k, -, hdecode⟩ := decodeRle_packets_append hwf []
  rw [List.append_nil] at hdecode
  rw [hdecode, rldLoop_of_exhausted (by simp [rldStart])]
  simp [Except.map, rldStart]

/-- A stream that ends inside a packet is the error at that packet's flag (rule R164). -/
theorem decodeRle_truncated {packets : List Packet} {tail : List Byte} (hwf : ∀ p ∈ packets, p.wellFormed = true)
    (htail : TruncatedPacket tail) :
    decodeRle (packets.flatMap encodePacket ++ tail) = .error (packets.flatMap encodePacket).length := by
  obtain ⟨flag, rest, rfl, hshort⟩ := short_of_truncatedPacket htail
  obtain ⟨k, hk, hdecode⟩ := decodeRle_packets_append hwf (flag :: rest)
  obtain ⟨k, rfl⟩ := Nat.exists_eq_add_of_le' (Nat.le_trans (Nat.succ_pos rest.length) hk)
  have hfetch : rldFetch (rldRun packets (rldStart (packets.flatMap encodePacket ++ flag :: rest))) =
      .error (packets.flatMap encodePacket).length := by
    simp [rldFetch, rldStart, decodePacket_truncated hshort]
  rw [hdecode, rldLoop_succ_of_lt (by simp [rldStart]), hfetch]
  rfl

/-! ### `RLD` -/

theorem exec_rld (s : State) : exec .rld s = .next (runUnit (fun src => rldResult (decodeRle src)) s) := rfl

/-- The ends of a command whose unit function answers with bytes (rules R100, R105). -/
theorem exec_okBytes_ends {i : Instr} {s : State} {unit : List Byte → UnitResult} {out : List Byte}
    (hregions : RegionsOk s) (hexec : exec i s = .next (runUnit unit s)) (hunit : unit (readSource s) = okBytes out) :
    if s.dstCap.toNat < out.length then ∃ t, exec i s = .next t ∧ ErrorEnd 11 0 0 s t
    else ∃ t, exec i s = .next t ∧ SuccessEnd out 0 0 false s t := by
  split_ifs with hlong
  · exact ⟨_, hexec, runUnit_okBytes_errorEnd hregions hunit hlong⟩
  · exact ⟨_, hexec, runUnit_okBytes_successEnd hregions hunit (Nat.not_lt.1 hlong)⟩

/-- Settles O40: the packets decode to the concatenation of their outputs. -/
theorem rldRunsThePackets : Obligations.RldRunsThePackets := by
  intro s packets hregions hwf hsource
  refine exec_okBytes_ends hregions (exec_rld s) ?_
  rw [hsource, decodeRle_packets hwf]
  rfl

/-- Settles O41: the error of the decoder comes before the check of the capacity. -/
theorem rldReportsTheTruncatedPacket : Obligations.RldReportsTheTruncatedPacket := by
  intro s packets tail hregions hwf htail hsource
  refine ⟨_, exec_rld s, ?_⟩
  rw [runUnit_of_regionsOk _ s hregions, hsource, decodeRle_truncated hwf htail]
  exact raise_errorEnd .rleTruncated _ 0 s

/-! ### The byte-serial machine -/

/-- The byte-serial machine run over some bytes (rule R163). -/
def rldSerial (bytes : List Byte) (st : RldStream) : RldStream := bytes.foldl (fun st c => rldByte c st) st

theorem decodeRleSerial_eq (src : List Byte) : decodeRleSerial src = rldSerialEnd (rldSerial src (rldStart src)) := rfl

@[simp] theorem rldSerial_nil (st : RldStream) : rldSerial [] st = st := rfl

@[simp] theorem rldSerial_cons (c : Byte) (bytes : List Byte) (st : RldStream) :
    rldSerial (c :: bytes) st = rldSerial bytes (rldByte c st) := rfl

theorem rldSerial_append (front back : List Byte) (st : RldStream) :
    rldSerial (front ++ back) st = rldSerial back (rldSerial front st) := List.foldl_append

theorem rldByte_repFlag {flag : Byte} {st : RldStream} (h : 128 ≤ flag.toNat) (hm : st.mode = .flag) :
    rldByte flag st =
      { st with fsp := st.sp, sp := st.sp + 1, mode := .rep ((flag.extractLsb' 0 7).toNat + 1) } := by
  simp [rldByte, hm, flagBit_eq, h]

theorem rldByte_litFlag {flag : Byte} {st : RldStream} (h : ¬ 128 ≤ flag.toNat) (hm : st.mode = .flag) :
    rldByte flag st = { st with fsp := st.sp, sp := st.sp + 1, mode := .lit (flag.toNat + 1) } := by
  have hcount : (flag.extractLsb' 0 7).toNat = flag.toNat := by
    rw [countField_toNat]
    omega
  simp only [rldByte, hm, flagBit_eq, decide_eq_false h, hcount, Bool.false_eq_true, ↓reduceIte]

/-- No more bytes than a begun literal waits for are copied; the last of them ends it. -/
theorem rldSerial_literal (bytes : List Byte) {k : Nat} {st : RldStream} (hm : st.mode = .lit k) (hk : 0 < k)
    (hle : bytes.length ≤ k) :
    rldSerial bytes st = { st with
      sp := st.sp + bytes.length, out := st.out ++ bytes,
      mode := if k ≤ bytes.length then .flag else .lit (k - bytes.length) } := by
  induction bytes generalizing k st with
  | nil => simp [← hm, Nat.not_le.2 hk]
  | cons c rest ih =>
    rw [List.length_cons] at hle
    have hbyte : rldByte c st = { st with
        sp := st.sp + 1, out := st.out ++ [c], mode := if k ≤ 1 then .flag else .lit (k - 1) } := by
      simp only [rldByte, hm]
    rw [rldSerial_cons, hbyte]
    by_cases hlast : k ≤ 1
    · obtain rfl : rest = [] := List.eq_nil_of_length_eq_zero (by omega)
      simp [hlast]
    · rw [if_neg hlast, ih rfl (by omega) (by omega)]
      simp only [List.length_cons, Nat.sub_le_iff_le_add, List.append_assoc, List.singleton_append, Nat.sub_sub,
        Nat.add_assoc, Nat.add_comm 1]

/-- The bytes of a packet take the machine where the packet takes the decoder (rules R161, R163, R165). -/
theorem rldSerial_encodePacket {packet : Packet} {st : RldStream} (hwf : packet.wellFormed = true)
    (hm : st.mode = .flag) : rldSerial (encodePacket packet) st = rldApply packet st := by
  cases packet with
  | rep n b =>
    obtain ⟨hbit, hfield⟩ := repFlag_field n
    rw [flagBit_eq, decide_eq_true_eq] at hbit
    rw [encodePacket, rldSerial_cons, rldByte_repFlag hbit hm, hfield]
    simp [rldByte, rldApply, rldRep, ← hm]
  | lit bytes =>
    simp only [Packet.wellFormed, litCountOk, Bool.and_eq_true, decide_eq_true_eq] at hwf
    obtain ⟨hpos, hmax⟩ := hwf
    have hflag : (BitVec.ofNat 8 (bytes.length - 1)).toNat = bytes.length - 1 := by
      rw [BitVec.toNat_ofNat]
      omega
    have hcount : bytes.length - 1 + 1 = bytes.length := by omega
    rw [encodePacket, rldSerial_cons, rldByte_litFlag (by omega) hm, hflag, hcount,
      rldSerial_literal bytes rfl hpos le_rfl]
    simp [rldApply, rldLit, ← hm]

theorem rldSerial_packets {packets : List Packet} {st : RldStream} (hwf : ∀ p ∈ packets, p.wellFormed = true)
    (hm : st.mode = .flag) : rldSerial (packets.flatMap encodePacket) st = rldRun packets st := by
  induction packets generalizing st with
  | nil => rfl
  | cons packet packets ih =>
    obtain ⟨hpacket, hpackets⟩ := List.forall_mem_cons.1 hwf
    rw [List.flatMap_cons, rldSerial_append, rldSerial_encodePacket hpacket hm, rldRun_cons,
      ih hpackets ((rldApply_mode packet st).trans hm)]

/-- The bytes of a truncated packet leave the machine inside it, with its flag's offset in `fsp` (rules R163, R164). -/
theorem rldSerialEnd_truncated {tail : List Byte} {st : RldStream} (htail : TruncatedPacket tail)
    (hm : st.mode = .flag) : rldSerialEnd (rldSerial tail st) = .error st.sp := by
  obtain ⟨flag, rest, rfl, hshort⟩ := short_of_truncatedPacket htail
  by_cases hrep : 128 ≤ flag.toNat
  · rw [packetSize_of_rep hrep] at hshort
    obtain rfl : rest = [] := List.eq_nil_of_length_eq_zero (by omega)
    rw [rldSerial_cons, rldByte_repFlag hrep hm]
    rfl
  · rw [packetSize_of_lit hrep] at hshort
    rw [rldSerial_cons, rldByte_litFlag hrep hm, rldSerial_literal rest rfl (by omega) (by omega), if_neg (by omega)]
    rfl

/-- Settles O43: every source is a sequence of packets, on which both pass through the same states, or one followed by a
truncated packet, at whose flag both stop. -/
theorem serialMachineAgreesWithDecoder : Obligations.SerialMachineAgreesWithDecoder := by
  intro src
  obtain ⟨packets, hwf, rfl | ⟨tail, htail, rfl⟩⟩ := everyStreamIsPacketsOrTruncated src
  · rw [decodeRle_packets hwf, decodeRleSerial_eq, rldSerial_packets hwf rfl]
    simp [rldSerialEnd, rldStart]
  · rw [decodeRle_truncated hwf htail, decodeRleSerial_eq, rldSerial_append, rldSerial_packets hwf rfl,
      rldSerialEnd_truncated htail (rldRun_mode _ _)]
    simp [rldStart]

/-! ### Runs of equal bytes -/

/-- Three equal bytes stand at the index. -/
def TripleAt (bytes : List Byte) (j : Nat) : Prop := ∃ b, [b, b, b] <+: bytes.drop j

theorem tripleAt_of_getElem?_eq {bytes : List Byte} {j : Nat} (hj : j + 2 < bytes.length)
    (h1 : bytes[j]? = bytes[j + 1]?) (h2 : bytes[j + 1]? = bytes[j + 2]?) : TripleAt bytes j := by
  simp only [List.getElem?_eq_getElem (show j < bytes.length by omega), List.getElem?_eq_getElem hj,
    List.getElem?_eq_getElem (show j + 1 < bytes.length by omega), Option.some.injEq] at h1 h2
  refine ⟨bytes[j], bytes.drop (j + 3), ?_⟩
  rw [List.drop_eq_getElem_cons (show j < bytes.length by omega), List.drop_eq_getElem_cons (i := j + 1) (by omega),
    List.drop_eq_getElem_cons (i := j + 2) hj, ← h2, ← h1]
  rfl

theorem TripleAt.lt_length {bytes : List Byte} {j : Nat} (h : TripleAt bytes j) : j < bytes.length := by
  obtain ⟨b, hprefix⟩ := h
  have hlen := hprefix.length_le
  simp only [List.length_cons, List.length_nil, List.length_drop] at hlen
  omega

theorem TripleAt.append_right {bytes : List Byte} {j : Nat} (h : TripleAt bytes j) (more : List Byte) :
    TripleAt (bytes ++ more) j := by
  have hlt := h.lt_length
  obtain ⟨b, hprefix⟩ := h
  refine ⟨b, ?_⟩
  rw [List.drop_append_of_le_length hlt.le]
  exact hprefix.trans (List.prefix_append _ _)

theorem replicate_runLength_prefix (b : Byte) (bytes : List Byte) :
    List.replicate (runLength b bytes) b <+: bytes := by
  induction bytes with
  | nil => exact List.prefix_refl []
  | cons c rest ih =>
    by_cases hc : c = b
    · subst hc
      rw [runLength, if_pos rfl, List.replicate_succ]
      exact List.cons_prefix_cons.2 ⟨rfl, ih⟩
    · rw [runLength, if_neg hc]
      exact List.nil_prefix

/-- No more bytes than the run has are taken from its start: they are equal. -/
theorem take_of_le_runLength {b : Byte} {rest : List Byte} {count : Nat} (h : count ≤ runLength b rest + 1) :
    (b :: rest).take count = List.replicate count b := by
  have hrun : List.replicate (runLength b rest + 1) b <+: b :: rest :=
    List.cons_prefix_cons.2 ⟨rfl, replicate_runLength_prefix b rest⟩
  obtain ⟨more, hmore⟩ := Nat.exists_eq_add_of_le h
  rw [hmore, List.replicate_add] at hrun
  simpa using (List.prefix_iff_eq_take.1 ((List.prefix_append _ _).trans hrun)).symm

theorem three_le_runLength_of_tripleAt {b : Byte} {rest : List Byte} (h : TripleAt (b :: rest) 0) :
    3 ≤ runLength b rest + 1 := by
  obtain ⟨c, more, heq⟩ := h
  simp only [List.cons_append, List.nil_append, List.drop_zero, List.cons.injEq] at heq
  obtain ⟨rfl, rfl⟩ := heq
  simp [runLength]

/-! ### The canonical encoder -/

theorem rleLoop_nil (k : Nat) (lit : List Byte) : rleLoop k [] lit = flushLiteral lit := by
  cases k <;> rfl

theorem rleLoop_run {b : Byte} {rest : List Byte} (k : Nat) (lit : List Byte) (h : 3 ≤ runLength b rest + 1) :
    rleLoop (k + 1) (b :: rest) lit =
      flushLiteral lit ++ encodePacket (.rep (BitVec.ofNat 7 (min (runLength b rest + 1) 128 - 1)) b) ++
        rleLoop k ((b :: rest).drop (min (runLength b rest + 1) 128)) [] := if_pos h

theorem rleLoop_full {b : Byte} {rest lit : List Byte} (k : Nat) (h : ¬ 3 ≤ runLength b rest + 1)
    (hfull : lit.length + 1 = 128) :
    rleLoop (k + 1) (b :: rest) lit = flushLiteral (lit ++ [b]) ++ rleLoop k rest [] :=
  (if_neg h).trans (if_pos hfull)

theorem rleLoop_pending {b : Byte} {rest lit : List Byte} (k : Nat) (h : ¬ 3 ≤ runLength b rest + 1)
    (hfull : ¬ lit.length + 1 = 128) : rleLoop (k + 1) (b :: rest) lit = rleLoop k rest (lit ++ [b]) :=
  (if_neg h).trans (if_neg hfull)

/-- A packet as the canonical encoder makes them (rule R168). -/
def CanonicalPacket : Packet → Prop
  | .rep n _ => 2 ≤ n.toNat
  | .lit bytes => litCountOk bytes = true ∧ ∀ j, ¬ TripleAt bytes j

theorem CanonicalPacket.wellFormed {packet : Packet} (h : CanonicalPacket packet) : packet.wellFormed = true := by
  cases packet with
  | rep n b => rfl
  | lit bytes => exact h.1

/-- The stream `e` is a sequence of canonical packets that emit `x` (rules R160, R168). -/
def CanonicalStream (x e : List Byte) : Prop :=
  ∃ packets : List Packet, (∀ p ∈ packets, CanonicalPacket p) ∧ x = packets.flatMap packetOutput ∧
    e = packets.flatMap encodePacket

namespace CanonicalStream

theorem nil : CanonicalStream [] [] := ⟨[], by simp, rfl, rfl⟩

theorem append {x x' e e' : List Byte} (h : CanonicalStream x e) (h' : CanonicalStream x' e') :
    CanonicalStream (x ++ x') (e ++ e') := by
  obtain ⟨packets, hpackets, rfl, rfl⟩ := h
  obtain ⟨packets', hpackets', rfl, rfl⟩ := h'
  exact ⟨packets ++ packets', List.forall_mem_append.2 ⟨hpackets, hpackets'⟩, List.flatMap_append.symm,
    List.flatMap_append.symm⟩

theorem packet {packet : Packet} (h : CanonicalPacket packet) :
    CanonicalStream (packetOutput packet) (encodePacket packet) :=
  ⟨[packet], by simpa using h, by simp, by simp⟩

theorem flush {lit : List Byte} (hlen : lit.length ≤ 128) (htriple : ∀ j, ¬ TripleAt lit j) :
    CanonicalStream lit (flushLiteral lit) := by
  unfold flushLiteral
  split_ifs with hnil
  · rw [hnil]
    exact nil
  · have hpos : 1 ≤ lit.length := List.length_pos_iff.2 hnil
    exact packet (packet := .lit lit) ⟨by simp [litCountOk, hpos, hlen], htriple⟩

theorem repeated {count : Nat} (b : Byte) (h3 : 3 ≤ count) (h128 : count ≤ 128) :
    CanonicalStream (List.replicate count b) (encodePacket (.rep (BitVec.ofNat 7 (count - 1)) b)) := by
  have hfield : (BitVec.ofNat 7 (count - 1)).toNat = count - 1 := by
    rw [BitVec.toNat_ofNat]
    omega
  have houtput : List.replicate count b = packetOutput (.rep (BitVec.ofNat 7 (count - 1)) b) := by
    rw [packetOutput, hfield, Nat.sub_add_cancel (by omega)]
  rw [houtput]
  exact packet (show 2 ≤ (BitVec.ofNat 7 (count - 1)).toNat by omega)

theorem decodes {x e : List Byte} (h : CanonicalStream x e) : decodeRle e = .ok x := by
  obtain ⟨packets, hpackets, rfl, rfl⟩ := h
  exact decodeRle_packets fun p hp => (hpackets p hp).wellFormed

end CanonicalStream

/-- Where a run shorter than three begins, its byte can join the pending literal. -/
theorem not_tripleAt_pending {b : Byte} {rest lit : List Byte} (hrun : ¬ 3 ≤ runLength b rest + 1)
    (htriple : ∀ j < lit.length, ¬ TripleAt (lit ++ b :: rest) j) :
    ∀ j < (lit ++ [b]).length, ¬ TripleAt (lit ++ [b] ++ rest) j := by
  intro j hj hpending
  rw [List.append_assoc, List.singleton_append] at hpending
  rw [List.length_append, List.length_singleton] at hj
  obtain hlt | rfl : j < lit.length ∨ j = lit.length := by omega
  · exact htriple j hlt hpending
  · exact hrun (three_le_runLength_of_tripleAt (by simpa [TripleAt] using hpending))

/-- The loop encodes the pending literal and the bytes left. No three equal bytes begin inside the literal, not even
with bytes still to come: a run of three or more is taken as a repeat where it begins. -/
theorem rleLoop_canonicalStream {k : Nat} {rest lit : List Byte} (hfuel : rest.length ≤ k) (hlen : lit.length < 128)
    (htriple : ∀ j < lit.length, ¬ TripleAt (lit ++ rest) j) : CanonicalStream (lit ++ rest) (rleLoop k rest lit) := by
  induction k generalizing rest lit with
  | zero =>
    obtain rfl : rest = [] := List.eq_nil_of_length_eq_zero (by omega)
    rw [rleLoop_nil]
    rw [List.append_nil] at htriple ⊢
    exact .flush hlen.le fun j hj => htriple j hj.lt_length hj
  | succ k ih =>
    have hlit : ∀ j, ¬ TripleAt lit j := fun j hj => htriple j hj.lt_length (hj.append_right rest)
    cases rest with
    | nil =>
      rw [rleLoop_nil, List.append_nil]
      exact .flush hlen.le hlit
    | cons b rest =>
      rw [List.length_cons] at hfuel
      by_cases hrun : 3 ≤ runLength b rest + 1
      · have hrest := ih (rest := (b :: rest).drop (min (runLength b rest + 1) 128)) (lit := [])
          (by rw [List.length_drop, List.length_cons]; omega) (by decide) (by simp)
        have hrep := CanonicalStream.repeated b (count := min (runLength b rest + 1) 128) (by omega) (by omega)
        rw [← take_of_le_runLength (Nat.min_le_left _ _)] at hrep
        rw [rleLoop_run k lit hrun, List.append_assoc]
        nth_rw 1 [← List.take_append_drop (min (runLength b rest + 1) 128) (b :: rest)]
        exact (CanonicalStream.flush hlen.le hlit).append (hrep.append hrest)
      · have hpending := not_tripleAt_pending hrun htriple
        rw [← List.singleton_append, ← List.append_assoc]
        by_cases hfull : lit.length + 1 = 128
        · have hrest := ih (rest := rest) (lit := []) (by omega) (by decide) (by simp)
          rw [List.singleton_append, rleLoop_full k hrun hfull]
          exact (CanonicalStream.flush (by simp [hfull]) fun j hj =>
            hpending j hj.lt_length (hj.append_right rest)).append hrest
        · rw [List.singleton_append, rleLoop_pending k hrun hfull]
          exact ih (by omega) (by simp; omega) hpending

theorem rleCanonical_canonicalStream (x : List Byte) : CanonicalStream x (rleCanonical x) :=
  rleLoop_canonicalStream (lit := []) le_rfl (by decide) (by simp)

/-- Rule R167 (a). -/
theorem decodeRle_rleEncode (c : Config) (x : List Byte) : decodeRle (rleEncode c x) = .ok x := by
  obtain hcanonical | hadmissible := rleEncode_cases c x
  · rw [hcanonical]
    exact (rleCanonical_canonicalStream x).decodes
  · exact decodeRle_of_rleAdmissible hadmissible

/-- Settles O44: an encoding that is not the canonical one is admissible, and the canonical one is a sequence of
canonical packets that emit the plain bytes. -/
theorem rleEncoderIsAdmissible : Obligations.RleEncoderIsAdmissible := by
  refine ⟨decodeRle_rleEncode, fun x => ?_⟩
  obtain ⟨packets, hpackets, -, hbytes⟩ := rleCanonical_canonicalStream x
  refine ⟨packets, fun p hp => (hpackets p hp).wellFormed, hbytes, fun n b hp => hpackets _ hp, ?_⟩
  rintro bytes hp j hj ⟨h1, h2⟩
  obtain ⟨-, hnone⟩ : litCountOk bytes = true ∧ ∀ j, ¬ TripleAt bytes j := hpackets _ hp
  exact hnone j (tripleAt_of_getElem?_eq hj h1 h2)

/-! ### `RLE` -/

theorem exec_rle (s : State) : exec .rle s = .next (runUnit (fun src => okBytes (rleEncode s.cfg src)) s) := rfl

/-- Settles O45: the unit function answers with bytes on every source. -/
theorem rleEnds : Obligations.RleEnds := fun s hregions => exec_okBytes_ends hregions (exec_rle s) rfl

/-- Settles O46: the result of the `RLE` is the source of the `RLD`, and it decodes to the source of the `RLE`. -/
theorem rldAfterRleIsLossless : Obligations.RldAfterRleIsLossless := by
  intro s t dst cap hexec hcode hregions hfits
  rw [exec_rle, Host.Outcome.next.injEq] at hexec
  subst hexec
  obtain ⟨out, aux, stored, mismatch, hanswer, hend⟩ := runUnit_successEnd_of_errCode hcode
  simp only [okBytes, UnitResult.ok.injEq] at hanswer
  obtain ⟨rfl, -⟩ := hanswer
  refine ⟨_, exec_rld _, runUnit_okBytes_successEnd hregions ?_ (by simpa [takeResult] using hfits)⟩
  rw [readSource_takeResult dst cap hend, decodeRle_rleEncode]
  rfl

/-! ### Sizes -/

theorem flushLiteral_length_le (lit : List Byte) : (flushLiteral lit).length ≤ lit.length + 1 := by
  unfold flushLiteral
  split_ifs <;> simp [encodePacket]

/-- Only a literal of 128 bytes and the last one cost a byte: a repeat saves what the flag of the literal before it
costs. -/
theorem rleLoop_length_le (k : Nat) (rest lit : List Byte) :
    (rleLoop k rest lit).length ≤ lit.length + rest.length + (lit.length + rest.length) / 128 + 1 := by
  induction k generalizing rest lit with
  | zero =>
    have hflush := flushLiteral_length_le lit
    rw [rleLoop]
    omega
  | succ k ih =>
    have hflush := flushLiteral_length_le lit
    cases rest with
    | nil =>
      rw [rleLoop_nil]
      omega
    | cons b rest =>
      by_cases hrun : 3 ≤ runLength b rest + 1
      · have hrun_le := (replicate_runLength_prefix b rest).length_le
        have hrest := ih ((b :: rest).drop (min (runLength b rest + 1) 128)) []
        rw [rleLoop_run k lit hrun]
        simp only [List.length_append, List.length_drop, List.length_cons, List.length_nil, List.length_replicate,
          encodePacket] at hrun_le hrest ⊢
        omega
      · by_cases hfull : lit.length + 1 = 128
        · have hlast := flushLiteral_length_le (lit ++ [b])
          have hrest := ih rest []
          rw [rleLoop_full k hrun hfull]
          simp only [List.length_append, List.length_cons, List.length_nil] at hlast hrest ⊢
          omega
        · have hrest := ih rest (lit ++ [b])
          rw [rleLoop_pending k hrun hfull]
          simp only [List.length_append, List.length_cons, List.length_nil] at hrest ⊢
          omega

theorem flatMap_packetOutput_length_le (packets : List Packet) :
    (packets.flatMap packetOutput).length ≤ 64 * (packets.flatMap encodePacket).length := by
  induction packets with
  | nil => exact Nat.le_refl 0
  | cons packet packets ih =>
    have hpacket := packetOutput_length_le packet
    simp only [List.flatMap_cons, List.length_append]
    omega

/-- Settles O47: the loop from an empty literal, and the packets of a stream that decodes. -/
theorem runLengthSizeBounds : Obligations.RunLengthSizeBounds := by
  refine ⟨fun x => by simpa [rleCanonical] using rleLoop_length_le x.length x [], fun src out hdecode => ?_⟩
  obtain ⟨packets, hwf, rfl | ⟨tail, htail, rfl⟩⟩ := everyStreamIsPacketsOrTruncated src
  · rw [decodeRle_packets hwf, Except.ok.injEq] at hdecode
    subst hdecode
    exact flatMap_packetOutput_length_le packets
  · rw [decodeRle_truncated hwf htail] at hdecode
    cases hdecode

end Sys2Proof.Machine

/-! PROOF. The dictionary codec (rules R180 to R197). A token at the cursor is its flag bit and its bytes there, so the
decoder's loop follows the tokens of a layout in order, and sees no byte after those it has used. The default encoder's
tokens emit the plain bytes, so its stream decodes to them. -/

namespace Sys2Proof.Machine

/-! ### One token -/

theorem exec_l (b : Byte) (s : State) : exec (.l b) s = execToken (.l b) s := rfl

theorem exec_p (dist : BitVec 12) (len : BitVec 4) (s : State) : exec (.p dist len) s = execToken (.p dist len) s := rfl

theorem atToken_iff (literal : Bool) (n : Nat) (st : LzdStream) :
    atToken literal n st = true ↔ st.bit < 8 ∧ st.flag.getLsbD st.bit = literal ∧ st.out.length < n := by
  simp [atToken, and_assoc]

/-- Where no dictionary stream is at a token of that kind it is refused (log 12). -/
theorem execToken_refused (token : Token) {s : State}
    (h : ¬ ∃ st : LzdStream, s.stream = some (.lzd st) ∧ st.bit < 8 ∧ st.flag.getLsbD st.bit = token.isLiteral ∧
      st.out.length < s.dstCap.toNat) :
    execToken token s = .refused .tokenOutsideStream := by
  cases hs : s.stream with
  | none => simp [execToken, hs]
  | some stream =>
    cases stream with
    | rld st => simp [execToken, hs]
    | lzd st =>
      have hat : ¬ atToken token.isLiteral (dstCount s) st = true := fun hat => h ⟨st, hs, (atToken_iff _ _ _).1 hat⟩
      simp [execToken, hs, hat]

/-- Settles O57: a token runs exactly where its flag bit announces it. -/
theorem literalTokenAppendsItsByte : Obligations.LiteralTokenAppendsItsByte := fun b s =>
  ⟨fun st hs hbit hflag hout =>
      (exec_l b s).trans (execToken_next _ s st hs ((atToken_iff _ _ _).2 ⟨hbit, hflag, hout⟩)),
    fun h => (exec_l b s).trans (execToken_refused _ h)⟩

/-- The next byte of a copy: the one `dist` back in the output so far, or 0x20 before its start (rule R189). -/
def copiedByte (dist : Nat) (out : List Byte) : Byte :=
  if out.length < dist then 0x20 else byteAt out (out.length - dist)

theorem copyBack_succ (dist count : Nat) (out : List Byte) :
    copyBack dist (count + 1) out = copyBack dist count (out ++ [copiedByte dist out]) := rfl

theorem copiedByte_getElem? {dist : Nat} (hdist : 0 < dist) {out more : List Byte} :
    some (copiedByte dist out) = if out.length < dist then some 0x20 else (out ++ more)[out.length - dist]? := by
  unfold copiedByte
  split_ifs with hstart
  · rfl
  · have hback : out.length - dist < out.length := by omega
    simp [byteAt, List.getElem?_append_left hback, hback]

/-- Each byte of a copy is the one `dist` back in what has been output by then. -/
theorem copyBack_getElem? {dist : Nat} (hdist : 0 < dist) {count j : Nat} (out : List Byte) (hj : j < count) :
    (copyBack dist count out)[out.length + j]? =
      if out.length + j < dist then some 0x20 else (copyBack dist count out)[out.length + j - dist]? := by
  induction count generalizing out j with
  | zero => exact absurd hj (Nat.not_lt_zero j)
  | succ count ih =>
    rw [copyBack_succ]
    cases j with
    | zero =>
      obtain ⟨more, hmore⟩ := copyBack_extends dist count (out ++ [copiedByte dist out])
      rw [← hmore, List.append_assoc, Nat.add_zero, ← copiedByte_getElem? hdist,
        List.getElem?_append_right (Nat.le_refl _), Nat.sub_self]
      rfl
    | succ j =>
      have hrest := ih (out ++ [copiedByte dist out]) (Nat.lt_of_succ_lt_succ hj)
      rwa [List.length_append, List.length_singleton, Nat.add_assoc, Nat.add_comm 1 j] at hrest

/-- A copy appends its bytes, each as `copyBack_getElem?` says. -/
theorem copyBack_eq_append {dist : Nat} (hdist : 0 < dist) (count : Nat) (out : List Byte) :
    ∃ new, copyBack dist count out = out ++ new ∧ new.length = count ∧ ∀ j < new.length,
      new[j]? = if out.length + j < dist then some 0x20 else (out ++ new)[out.length + j - dist]? := by
  obtain ⟨new, hnew⟩ := copyBack_extends dist count out
  have hlen := copyBack_length dist count out
  rw [← hnew, List.length_append, Nat.add_left_cancel_iff] at hlen
  refine ⟨new, hnew.symm, hlen, fun j hj => ?_⟩
  have hbyte := copyBack_getElem? hdist out (hlen ▸ hj)
  rwa [← hnew, List.getElem?_append_right (Nat.le_add_right _ _), Nat.add_sub_cancel_left] at hbyte

/-- A pointer whose distance is 0 or, unless overshoot is truncated, whose length runs past the expected one (rule
R190). -/
def PointerError (c : Config) (n : Nat) (dist : BitVec 12) (len : BitVec 4) (st : LzdStream) : Prop :=
  dist = 0 ∨ (n < st.out.length + pointerLength len ∧ c.lzOvershoot = .error)

theorem lzdPointer_error {c : Config} {n : Nat} {dist : BitVec 12} {len : BitVec 4} {st : LzdStream}
    (h : PointerError c n dist len st) : lzdPointer c n dist len st = .error st.fsp := by
  obtain rfl | hlong := h
  · rfl
  · simp [lzdPointer, hlong]

theorem lzdPointer_ok {c : Config} {n : Nat} {dist : BitVec 12} {len : BitVec 4} {st : LzdStream}
    (h : ¬ PointerError c n dist len st) :
    lzdPointer c n dist len st = .ok { st with
      out := copyBack dist.toNat (min (pointerLength len) (n - st.out.length)) st.out
      sp := st.sp + 2
      bit := st.bit + 1 } := by
  obtain ⟨hdist, hlong⟩ := not_or.1 h
  rw [lzdPointer, if_neg (BitVec.toNat_pos_of_ne_zero hdist).ne', if_neg hlong]

/-- Settles O58: the errors of `lzdPointer_error` end the command, and otherwise the copy goes on as
`copyBack_eq_append` says. -/
theorem pointerTokenCopiesFromTheOutput : Obligations.PointerTokenCopiesFromTheOutput := by
  refine fun dist len s => ⟨fun st hs hbit hflag hout => ?_, fun h => (exec_p dist len s).trans (execToken_refused _ h)⟩
  have hexec : exec (.p dist len) s = .next (lzdContinue (lzdPointer s.cfg s.dstCap.toNat dist len st) s) :=
    (exec_p dist len s).trans (execToken_next _ s st hs ((atToken_iff _ _ _).2 ⟨hbit, hflag, hout⟩))
  intro length
  split_ifs with herror
  · rw [lzdPointer_error herror] at hexec
    exact ⟨_, hexec, raise_errorEnd .lzStream _ 0 s⟩
  · rw [lzdPointer_ok herror] at hexec
    obtain ⟨hdist, -⟩ := not_or.1 herror
    obtain ⟨new, hcopy, hlen, hbytes⟩ := copyBack_eq_append (BitVec.toNat_pos_of_ne_zero hdist)
      (min length (s.dstCap.toNat - st.out.length)) st.out
    exact ⟨new, hcopy ▸ hexec, hlen, hbytes⟩

/-! ### The checksum -/

theorem checksumTerm_zero (b : Byte) : checksumTerm .zero b = b.toNat := rfl

/-- Under sign extension a byte's term is its value in two's complement (rule R183). -/
theorem checksumTerm_sign (b : Byte) : checksumTerm .sign b = b.toInt := by
  have hb := b.isLt
  simp only [checksumTerm, BitVec.toInt]
  split_ifs <;> omega

/-- Settles O53: each byte's term is its value, as a natural number or in two's complement. -/
theorem checksumIsTheSumOfTheBytes : Obligations.ChecksumIsTheSumOfTheBytes := by
  refine fun x => ⟨?_, ?_⟩
  · have hterms : x.map (checksumTerm .zero) = (x.map BitVec.toNat).map Nat.cast := by simp [checksumTerm_zero]
    rw [checksum, hterms, ← Nat.cast_list_sum, BitVec.ofInt_natCast]
  · rw [checksum, List.map_congr_left fun b _ => checksumTerm_sign b]

/-! ### `LZE` -/

theorem exec_lze (s : State) : exec .lze s = .next (runUnit (lzeUnit s.cfg) s) := rfl

theorem runUnit_err_errorEnd {unit : List Byte → UnitResult} {s : State} {code : ErrCode} {info computed : Word}
    (hregions : RegionsOk s) (hunit : unit (readSource s) = .err code info computed) :
    ErrorEnd (errNumber code).toNat info computed s (runUnit unit s) := by
  rw [runUnit_of_regionsOk unit s hregions, hunit]
  exact raise_errorEnd code info computed s

theorem runUnit_ok_errorEnd {unit : List Byte → UnitResult} {s : State} {out : List Byte} {aux stored : Word}
    {mismatch : Bool} (hregions : RegionsOk s) (hunit : unit (readSource s) = .ok out aux stored mismatch)
    (hlong : s.dstCap.toNat < out.length) : ErrorEnd 11 0 0 s (runUnit unit s) := by
  rw [runUnit_of_regionsOk unit s hregions, hunit, endCommand_ok, if_pos hlong]
  exact raise_errorEnd .dstCapacity 0 0 s

theorem runUnit_ok_successEnd {unit : List Byte → UnitResult} {s : State} {out : List Byte} {aux stored : Word}
    {mismatch : Bool} (hregions : RegionsOk s) (hunit : unit (readSource s) = .ok out aux stored mismatch)
    (hfits : out.length ≤ s.dstCap.toNat) : SuccessEnd out aux stored mismatch s (runUnit unit s) := by
  rw [runUnit_of_regionsOk unit s hregions, hunit, endCommand_ok, if_neg (Nat.not_lt.2 hfits)]
  exact succeed_successEnd out aux stored mismatch s (hfits.trans_lt s.dstCap.isLt)

/-- The bytes of a word are its quotients by the powers of 256 (rule R11). -/
theorem bytesLe32_eq (v : Word) :
    bytesLe32 v = [BitVec.ofNat 8 v.toNat, BitVec.ofNat 8 (v.toNat / 2 ^ 8), BitVec.ofNat 8 (v.toNat / 2 ^ 16),
      BitVec.ofNat 8 (v.toNat / 2 ^ 24)] := by
  simp [bytesLe32, BitVec.extractLsb', Nat.shiftRight_eq_div_pow]

/-- Settles O52: the unit function answers with the stream and the trailer on every source. -/
theorem lzeEnds : Obligations.LzeEnds := by
  intro s hregions sum out
  have hunit : lzeUnit s.cfg (readSource s) = .ok out sum 0 false := by rw [lzeUnit, bytesLe32_eq]
  split_ifs with hlong
  · exact ⟨_, exec_lze s, runUnit_ok_errorEnd hregions hunit hlong⟩
  · exact ⟨_, exec_lze s, runUnit_ok_successEnd hregions hunit (Nat.not_lt.1 hlong)⟩

/-! ### The token at the cursor -/

/-- A decoded token's bytes stand at the head of the bytes it was decoded from. -/
theorem eq_encodeToken_of_decodeToken {literal : Bool} {bytes more : List Byte} {token : Token}
    (h : decodeToken literal bytes = .ok (token, more)) :
    literal = token.isLiteral ∧ bytes = encodeToken token ++ more := by
  cases literal with
  | true =>
    cases bytes with
    | nil => cases h
    | cons b rest =>
      cases h
      exact ⟨rfl, rfl⟩
  | false =>
    obtain _ | ⟨b1, _ | ⟨b2, rest⟩⟩ := bytes
    · cases h
    · cases h
    · cases h
      refine ⟨rfl, ?_⟩
      rw [encodeToken, BitVec.extractLsb'_append_eq_right, BitVec.extractLsb'_append_eq_left,
        BitVec.extractLsb'_append_extractLsb']
      rfl

/-- The token fetched is the one whose flag bit and whose bytes stand at the cursor (rules R188, R189). -/
theorem lzdFetch_ok_iff {st : LzdStream} {token : Token} :
    lzdFetch st = .ok token ↔
      st.flag.getLsbD st.bit = token.isLiteral ∧ encodeToken token <+: st.src.drop st.sp := by
  constructor
  · intro h
    unfold lzdFetch at h
    split at h
    · next token' more hdecode =>
      cases h
      obtain ⟨hflag, hbytes⟩ := eq_encodeToken_of_decodeToken hdecode
      exact ⟨hflag, more, hbytes.symm⟩
    · cases h
  · rintro ⟨hflag, more, hbytes⟩
    refine lzdFetch_of_decodeToken (more := more) ?_
    rw [hflag, ← hbytes, decodeToken_encodeToken]

theorem encodeToken_length (token : Token) : (encodeToken token).length = if token.isLiteral then 1 else 2 := by
  cases token <;> rfl

/-! ### No byte after the used ones matters -/

theorem take_eq_of_take_prefix {src src' : List Byte} {used : Nat} (hle : used ≤ src.length)
    (hhead : src.take used <+: src') : src'.take used = src.take used := by
  have htake := List.prefix_iff_eq_take.1 hhead
  rw [List.length_take_of_le hle] at htake
  exact htake.symm

/-- The bytes below the first `used` of a source stand at the same places of every source that begins with those. -/
theorem prefix_drop_of_take_prefix {src src' bytes : List Byte} {sp used : Nat} (hhead : src.take used <+: src')
    (hbytes : bytes <+: src.drop sp) (hused : sp + bytes.length ≤ used) : bytes <+: src'.drop sp := by
  have hwithin : bytes <+: (src.take used).drop sp := by
    rw [List.drop_take, List.prefix_take_iff]
    exact ⟨hbytes, by omega⟩
  exact hwithin.trans (hhead.drop sp)

theorem lzdFetch_of_take_prefix {st : LzdStream} {token : Token} {src' : List Byte} {used : Nat}
    (hfetch : lzdFetch st = .ok token) (hhead : st.src.take used <+: src')
    (hused : st.sp + (encodeToken token).length ≤ used) : lzdFetch { st with src := src' } = .ok token := by
  obtain ⟨hflag, hbytes⟩ := lzdFetch_ok_iff.1 hfetch
  exact lzdFetch_ok_iff.2 ⟨hflag, prefix_drop_of_take_prefix hhead hbytes hused⟩

theorem byteAt_of_take_prefix {src src' : List Byte} {sp used : Nat} (hhead : src.take used <+: src')
    (hsp : sp < src.length) (hused : sp < used) : sp < src'.length ∧ byteAt src' sp = byteAt src sp := by
  have hbyte : [src[sp]] <+: src.drop sp := by
    rw [List.drop_eq_getElem_cons hsp]
    exact List.prefix_append [_] _
  obtain ⟨more, hmore⟩ := prefix_drop_of_take_prefix hhead hbyte hused
  have hget : src'[sp]? = some src[sp] := by rw [← List.head?_drop, ← hmore]; rfl
  obtain ⟨hsp', -⟩ := List.getElem?_eq_some_iff.1 hget
  refine ⟨hsp', ?_⟩
  rw [byteAt, byteAt, List.getD_eq_getElem?_getD, hget, List.getD_eq_getElem _ _ hsp, Option.getD_some]

/-- A group read moves the cursor over the flag byte if it reads one. -/
theorem lzdGroup_sp {st g : LzdStream} (h : lzdGroup st = .ok g) (hsp : st.sp ≤ st.src.length) :
    st.sp ≤ g.sp ∧ g.sp ≤ st.src.length := by
  obtain ⟨-, rfl⟩ | ⟨-, hlt, rfl⟩ := lzdGroup_cases h
  · exact ⟨Nat.le_refl _, hsp⟩
  · exact ⟨Nat.le_succ _, hlt⟩

theorem lzdGroup_of_take_prefix {st g : LzdStream} {src' : List Byte} {used : Nat} (hgroup : lzdGroup st = .ok g)
    (hhead : st.src.take used <+: src') (hused : g.sp ≤ used) :
    lzdGroup { st with src := src' } = .ok { g with src := src' } := by
  obtain ⟨hbit, rfl⟩ | ⟨hbit, hsp, rfl⟩ := lzdGroup_cases hgroup
  · exact lzdGroup_of_bit_lt hbit
  · obtain ⟨hsp', hflag⟩ := byteAt_of_take_prefix hhead hsp hused
    simp [lzdGroup, Nat.not_lt.2 hbit, Nat.not_le.2 hsp', hflag]

theorem lzdApply_src (c : Config) (n : Nat) (token : Token) (st : LzdStream) (src' : List Byte) :
    lzdApply c n token { st with src := src' } = (lzdApply c n token st).map fun st' => { st' with src := src' } := by
  cases token with
  | l b => rfl
  | p dist len =>
    simp only [lzdApply, lzdPointer]
    split_ifs <;> rfl

theorem lzdStep_ok_iff {c : Config} {n : Nat} {st st' : LzdStream} :
    lzdStep c n st = .ok st' ↔
      ∃ g token, lzdGroup st = .ok g ∧ lzdFetch g = .ok token ∧ lzdApply c n token g = .ok st' := by
  unfold lzdStep
  cases lzdGroup st with
  | error at' => simp
  | ok g => cases hfetch : lzdFetch g <;> simp [hfetch]

/-- The cursor moves over the bytes of the token and of its group's flag, which are bytes of the source. -/
theorem lzdStep_sp {c : Config} {n : Nat} {st st' : LzdStream} (h : lzdStep c n st = .ok st')
    (hout : st.out.length < n) (hsp : st.sp ≤ st.src.length) :
    st.sp ≤ st'.sp ∧ st'.sp ≤ st'.src.length ∧ st'.out.length ≤ n := by
  obtain ⟨g, token, hgroup, hfetch, happly⟩ := lzdStep_ok_iff.1 h
  obtain ⟨hle, -⟩ := lzdGroup_sp hgroup hsp
  obtain ⟨-, hroom⟩ := lzdFetch_ok hfetch
  obtain ⟨hsrc, -, hsp', -, -, hn⟩ := lzdApply_ok happly (by rwa [lzdGroup_out hgroup])
  rw [hsrc]
  omega

theorem lzdStep_of_take_prefix {c : Config} {n : Nat} {st st' : LzdStream} {src' : List Byte} {used : Nat}
    (h : lzdStep c n st = .ok st') (hout : st.out.length < n) (hhead : st.src.take used <+: src')
    (hused : st'.sp ≤ used) : lzdStep c n { st with src := src' } = .ok { st' with src := src' } := by
  obtain ⟨g, token, hgroup, hfetch, happly⟩ := lzdStep_ok_iff.1 h
  obtain ⟨-, -, hsp, -⟩ := lzdApply_ok happly (by rwa [lzdGroup_out hgroup])
  rw [← encodeToken_length] at hsp
  refine lzdStep_ok_iff.2 ⟨_, token, lzdGroup_of_take_prefix hgroup hhead (by omega),
    lzdFetch_of_take_prefix hfetch (by rwa [lzdGroup_src hgroup]) (hsp ▸ hused), ?_⟩
  rw [lzdApply_src, happly]
  rfl

/-- The loop stops with the expected length and with the cursor inside the source, given as much fuel as there are bytes
owed; and it runs the same on every source that begins with the bytes it has used. -/
theorem lzdLoop_ok {c : Config} {n k : Nat} {st st' : LzdStream} (h : lzdLoop c n k st = .ok st')
    (hsp : st.sp ≤ st.src.length) (hout : st.out.length ≤ n) (hfuel : n ≤ st.out.length + k) :
    st'.out.length = n ∧ st.sp ≤ st'.sp ∧ st'.sp ≤ st.src.length ∧ ∀ src', st.src.take st'.sp <+: src' →
      lzdLoop c n k { st with src := src' } = .ok { st' with src := src' } := by
  induction k generalizing st with
  | zero =>
    cases h
    exact ⟨by omega, Nat.le_refl _, hsp, fun _ _ => rfl⟩
  | succ k ih =>
    by_cases hdone : n ≤ st.out.length
    · rw [lzdLoop_of_complete c hdone] at h
      cases h
      exact ⟨by omega, Nat.le_refl _, hsp, fun src' _ => lzdLoop_of_complete c (st := { st' with src := src' }) hdone _⟩
    · have howed : st.out.length < n := Nat.not_le.1 hdone
      rw [lzdLoop_succ_of_lt c howed] at h
      cases hstep : lzdStep c n st with
      | error at' =>
        rw [hstep] at h
        cases h
      | ok st1 =>
        rw [hstep] at h
        obtain ⟨hsrc, hlt⟩ := lzdStep_ok hstep howed
        obtain ⟨hle, hsp1, hn⟩ := lzdStep_sp hstep howed hsp
        obtain ⟨hlen, hle', hend, hsame⟩ := ih h hsp1 hn (by omega)
        rw [hsrc] at hend hsame
        refine ⟨hlen, hle.trans hle', hend, fun src' hhead => ?_⟩
        rw [lzdLoop_succ_of_lt c (st := { st with src := src' }) howed, lzdStep_of_take_prefix hstep howed hhead hle']
        exact hsame src' hhead

/-! ### The contract of a token decoder -/

/-- What rule R197 demands of a decoder: its output has the expected length, it uses bytes of its source, and it decodes
every source that begins with the used bytes to the same. -/
def MeetsContract (decode : List Byte → Nat → Except Nat (List Byte × Nat)) : Prop :=
  ∀ src n out used, decode src n = .ok (out, used) → out.length = n ∧ used ≤ src.length ∧
    ∀ src', src.take used <+: src' → decode src' n = .ok (out, used)

theorem lzssDecode_meetsContract (c : Config) : MeetsContract (lzssDecode c) := by
  intro src n out used h
  simp only [lzssDecode] at h
  split at h
  · cases h
  · next st hloop =>
    cases h
    obtain ⟨hlen, -, hend, hsame⟩ := lzdLoop_ok hloop (Nat.zero_le _) (Nat.zero_le _) (Nat.le_add_left _ _)
    refine ⟨hlen, hend, fun src' hhead => ?_⟩
    have hloop' : lzdLoop c n n (lzdStart src') = .ok { st with src := src' } := hsame src' hhead
    simp only [lzssDecode, hloop']

/-- What the free format takes the first `used` bytes of a source for: a whole stream of `n` bytes, or none. -/
def freeHead (src : List Byte) (n used : Nat) : Option (List Byte × Nat) :=
  match Free.lzFormatDecode (src.take used) n with
  | some out => if out.length = n then some (out, used) else none
  | none => none

theorem freeHead_used {src out : List Byte} {n k used : Nat} (h : freeHead src n k = some (out, used)) : k = used := by
  unfold freeHead at h
  split at h
  · split_ifs at h
    cases h
    rfl
  · cases h

theorem freeHead_of_take_eq {src src' : List Byte} {k : Nat} (h : src'.take k = src.take k) (n : Nat) :
    freeHead src' n k = freeHead src n k := by
  rw [freeHead, freeHead, h]

theorem findSome?_range_eq_some_iff {α : Type} {f : Nat → Option α} {m : Nat} {a : α} :
    (List.range m).findSome? f = some a ↔ ∃ k < m, f k = some a ∧ ∀ j < k, f j = none := by
  rw [List.findSome?_eq_some_iff]
  constructor
  · rintro ⟨front, k, back, hrange, hk, hnone⟩
    have hsorted := List.pairwise_lt_range (n := m)
    rw [hrange, List.pairwise_append, List.pairwise_cons] at hsorted
    obtain ⟨-, ⟨hback, -⟩, -⟩ := hsorted
    have hmem : ∀ j, j < m ↔ j ∈ front ∨ j = k ∨ j ∈ back := fun j => by
      rw [← List.mem_range, hrange, List.mem_append, List.mem_cons]
    refine ⟨k, (hmem k).2 (.inr (.inl rfl)), hk, fun j hj => ?_⟩
    obtain hfront | rfl | hlater := (hmem j).1 (hj.trans ((hmem k).2 (.inr (.inl rfl))))
    · exact hnone j hfront
    · exact absurd hj (Nat.lt_irrefl _)
    · exact absurd hj (Nat.lt_asymm (hback j hlater))
  · rintro ⟨k, hkm, hk, hnone⟩
    obtain ⟨d, rfl⟩ := Nat.exists_eq_add_of_lt hkm
    refine ⟨List.range k, k, (List.range d).map (k + 1 + ·), ?_, hk, fun j hj => hnone j (List.mem_range.1 hj)⟩
    rw [show k + d + 1 = k + 1 + d by omega, List.range_add, List.range_succ, List.append_assoc]
    rfl

/-- The free format's decoder takes the shortest head that is a whole stream (rule R197). -/
theorem freeDecode_ok_iff {src out : List Byte} {n used : Nat} :
    freeDecode src n = .ok (out, used) ↔
      used ≤ src.length ∧ freeHead src n used = some (out, used) ∧ ∀ k < used, freeHead src n k = none := by
  have hfound : freeDecode src n = .ok (out, used) ↔
      (List.range (src.length + 1)).findSome? (freeHead src n) = some (out, used) := by
    have hdef : freeDecode src n = match (List.range (src.length + 1)).findSome? (freeHead src n) with
      | some r => .ok r
      | none => .error (Free.lzFormatError src n) := rfl
    rw [hdef]
    split <;> simp [*]
  rw [hfound, findSome?_range_eq_some_iff]
  constructor
  · rintro ⟨k, hk, hhead, hnone⟩
    obtain rfl := freeHead_used hhead
    exact ⟨Nat.le_of_lt_succ hk, hhead, hnone⟩
  · rintro ⟨hle, hhead, hnone⟩
    exact ⟨used, Nat.lt_succ_of_le hle, hhead, hnone⟩

theorem freeDecode_meetsContract : MeetsContract freeDecode := by
  intro src n out used h
  obtain ⟨hlen, hle, -⟩ := freeDecode_ok h
  obtain ⟨-, hwhole, hnone⟩ := freeDecode_ok_iff.1 h
  refine ⟨hlen, hle, fun src' hhead => ?_⟩
  have htake := take_eq_of_take_prefix hle hhead
  have hsame : ∀ k ≤ used, freeHead src' n k = freeHead src n k := fun k hk => by
    refine freeHead_of_take_eq ?_ n
    rw [← Nat.min_eq_left hk, ← List.take_take, ← List.take_take, htake]
  have hle' : used ≤ src'.length := by
    have hlen' := congrArg List.length htake
    rw [List.length_take, List.length_take_of_le hle] at hlen'
    omega
  exact freeDecode_ok_iff.2
    ⟨hle', (hsame used (Nat.le_refl _)).trans hwhole, fun k hk => (hsame k hk.le).trans (hnone k hk)⟩

theorem otherDecode_meetsContract (c : Config) : MeetsContract (otherDecode c) := by
  intro src n out used h
  simp only [otherDecode] at h ⊢
  split_ifs at h ⊢
  · exact freeDecode_meetsContract src n out used h
  · exact lzssDecode_meetsContract c src n out used h

theorem lzDecodeTokens_meetsContract (c : Config) : MeetsContract (lzDecodeTokens c) := by
  unfold lzDecodeTokens
  cases c.lzFormat with
  | lzss => exact lzssDecode_meetsContract c
  | other => exact otherDecode_meetsContract c

/-- Settles O54: every source that begins with the used bytes has them as its head. -/
theorem tokenDecoderMeetsItsContract : Obligations.TokenDecoderMeetsItsContract := by
  intro c src n out used h
  obtain ⟨hlen, hle, hsame⟩ := lzDecodeTokens_meetsContract c src n out used h
  exact ⟨hlen, hle, fun src' _ htake => hsame src' (htake ▸ List.take_prefix used src')⟩

/-! ### `LZD` -/

theorem exec_lzd (s : State) :
    exec .lzd s = .next (runUnit (lzdUnit s.cfg (s.ctrl.getLsbD 0) s.dstCap.toNat) s) := rfl

theorem drop_readSource {s : State} {i : Nat} (h : i < s.srcLen.toNat) :
    (readSource s).drop i = sourceByte s i :: (readSource s).drop (i + 1) := by
  have hi : i < (readSource s).length := by rwa [readSource_length]
  rw [← byteAt_readSource h, byteAt, List.getD_eq_getElem _ _ hi, List.drop_eq_getElem_cons hi]

/-- The trailer's word, its bytes taken from the lowest address up (rule R184). -/
theorem le32_drop_readSource {s : State} {used : Nat} (h : used + 4 ≤ s.srcLen.toNat) :
    le32 ((readSource s).drop used) = BitVec.ofNat 32 ((sourceByte s used).toNat +
      2 ^ 8 * (sourceByte s (used + 1)).toNat + 2 ^ 16 * (sourceByte s (used + 2)).toNat +
      2 ^ 24 * (sourceByte s (used + 3)).toNat) := by
  have htrailer : ((readSource s).drop used).take 4 =
      [sourceByte s used, sourceByte s (used + 1), sourceByte s (used + 2), sourceByte s (used + 3)] := by
    rw [drop_readSource (by omega), drop_readSource (by omega), drop_readSource (by omega), drop_readSource (by omega)]
    rfl
  rw [le32, htrailer]
  congr 1
  simp only [leNat]
  omega

/-- Rules R184 and R185: the trailer's checks in their order. -/
theorem lzdTrailer_eq (c : Config) (strict : Bool) (src out : List Byte) (used : Nat) :
    lzdTrailer c strict src out used =
      if src.length - used < 4 ∨ (4 < src.length - used ∧ c.lzTrailing = .error) then lzStreamError used
      else if checksum c.csumExt out ≠ le32 (src.drop used) ∧ strict = true then
        .err .checksum (le32 (src.drop used)) (checksum c.csumExt out)
      else
        .ok out (checksum c.csumExt out) (le32 (src.drop used)) (checksum c.csumExt out != le32 (src.drop used)) := by
  unfold lzdTrailer
  by_cases hshort : src.length - used < 4
  · rw [if_pos hshort, if_pos (.inl hshort)]
  · simp only [hshort, false_or, if_false]

/-- Settles O51: the branches of `lzdTrailer_eq`; a decoded output has the expected length, which is `DSTCAP`. -/
theorem lzdEnds : Obligations.LzdEnds := by
  intro s hregions
  refine ⟨fun at' herror => ?_, fun out used hok => ?_⟩
  · refine ⟨_, exec_lzd s, runUnit_err_errorEnd (code := .lzStream) hregions ?_⟩
    rw [lzdUnit, herror]
    rfl
  · obtain ⟨hlen, -, -⟩ := lzDecodeTokens_meetsContract _ _ _ _ _ hok
    have hunit : lzdUnit s.cfg (s.ctrl.getLsbD 0) s.dstCap.toNat (readSource s) =
        lzdTrailer s.cfg (s.ctrl.getLsbD 0) (readSource s) out used := by rw [lzdUnit, hok]
    rw [lzdTrailer_eq, readSource_length] at hunit
    intro left
    split_ifs with hleft
    · rw [if_pos hleft] at hunit
      exact ⟨_, exec_lzd s, runUnit_err_errorEnd (code := .lzStream) hregions hunit⟩
    · have hroom : used + 4 ≤ s.srcLen.toNat := by omega
      rw [if_neg hleft, le32_drop_readSource hroom] at hunit
      intro stored computed
      split_ifs with hstrict
      · rw [if_pos hstrict] at hunit
        exact ⟨_, exec_lzd s, runUnit_err_errorEnd (code := .checksum) hregions hunit⟩
      · rw [if_neg hstrict] at hunit
        exact ⟨_, exec_lzd s, runUnit_ok_successEnd hregions hunit hlen.le⟩

/-! ### Tokens in a layout -/

theorem tokensOutput_cons (token : Token) (tokens : List Token) (out : List Byte) :
    tokensOutput (token :: tokens) out = tokensOutput tokens (tokensOutput [token] out) := by
  cases token <;> rfl

theorem tokensOutput_append (front back : List Token) (out : List Byte) :
    tokensOutput (front ++ back) out = tokensOutput back (tokensOutput front out) := by
  induction front generalizing out with
  | nil => rfl
  | cons token front ih => rw [List.cons_append, tokensOutput_cons, ih, ← tokensOutput_cons]

/-- A token emits at least as many bytes as it takes in the stream, and it takes one at least. -/
theorem tokensOutput_length (tokens : List Token) (out : List Byte) :
    out.length + (tokens.flatMap encodeToken).length ≤ (tokensOutput tokens out).length ∧
      tokens.length ≤ (tokens.flatMap encodeToken).length := by
  induction tokens generalizing out with
  | nil => exact ⟨Nat.le_refl _, Nat.le_refl _⟩
  | cons token tokens ih =>
    have hone : out.length + (encodeToken token).length ≤ (tokensOutput [token] out).length ∧
        1 ≤ (encodeToken token).length := by
      cases token with
      | l b => simp [encodeToken, tokensOutput]
      | p dist len =>
        simp only [encodeToken, tokensOutput, copyBack_length, List.length_cons, List.length_nil]
        omega
    obtain ⟨hout, hlen⟩ := ih (tokensOutput [token] out)
    rw [tokensOutput_cons, List.flatMap_cons, List.length_append, List.length_cons]
    omega

/-- No pointer of the list has distance 0, which rule R190 makes an error. -/
def NoZeroDistance (tokens : List Token) : Prop := ∀ dist len, Token.p dist len ∈ tokens → dist ≠ 0

theorem NoZeroDistance.of_subset {front tokens : List Token} (h : NoZeroDistance tokens) (hsub : front ⊆ tokens) :
    NoZeroDistance front := fun dist len hmem => h dist len (hsub hmem)

/-- The decoder after tokens of the group that it has read. -/
def lzdRun (tokens : List Token) (st : LzdStream) : LzdStream :=
  { st with
    out := tokensOutput tokens st.out
    sp := st.sp + (tokens.flatMap encodeToken).length
    bit := st.bit + tokens.length }

theorem lzdRun_cons (token : Token) (tokens : List Token) (st : LzdStream) :
    lzdRun (token :: tokens) st = lzdRun tokens (lzdRun [token] st) := by
  simp [lzdRun, tokensOutput_cons token tokens, Nat.add_assoc, Nat.add_comm 1]

/-- A token whose output is due has its whole effect. -/
theorem lzdApply_eq_lzdRun (c : Config) {n : Nat} {token : Token} {st : LzdStream} (hdist : NoZeroDistance [token])
    (hroom : (tokensOutput [token] st.out).length ≤ n) : lzdApply c n token st = .ok (lzdRun [token] st) := by
  cases token with
  | l b => rfl
  | p dist len =>
    have hlen : st.out.length + pointerLength len ≤ n := (copyBack_length dist.toNat _ st.out).symm.trans_le hroom
    have hok : ¬ PointerError c n dist len st :=
      not_or.2 ⟨hdist dist len (List.mem_singleton_self _), fun hlong => Nat.not_lt.2 hlen hlong.1⟩
    rw [lzdApply, lzdPointer_ok hok, Nat.min_eq_left (by omega)]
    rfl

/-- Inside a group the next tokens of the stream are these: the flag has a bit for each, and their bytes stand at the
cursor. -/
structure GroupAt (tokens : List Token) (more : List Byte) (st : LzdStream) : Prop where
  bit : st.bit + tokens.length ≤ 8
  flag : ∀ (i : Nat) (token : Token), tokens[i]? = some token → st.flag.getLsbD (st.bit + i) = token.isLiteral
  bytes : st.src.drop st.sp = tokens.flatMap encodeToken ++ more

theorem GroupAt.tail {token : Token} {tokens : List Token} {more : List Byte} {st : LzdStream}
    (h : GroupAt (token :: tokens) more st) : GroupAt tokens more (lzdRun [token] st) where
  bit := by
    have hbit := h.bit
    simp only [lzdRun, List.length_cons, List.length_nil] at hbit ⊢
    omega
  flag := fun i t ht => by
    rw [← h.flag (i + 1) t ht]
    simp only [lzdRun, List.length_singleton, Nat.add_assoc, Nat.add_comm 1]
  bytes := by
    simp only [lzdRun, List.flatMap_singleton]
    rw [← List.drop_drop, h.bytes, List.flatMap_cons, List.append_assoc, List.drop_left]

theorem GroupAt.drop_lzdRun {tokens : List Token} {more : List Byte} {st : LzdStream} (h : GroupAt tokens more st) :
    (lzdRun tokens st).src.drop (lzdRun tokens st).sp = more := by
  simp only [lzdRun]
  rw [← List.drop_drop, h.bytes, List.drop_left]

theorem lzdStep_token (c : Config) {n : Nat} {token : Token} {tokens : List Token} {more : List Byte} {st : LzdStream}
    (h : GroupAt (token :: tokens) more st) (hdist : NoZeroDistance [token])
    (hroom : (tokensOutput [token] st.out).length ≤ n) : lzdStep c n st = .ok (lzdRun [token] st) := by
  have hbit := h.bit
  have hbytes := h.bytes
  rw [List.length_cons] at hbit
  rw [List.flatMap_cons, List.append_assoc] at hbytes
  have hfetch : lzdFetch st = .ok token := lzdFetch_ok_iff.2 ⟨h.flag 0 token rfl, _, hbytes.symm⟩
  exact lzdStep_ok_iff.2 ⟨st, token, lzdGroup_of_bit_lt (by omega), hfetch, lzdApply_eq_lzdRun c hdist hroom⟩

/-- The tokens of a group each take one turn of the loop. -/
theorem lzdLoop_tokens (c : Config) {n : Nat} {tokens : List Token} {more : List Byte} {st : LzdStream} (k : Nat)
    (h : GroupAt tokens more st) (hdist : NoZeroDistance tokens) (hroom : (tokensOutput tokens st.out).length ≤ n) :
    lzdLoop c n (tokens.length + k) st = lzdLoop c n k (lzdRun tokens st) := by
  induction tokens generalizing st with
  | nil => rw [List.length_nil, Nat.zero_add]; rfl
  | cons token tokens ih =>
    rw [tokensOutput_cons] at hroom
    obtain ⟨hone, hpos⟩ := tokensOutput_length [token] st.out
    obtain ⟨hrest, -⟩ := tokensOutput_length tokens (tokensOutput [token] st.out)
    rw [List.length_singleton] at hpos
    rw [List.length_cons, Nat.add_right_comm, lzdLoop_succ_of_lt c (by omega),
      lzdStep_token c h (hdist.of_subset (by simp)) (by omega), lzdRun_cons token tokens]
    exact ih h.tail (hdist.of_subset (List.subset_cons_self _ _)) hroom

/-! ### Groups in a layout -/

theorem groupFlag_testBit {tokens : List Token} {i : Nat} {token : Token} (h : tokens[i]? = some token) :
    (groupFlag tokens).testBit i = token.isLiteral := by
  induction tokens generalizing i with
  | nil => cases h
  | cons first rest ih =>
    cases i with
    | zero =>
      cases h
      cases hl : token.isLiteral <;> simp [groupFlag, hl, Nat.testBit_zero]
    | succ i =>
      have hhalf : groupFlag (first :: rest) / 2 = groupFlag rest := by
        rw [groupFlag]
        split_ifs <;> omega
      rw [Nat.testBit_succ, hhalf]
      exact ih h

theorem emitGroups_succ (j : Nat) {tokens : List Token} (h : tokens ≠ []) :
    emitGroups (j + 1) tokens = BitVec.ofNat 8 (groupFlag (tokens.take 8)) ::
      ((tokens.take 8).flatMap encodeToken ++ emitGroups j (tokens.drop 8)) := by
  cases tokens with
  | nil => exact absurd rfl h
  | cons token rest => rfl

/-- The decoder with a group's flag read. -/
def lzdOpenGroup (flag : Byte) (st : LzdStream) : LzdStream :=
  { st with fsp := st.sp, flag := flag, sp := st.sp + 1, bit := 0 }

theorem lzdStep_of_flag_due (c : Config) (n : Nat) {st : LzdStream} {flag : Byte} {body : List Byte} (hbit : st.bit = 8)
    (hsrc : st.src.drop st.sp = flag :: body) : lzdStep c n st = lzdStep c n (lzdOpenGroup flag st) := by
  have hopen : lzdGroup (lzdOpenGroup flag st) = .ok (lzdOpenGroup flag st) := lzdGroup_of_bit_lt (by decide : 0 < 8)
  rw [lzdStep, lzdStep, lzdGroup_of_flag_due hbit hsrc, hopen]
  rfl

theorem groupAt_lzdOpenGroup {tokens : List Token} {more : List Byte} {st : LzdStream} (hlen : tokens.length ≤ 8)
    (hsrc : st.src.drop st.sp = BitVec.ofNat 8 (groupFlag tokens) :: (tokens.flatMap encodeToken ++ more)) :
    GroupAt tokens more (lzdOpenGroup (BitVec.ofNat 8 (groupFlag tokens)) st) where
  bit := by simpa [lzdOpenGroup] using hlen
  flag := fun i token hi => by
    obtain ⟨hlt, -⟩ := List.getElem?_eq_some_iff.1 hi
    have hbit : i < 8 := by omega
    simp only [lzdOpenGroup, Nat.zero_add, BitVec.getLsbD_ofNat, hbit, decide_true, Bool.true_and]
    exact groupFlag_testBit hi
  bytes := by rw [lzdOpenGroup, ← List.drop_drop, hsrc]; rfl

/-- A group takes as many turns of the loop as it has tokens: its flag is read in the turn of the first. -/
theorem lzdLoop_group (c : Config) {n : Nat} {tokens : List Token} {more : List Byte} {st : LzdStream} (k : Nat)
    (hne : tokens ≠ []) (hlen : tokens.length ≤ 8) (hbit : st.bit = 8)
    (hsrc : st.src.drop st.sp = BitVec.ofNat 8 (groupFlag tokens) :: (tokens.flatMap encodeToken ++ more))
    (hdist : NoZeroDistance tokens) (hroom : (tokensOutput tokens st.out).length ≤ n) :
    lzdLoop c n (tokens.length + k) st =
      lzdLoop c n k (lzdRun tokens (lzdOpenGroup (BitVec.ofNat 8 (groupFlag tokens)) st)) := by
  obtain ⟨hgrow, hpos⟩ := tokensOutput_length tokens st.out
  have htokens := List.length_pos_of_ne_nil hne
  obtain ⟨m, hm⟩ := Nat.exists_eq_add_one_of_ne_zero (show tokens.length + k ≠ 0 by omega)
  have hout : st.out.length < n := by omega
  rw [← lzdLoop_tokens c k (groupAt_lzdOpenGroup hlen hsrc) hdist hroom, hm, lzdLoop_succ_of_lt c hout,
    lzdLoop_succ_of_lt c (st := lzdOpenGroup _ st) hout, lzdStep_of_flag_due c n hbit hsrc]

/-- On a layout the loop emits what its tokens emit and uses its bytes (rules R186, R187). -/
theorem lzdLoop_emitGroups (c : Config) {j n : Nat} {tokens : List Token} {tail : List Byte} {st : LzdStream} (k : Nat)
    (hfuel : tokens.length ≤ j) (hbit : tokens ≠ [] → st.bit = 8)
    (hsrc : st.src.drop st.sp = emitGroups j tokens ++ tail) (hdist : NoZeroDistance tokens)
    (hout : (tokensOutput tokens st.out).length = n) :
    ∃ st', lzdLoop c n (tokens.length + k) st = .ok st' ∧ st'.out = tokensOutput tokens st.out ∧
      st'.sp = st.sp + (emitGroups j tokens).length := by
  induction j generalizing tokens st with
  | zero =>
    obtain rfl := List.eq_nil_of_length_eq_zero (Nat.le_zero.1 hfuel)
    exact ⟨st, lzdLoop_of_complete c hout.ge _, rfl, rfl⟩
  | succ j ih =>
    obtain rfl | hnil := eq_or_ne tokens []
    · exact ⟨st, lzdLoop_of_complete c hout.ge _, rfl, rfl⟩
    · have hsplit : tokensOutput tokens st.out =
          tokensOutput (tokens.drop 8) (tokensOutput (tokens.take 8) st.out) := by
        rw [← tokensOutput_append, List.take_append_drop]
      have hcount : tokens.length = (tokens.take 8).length + (tokens.drop 8).length := by
        rw [← List.length_append, List.take_append_drop]
      have hlen : (tokens.take 8).length = min 8 tokens.length := List.length_take
      have htokens := List.length_pos_of_ne_nil hnil
      obtain ⟨hrest, -⟩ := tokensOutput_length (tokens.drop 8) (tokensOutput (tokens.take 8) st.out)
      rw [emitGroups_succ j hnil, List.cons_append, List.append_assoc] at hsrc
      rw [hsplit] at hout ⊢
      have hopen := groupAt_lzdOpenGroup (by omega) hsrc
      have hgroup := lzdLoop_group c (n := n) ((tokens.drop 8).length + k) (List.ne_nil_of_length_pos (by omega))
        (by omega) (hbit hnil) hsrc (hdist.of_subset (List.take_subset 8 tokens)) (by omega)
      have hfull : tokens.drop 8 ≠ [] →
          (lzdRun (tokens.take 8) (lzdOpenGroup (BitVec.ofNat 8 (groupFlag (tokens.take 8))) st)).bit = 8 := by
        intro hmore
        have hrest_pos := List.length_pos_of_ne_nil hmore
        simp only [lzdRun, lzdOpenGroup]
        omega
      obtain ⟨st', hloop, hout', hsp'⟩ := ih (by omega) hfull hopen.drop_lzdRun
        (hdist.of_subset (List.drop_subset 8 tokens)) hout
      refine ⟨st', ?_, hout', ?_⟩
      · rw [hcount, Nat.add_assoc, hgroup, hloop]
      · rw [hsp', emitGroups_succ j hnil, List.length_cons, List.length_append]
        simp only [lzdRun, lzdOpenGroup]
        omega

@[simp] theorem lzdStart_out (src : List Byte) : (lzdStart src).out = [] := rfl

@[simp] theorem lzdStart_sp (src : List Byte) : (lzdStart src).sp = 0 := rfl

/-- A layout followed by any bytes decodes, for the length of what its tokens emit, to that, and is used exactly. -/
theorem lzssDecode_emitGroups (c : Config) {tokens : List Token} (tail : List Byte) (hdist : NoZeroDistance tokens) :
    lzssDecode c (emitGroups tokens.length tokens ++ tail) (tokensOutput tokens []).length =
      .ok (tokensOutput tokens [], (emitGroups tokens.length tokens).length) := by
  obtain ⟨hbytes, htokens⟩ := tokensOutput_length tokens []
  obtain ⟨k, hk⟩ := Nat.exists_eq_add_of_le (show tokens.length ≤ (tokensOutput tokens []).length by omega)
  obtain ⟨st', hloop, hout, hsp⟩ := lzdLoop_emitGroups c (tail := tail)
    (st := lzdStart (emitGroups tokens.length tokens ++ tail)) k (Nat.le_refl _) (fun _ => rfl) rfl hdist rfl
  rw [lzdStart_out, ← hk] at hloop
  simp only [lzssDecode, hloop, hout, hsp, lzdStart_out, lzdStart_sp, Nat.zero_add]

/-- Settles O56: the loop runs the tokens group by group. -/
theorem tokensDecodeInOrder : Obligations.TokensDecodeInOrder := by
  intro c tokens tail hformat hdist stream out
  rw [lzDecodeTokens, hformat]
  exact lzssDecode_emitGroups c tail hdist

/-! ### The default encoder -/

/-- The bytes that `commonLength` counts agree. -/
theorem getElem?_of_lt_commonLength {cap j : Nat} {as bs : List Byte} (h : j < commonLength cap as bs) :
    as[j]? = bs[j]? := by
  induction cap generalizing as bs j with
  | zero => exact absurd h (Nat.not_lt_zero j)
  | succ cap ih =>
    obtain _ | ⟨a, as⟩ := as
    · exact absurd h (Nat.not_lt_zero j)
    · obtain _ | ⟨b, bs⟩ := bs
      · exact absurd h (Nat.not_lt_zero j)
      · rw [commonLength] at h
        split_ifs at h with hab
        · cases j with
          | zero => simp [hab]
          | succ j => simpa using ih (Nat.lt_of_succ_lt_succ h)
        · exact absurd h (Nat.not_lt_zero j)

theorem commonLength_le (cap : Nat) (as bs : List Byte) :
    commonLength cap as bs ≤ cap ∧ commonLength cap as bs ≤ as.length := by
  induction cap generalizing as bs with
  | zero => exact ⟨Nat.le_refl _, Nat.zero_le _⟩
  | succ cap ih =>
    obtain _ | ⟨a, as⟩ := as
    · exact ⟨Nat.zero_le _, Nat.zero_le _⟩
    · obtain _ | ⟨b, bs⟩ := bs
      · exact ⟨Nat.zero_le _, Nat.zero_le _⟩
      · obtain ⟨hcap, hlen⟩ := ih as bs
        rw [commonLength, List.length_cons]
        split_ifs <;> omega

/-- A length and a distance that a pointer at index `i` can have, with the bytes that it copies (rule R193). -/
structure IsMatch (x : List Byte) (i : Nat) (m : Nat × Nat) : Prop where
  dist_pos : 0 < m.2
  dist_le : m.2 ≤ min i 4095
  len_le : m.1 ≤ 18
  inside : i + m.1 ≤ x.length
  agrees : ∀ j < m.1, x[i + j]? = x[i - m.2 + j]?

/-- The longest match is none, or one that a pointer can have. -/
theorem bestMatch_isMatch (x : List Byte) {i : Nat} (hi : i ≤ x.length) :
    (bestMatch x i).1 = 0 ∨ IsMatch x i (bestMatch x i) := by
  refine List.foldlRecOn (b := (0, 0)) (motive := fun best => best.1 = 0 ∨ IsMatch x i best) _ _ (.inl rfl)
    fun best hbest j hj => ?_
  dsimp only
  split_ifs with hlonger
  · have hj' := List.mem_range.1 hj
    obtain ⟨hcap, hlen⟩ := commonLength_le 18 (x.drop i) (x.drop (i - (j + 1)))
    rw [List.length_drop] at hlen
    refine .inr ⟨Nat.succ_pos j, hj', hcap, by simp only; omega, fun k hk => ?_⟩
    simpa only [List.getElem?_drop] using getElem?_of_lt_commonLength hk
  · exact hbest

theorem take_append_byteAt {x : List Byte} {i : Nat} (hi : i < x.length) :
    x.take i ++ [byteAt x i] = x.take (i + 1) := by
  rw [byteAt, List.getD_eq_getElem _ _ hi, List.take_concat_get' _ _ hi]

/-- Copying from an earlier place where the same bytes stand goes on with the plain bytes, also where the copy runs into
its own output (rule R189). -/
theorem copyBack_take {x : List Byte} {i dist count : Nat} (hpos : 0 < dist) (hdist : dist ≤ i)
    (hinside : i + count ≤ x.length) (hagrees : ∀ j < count, x[i + j]? = x[i - dist + j]?) :
    copyBack dist count (x.take i) = x.take (i + count) := by
  induction count generalizing i with
  | zero => rfl
  | succ count ih =>
    have hi : i < x.length := by omega
    have hbyte : copiedByte dist (x.take i) = byteAt x i := by
      have hsame : x[i - dist]? = x[i]? := (hagrees 0 (Nat.succ_pos _)).symm
      have hlen : (x.take i).length = i := List.length_take_of_le hi.le
      rw [copiedByte, hlen, if_neg (Nat.not_lt.2 hdist), byteAt, byteAt, List.getD_eq_getElem?_getD,
        List.getD_eq_getElem?_getD, List.getElem?_take_of_lt (by omega), hsame]
    rw [copyBack_succ, hbyte, take_append_byteAt hi, ih (by omega) (by omega), Nat.add_assoc, Nat.add_comm 1]
    intro j hj
    have hnext := hagrees (j + 1) (Nat.succ_lt_succ hj)
    rwa [show i + 1 + j = i + (j + 1) by omega, show i + 1 - dist + j = i - dist + (j + 1) by omega]

/-- After the first `i` plain bytes the tokens emit the next ones up to index `j`, and no pointer among them is an
error. -/
structure EmitsPlain (x : List Byte) (i j : Nat) (tokens : List Token) : Prop where
  dist : NoZeroDistance tokens
  out : tokensOutput tokens (x.take i) = x.take j

theorem EmitsPlain.nil (x : List Byte) {i : Nat} (hend : x.length ≤ i) : EmitsPlain x i x.length [] where
  dist := fun _ _ hmem => absurd hmem List.not_mem_nil
  out := by rw [List.take_length, tokensOutput, List.take_of_length_le hend]

theorem EmitsPlain.cons {x : List Byte} {i j l : Nat} {token : Token} {tokens : List Token}
    (hhead : EmitsPlain x i j [token]) (htail : EmitsPlain x j l tokens) : EmitsPlain x i l (token :: tokens) where
  dist := fun dist len hmem => by
    obtain rfl | hmem := List.mem_cons.1 hmem
    · exact hhead.dist dist len (List.mem_singleton_self _)
    · exact htail.dist dist len hmem
  out := by rw [tokensOutput_cons, hhead.out, htail.out]

theorem emitsPlain_literal {x : List Byte} {i : Nat} (hi : i < x.length) :
    EmitsPlain x i (i + 1) [.l (byteAt x i)] where
  dist := fun _ _ hmem => by cases List.mem_singleton.1 hmem
  out := take_append_byteAt hi

theorem emitsPlain_pointer {x : List Byte} {i : Nat} {m : Nat × Nat} (h : IsMatch x i m) (hlen : 3 ≤ m.1) :
    EmitsPlain x i (i + m.1) [.p (BitVec.ofNat 12 m.2) (BitVec.ofNat 4 (m.1 - 3))] := by
  have hpos := h.dist_pos
  have hle := h.dist_le
  have hmax := h.len_le
  have hdist : (BitVec.ofNat 12 m.2).toNat = m.2 := by rw [BitVec.toNat_ofNat]; omega
  have hfield : (BitVec.ofNat 4 (m.1 - 3)).toNat + 3 = m.1 := by rw [BitVec.toNat_ofNat]; omega
  constructor
  · intro dist len hmem hzero
    obtain ⟨rfl, -⟩ := Token.p.inj (List.mem_singleton.1 hmem)
    rw [hzero] at hdist
    exact hpos.ne hdist
  · rw [tokensOutput, hdist, hfield, tokensOutput]
    exact copyBack_take hpos (by omega) h.inside h.agrees

theorem lzssTokens_succ (x : List Byte) (k i : Nat) :
    lzssTokens x (k + 1) i =
      if x.length ≤ i then []
      else if 3 ≤ (bestMatch x i).1 then
        .p (BitVec.ofNat 12 (bestMatch x i).2) (BitVec.ofNat 4 ((bestMatch x i).1 - 3)) ::
          lzssTokens x k (i + (bestMatch x i).1)
      else .l (byteAt x i) :: lzssTokens x k (i + 1) := rfl

/-- The default encoder's tokens from index `i` on emit the plain bytes from there on. -/
theorem lzssTokens_emitsPlain (x : List Byte) {k i : Nat} (hi : i ≤ x.length) (hfuel : x.length ≤ i + k) :
    EmitsPlain x i x.length (lzssTokens x k i) := by
  induction k generalizing i with
  | zero => exact .nil x hfuel
  | succ k ih =>
    rw [lzssTokens_succ]
    split_ifs with hend hlong
    · exact .nil x hend
    · have hmatch := (bestMatch_isMatch x hi).resolve_left (by omega)
      exact .cons (emitsPlain_pointer hmatch hlong) (ih hmatch.inside (by omega))
    · exact .cons (emitsPlain_literal (by omega)) (ih (by omega) (by omega))

theorem tokensOutput_lzssTokens (x : List Byte) : tokensOutput (lzssTokens x x.length 0) [] = x := by
  simpa using (lzssTokens_emitsPlain x (Nat.zero_le _) (Nat.le_add_left _ _)).out

theorem lzssEncode_eq (x : List Byte) :
    lzssEncode x = emitGroups (lzssTokens x x.length 0).length (lzssTokens x x.length 0) := rfl

theorem lzssDecode_lzssEncode (c : Config) (x : List Byte) :
    lzssDecode c (lzssEncode x) x.length = .ok (x, (lzssEncode x).length) := by
  have hdist := (lzssTokens_emitsPlain x (Nat.zero_le _) (Nat.le_add_left x.length 0)).dist
  simpa only [lzssEncode_eq, tokensOutput_lzssTokens, List.append_nil] using lzssDecode_emitGroups c [] hdist

/-- Rule R192: the stream of every encoder decodes to the plain bytes and is used exactly. -/
theorem lzDecodeTokens_lzEncode (c : Config) (x : List Byte) :
    lzDecodeTokens c (lzEncode c x) x.length = .ok (x, (lzEncode c x).length) := by
  obtain ⟨hencode, hdecode⟩ | hadmissible := lzEncode_cases c x
  · rw [hencode, hdecode, lzssDecode_lzssEncode]
  · exact hadmissible

/-! ### `LZD` after `LZE` -/

theorem lzeUnit_eq (c : Config) (src : List Byte) :
    lzeUnit c src = .ok (lzEncode c src ++ bytesLe32 (checksum c.csumExt src)) (checksum c.csumExt src) 0 false := rfl

/-- What `LZD` answers on the encoder's stream and its trailer: the plain bytes and two equal checksums (rules R184,
R185, R192). -/
theorem lzdUnit_of_lzeUnit (c : Config) (strict : Bool) (x : List Byte) :
    lzdUnit c strict x.length (lzEncode c x ++ bytesLe32 (checksum c.csumExt x)) =
      .ok x (checksum c.csumExt x) (checksum c.csumExt x) false := by
  obtain ⟨-, -, hsame⟩ := lzDecodeTokens_meetsContract c _ _ _ _ (lzDecodeTokens_lzEncode c x)
  have htokens := hsame (lzEncode c x ++ bytesLe32 (checksum c.csumExt x))
    (by rw [List.take_length]; exact List.prefix_append _ _)
  have hleft : (lzEncode c x ++ bytesLe32 (checksum c.csumExt x)).length - (lzEncode c x).length = 4 := by
    rw [List.length_append, bytesLe32_length, Nat.add_sub_cancel_left]
  rw [lzdUnit, htokens]
  simp only [lzdTrailer_eq, hleft, List.drop_left, le32_bytesLe32]
  simp

/-- Settles O55: the result of the `LZE` is the source of the `LZD`, and `lzdUnit_of_lzeUnit` is the answer on it. -/
theorem lzdAfterLzeIsLossless : Obligations.LzdAfterLzeIsLossless := by
  refine ⟨lzDecodeTokens_lzEncode, fun s t dst ctrl hexec hcode => ?_⟩
  rw [exec_lze, Host.Outcome.next.injEq] at hexec
  subst hexec
  obtain ⟨out, aux, stored, mismatch, hanswer, hend⟩ := runUnit_successEnd_of_errCode hcode
  rw [lzeUnit_eq, UnitResult.ok.injEq] at hanswer
  obtain ⟨rfl, rfl, rfl, rfl⟩ := hanswer
  intro u hregions
  have hsource : readSource u = lzEncode s.cfg (readSource s) ++ bytesLe32 (checksum s.cfg.csumExt (readSource s)) :=
    readSource_takeResult dst s.srcLen hend
  have hcfg : u.cfg = s.cfg := hend.keeps.cfg
  have hcap : u.dstCap.toNat = (readSource s).length := (readSource_length s).symm
  refine ⟨_, exec_lzd u, ?_⟩
  rw [hend.rAux]
  refine runUnit_ok_successEnd hregions ?_ hcap.ge
  rw [hsource, hcap, hcfg, lzdUnit_of_lzeUnit]

/-! ### The size of a token stream -/

theorem emitGroups_length_le (j : Nat) (tokens : List Token) :
    (emitGroups j tokens).length ≤ (tokens.flatMap encodeToken).length + (tokens.length + 7) / 8 := by
  induction j generalizing tokens with
  | zero => exact Nat.zero_le _
  | succ j ih =>
    obtain rfl | hnil := eq_or_ne tokens []
    · exact Nat.zero_le _
    · have hrest := ih (tokens.drop 8)
      have hbytes : (tokens.flatMap encodeToken).length =
          ((tokens.take 8).flatMap encodeToken).length + ((tokens.drop 8).flatMap encodeToken).length := by
        rw [← List.length_append, ← List.flatMap_append, List.take_append_drop]
      have htokens := List.length_pos_of_ne_nil hnil
      rw [List.length_drop] at hrest
      rw [emitGroups_succ j hnil, List.length_cons, List.length_append, hbytes]
      omega

/-- Settles O60: no token takes more bytes than it emits, and there is one flag for every eight tokens. -/
theorem dictionarySizeBound : Obligations.DictionarySizeBound := by
  intro x
  have hlayout : (lzssEncode x).length ≤ _ := emitGroups_length_le _ (lzssTokens x x.length 0)
  obtain ⟨hbytes, htokens⟩ := tokensOutput_length (lzssTokens x x.length 0) []
  rw [tokensOutput_lzssTokens, List.length_nil] at hbytes
  omega

end Sys2Proof.Machine

/-! PROOF. Where the model stops and with which errors a command ends (rules R40, R260, R262, R286, R306). Each unit
function raises errors of its column of rule R262 alone; the region checks and the capacity check of the common sequence
(rule R100) add the rest of the column. -/

namespace Sys2Proof.Machine

/-! ### Where a step stops -/

/-- Every command ends from every state (rule R306). -/
theorem exec_command_next {i : Instr} (hi : i.isCommand = true) (s : State) : ∃ t, exec i s = .next t := by
  obtain hmem | ⟨fmt, hsize⟩ := exec_command_cases i hi
  · obtain ⟨unit, hunit⟩ := exec_memory_command i hmem
    exact ⟨_, hunit s⟩
  · exact ⟨_, hsize s⟩

/-- A write of `CMD` ends in a next state, be its word legal or not. -/
theorem step_next_of_issueCommand {s s' : State} {w : Word} (hfetch : fetch s = issueCommand w s') :
    ∃ t, step s = .next t := by
  obtain ⟨i, hi, hissue⟩ | ⟨e, -, hissue⟩ := issueCommand_cases w s'
  · rw [step_of_run (hfetch.trans hissue)]
    exact exec_command_next (isCommand_of_decodeCommand hi) _
  · exact ⟨_, step_of_done (hfetch.trans hissue)⟩

/-- Inside a run-length stream every step goes on or ends the command: a packet is run only where one stands. -/
theorem step_next_of_rld {s : State} {st : RldStream} (hs : s.stream = some (.rld st)) : ∃ t, step s = .next t := by
  have hfetch := fetch_rld s st hs
  obtain ⟨-, hnext⟩ | ⟨-, -, at', -, hnext⟩ | ⟨hsp, hm, packet, hpacket, -⟩ | ⟨-, -, hnext⟩ := rldNext_cases st s
  · exact ⟨_, step_of_done (hfetch.trans hnext)⟩
  · exact ⟨_, step_of_done (hfetch.trans hnext)⟩
  · exact ⟨_, step_of_packet hs hsp hm hpacket⟩
  · exact ⟨_, step_of_done (hfetch.trans hnext)⟩

/-- Inside a dictionary stream every step goes on or ends the command: a token is run only where its flag announces
it. -/
theorem step_next_of_lzd {s : State} {st : LzdStream} (hs : s.stream = some (.lzd st)) : ∃ t, step s = .next t := by
  have hfetch := fetch_lzd s st hs
  obtain ⟨-, hnext⟩ | ⟨-, at', hnext, -⟩ | ⟨hout, g, token, hgroup, htoken, -⟩ := lzdNext_cases st s
  · exact ⟨_, step_of_done (hfetch.trans hnext)⟩
  · exact ⟨_, step_of_done (hfetch.trans hnext)⟩
  · exact ⟨_, step_of_token hs hout hgroup htoken⟩

theorem not_hostAccessOk_iff (s : State) (addr : Word) (n : Nat) :
    ¬ hostAccessOk s addr n = true ↔ 0 < n ∧ s.cfg.memSize < addr.toNat + n := by
  simp [hostAccessOk, Nat.pos_iff_ne_zero]

/-- The host's next action loads or stores at least one byte past the end of buffer memory. -/
def NextAccessLeavesMemory (s : State) : Prop :=
  ∃ (addr : Word) (n : Nat) (rest : List HostAction), 0 < n ∧ s.cfg.memSize < addr.toNat + n ∧
    (s.host = .loadMem addr n :: rest ∨ ∃ bytes, bytes.length = n ∧ s.host = .storeMem addr bytes :: rest)

/-- An action of the host leads to a next state, except a load or store that leaves buffer memory (rule R40). -/
theorem step_hostAction_cases {s : State} {action : HostAction} {rest : List HostAction} (hs : s.stream = none)
    (hh : s.host = action :: rest) :
    (∃ t, step s = .next t) ∨ (step s = .fault .hostAddress ∧ NextAccessLeavesMemory s) := by
  have hfetch := fetch_host s action rest hs hh
  cases action with
  | writeReg offset value =>
    by_cases hcmd : offset = cmdOffset
    · exact .inl (step_next_of_issueCommand (hfetch.trans (if_pos hcmd)))
    · exact .inl ⟨_, step_of_done (hfetch.trans (if_neg hcmd))⟩
  | readReg offset => exact .inl ⟨_, step_of_done hfetch⟩
  | storeMem addr bytes =>
    by_cases hin : hostAccessOk s addr bytes.length = true
    · exact .inl ⟨_, step_of_done (hfetch.trans (if_pos hin))⟩
    · obtain ⟨hpos, hpast⟩ := (not_hostAccessOk_iff s addr bytes.length).1 hin
      exact .inr ⟨step_of_stop (hfetch.trans (if_neg hin)), addr, bytes.length, rest, hpos, hpast,
        .inr ⟨bytes, rfl, hh⟩⟩
  | loadMem addr n =>
    by_cases hin : hostAccessOk s addr n = true
    · exact .inl ⟨_, step_of_done (hfetch.trans (if_pos hin))⟩
    · obtain ⟨hpos, hpast⟩ := (not_hostAccessOk_iff s addr n).1 hin
      exact .inr ⟨step_of_stop (hfetch.trans (if_neg hin)), addr, n, rest, hpos, hpast, .inl hh⟩
  | reset => exact .inl ⟨_, step_of_done hfetch⟩

/-- Settles O8: inside a stream every step answers, and between commands the host's action decides. -/
theorem stepStopsOnlyOnHostAccess : Obligations.StepStopsOnlyOnHostAccess := by
  intro s
  cases hs : s.stream with
  | some x =>
    have hnext : ∃ t, step s = .next t := by
      cases x with
      | rld st => exact step_next_of_rld hs
      | lzd st => exact step_next_of_lzd hs
    obtain ⟨t, hstep⟩ := hnext
    exact .inl ⟨t, hstep, nofun⟩
  | none =>
    cases hh : s.host with
    | nil => exact .inl ⟨s, step_of_done (fetch_idle s hs hh), fun _ _ => rfl⟩
    | cons action rest =>
      obtain ⟨t, hstep⟩ | ⟨hstep, haccess⟩ := step_hostAction_cases hs hh
      · exact .inl ⟨t, hstep, nofun⟩
      · rw [NextAccessLeavesMemory, hh] at haccess
        exact .inr ⟨hstep, rfl, haccess⟩

/-! ### The errors of a unit function -/

/-- With `cap` bytes of room, an answer ends a command without an error or with one of `codes`: an error answer with its
own code, a result that may be too long with `ERR_DST_CAPACITY`. -/
def UnitResult.RaisesIn (cap : Nat) (codes : List ErrCode) : UnitResult → Prop
  | .ok out _ _ _ => out.length ≤ cap ∨ .dstCapacity ∈ codes
  | .err code _ _ => code ∈ codes

section RaisesIn

variable {cap : Nat} {codes : List ErrCode}

@[simp] theorem raisesIn_ok (out : List Byte) (aux stored : Word) (mismatch : Bool) :
    (UnitResult.ok out aux stored mismatch).RaisesIn cap codes ↔ out.length ≤ cap ∨ .dstCapacity ∈ codes := Iff.rfl

@[simp] theorem raisesIn_err (code : ErrCode) (info computed : Word) :
    (UnitResult.err code info computed).RaisesIn cap codes ↔ code ∈ codes := Iff.rfl

@[simp] theorem raisesIn_okBytes (out : List Byte) :
    (okBytes out).RaisesIn cap codes ↔ out.length ≤ cap ∨ .dstCapacity ∈ codes := Iff.rfl

@[simp] theorem raisesIn_errPlain (code : ErrCode) : (errPlain code).RaisesIn cap codes ↔ code ∈ codes := Iff.rfl

@[simp] theorem raisesIn_lzStreamError (at' : Nat) : (lzStreamError at').RaisesIn cap codes ↔ .lzStream ∈ codes := Iff.rfl

end RaisesIn

theorem raisesIn_toCanonical (cap : Nat) (c : Config) (fmt : PackedFormat) (src : List Byte) :
    (toCanonical c fmt src).RaisesIn cap [.length, .dstCapacity] := by
  unfold toCanonical
  split_ifs <;> simp

theorem raisesIn_fromCanonical (cap : Nat) (c : Config) (fmt : PackedFormat) (src : List Byte) :
    (fromCanonical c fmt src).RaisesIn cap [.length, .dstCapacity] := by
  unfold fromCanonical
  split_ifs <;> simp

theorem raisesIn_blockDecode (cap : Nat) (c : Config) (fmt : BlockFormat) (w h : Nat) (src : List Byte) :
    (blockDecode c fmt w h src).RaisesIn cap [.arith, .bcStream, .dstCapacity, .unimplementedFormat] := by
  cases hv : bcVariant c fmt with
  | none => simp [blockDecode_of_no_variant hv]
  | some v => rw [blockDecode_of_variant hv]; split_ifs <;> simp

theorem raisesIn_blockEncode (cap : Nat) (c : Config) (fmt : BlockFormat) (w h : Nat) (src : List Byte) :
    (blockEncode c fmt w h src).RaisesIn cap [.length, .badDimensions, .dstCapacity, .unimplementedFormat] := by
  unfold blockEncode
  cases bcVariant c fmt with
  | none => simp
  | some v => dsimp only; split_ifs <;> simp

theorem raisesIn_rldResult (cap : Nat) (r : Except Nat (List Byte)) :
    (rldResult r).RaisesIn cap [.rleTruncated, .dstCapacity] := by
  cases r with
  | error at' => simp [rldResult]
  | ok out => simp [rldResult]

/-- What `LZD` decodes has the expected length, which is the room there is, so `ERR_DST_CAPACITY` is not among its errors
(rules R182, R197). -/
theorem raisesIn_lzdUnit (c : Config) (strict : Bool) (n : Nat) (src : List Byte) :
    (lzdUnit c strict n src).RaisesIn n [.lzStream, .checksum] := by
  unfold lzdUnit
  split
  · simp
  · next out used hdecode =>
    obtain ⟨hlen, -, -⟩ := lzDecodeTokens_meetsContract c src n out used hdecode
    rw [lzdTrailer_eq]
    split_ifs <;> simp [hlen]

/-! ### The errors of a command -/

/-- A state in which a command has ended without an error or with one of `codes`. -/
def EndsIn (codes : List ErrCode) (t : State) : Prop := t.errCode = 0 ∨ ∃ code ∈ codes, t.errCode = errNumber code

theorem endsIn_raise {codes : List ErrCode} {code : ErrCode} (h : code ∈ codes) (info computed : Word) (s : State) :
    EndsIn codes (raise code info computed s) := .inr ⟨code, h, rfl⟩

theorem endsIn_endCommand {codes : List ErrCode} {r : UnitResult} {s : State} (hr : r.RaisesIn s.dstCap.toNat codes) :
    EndsIn codes (endCommand r s) := by
  obtain ⟨code, info, computed, rfl, hend⟩ | ⟨out, aux, stored, mismatch, rfl, hlong, hend⟩ |
    ⟨out, aux, stored, mismatch, rfl, -, hend⟩ := endCommand_cases r s
  · exact hend ▸ endsIn_raise hr info computed s
  · have hcapacity : ErrCode.dstCapacity ∈ codes := hr.resolve_left (Nat.not_le.2 hlong)
    exact hend ▸ endsIn_raise hcapacity 0 0 s
  · exact hend ▸ .inl rfl

theorem EndsIn.mono {codes codes' : List ErrCode} {t : State} (h : EndsIn codes t) (hsub : codes ⊆ codes') :
    EndsIn codes' t := h.imp_right fun ⟨code, hcode, heq⟩ => ⟨code, hsub hcode, heq⟩

/-- Every command with regions has the two errors of the region checks beside those of its unit function (rules R57, R58,
R100). -/
theorem endsIn_of_runUnit {codes : List ErrCode} {unit : List Byte → UnitResult} {s t : State}
    (hunit : ∀ src, (unit src).RaisesIn s.dstCap.toNat codes)
    (h : Host.Outcome.next (runUnit unit s) = (.next t : Host.Outcome State Fault Refusal)) :
    EndsIn (.addr :: .overlap :: codes) t := by
  cases h
  obtain ⟨-, -, hend⟩ | ⟨-, -, hend⟩ | ⟨-, hend⟩ := runUnit_cases unit s
  · exact hend ▸ endsIn_raise (by simp) 0 0 s
  · exact hend ▸ endsIn_raise (by simp) 0 0 s
  · exact hend ▸ (endsIn_endCommand (hunit _)).mono fun _ hcode => by simp [hcode]

/-- The error of a `SIZE`: the indexed format has no size, and the size of any other may need more than 32 bits (rules
R112, R113). -/
def sizeError : PixelFormat → ErrCode
  | .indexed => .unimplementedFormat
  | .blk1 | .blk2 | .blk3 | .blk4 | .blk5 | .p4444 | .p1555 | .p8888 => .arith

theorem endsIn_of_runSize {fmt : PixelFormat} {s t : State}
    (h : Host.Outcome.next (runSize fmt s) = (.next t : Host.Outcome State Fault Refusal)) :
    EndsIn [sizeError fmt] t := by
  cases h
  obtain ⟨hsize, hend⟩ | ⟨p, hsize, -, hend⟩ | ⟨p, -, -, hend⟩ := runSize_cases fmt s
  · have herror : sizeError fmt = .unimplementedFormat := by
      cases fmt with
      | indexed => rfl
      | _ => cases hsize
    exact hend ▸ endsIn_raise (by simp [herror]) 0 0 s
  · have herror : sizeError fmt = .arith := by
      cases fmt with
      | indexed => cases hsize
      | _ => rfl
    exact hend ▸ endsIn_raise (by simp [herror]) 0 0 s
  · exact hend ▸ .inl rfl

/-- The column of a command in the table of rule R262; packets and tokens are no commands and have none. -/
def errorColumn : Instr → List ErrCode
  | .pxdP4444 | .pxdP1555 | .pxdP8888 | .pxeP4444 | .pxeP1555 | .pxeP8888 => [.addr, .overlap, .length, .dstCapacity]
  | .bcdBlk1 | .bcdBlk2 | .bcdBlk3 | .bcdBlk4 | .bcdBlk5 =>
    [.addr, .overlap, .arith, .bcStream, .dstCapacity, .unimplementedFormat]
  | .bceBlk1 | .bceBlk2 | .bceBlk3 | .bceBlk4 | .bceBlk5 =>
    [.addr, .overlap, .length, .badDimensions, .dstCapacity, .unimplementedFormat]
  | .rld => [.addr, .overlap, .rleTruncated, .dstCapacity]
  | .rle | .lze => [.addr, .overlap, .dstCapacity]
  | .lzd => [.addr, .overlap, .lzStream, .checksum]
  | .sizeBlk1 | .sizeBlk2 | .sizeBlk3 | .sizeBlk4 | .sizeBlk5 | .sizeP4444 | .sizeP1555 | .sizeP8888 => [.arith]
  | .sizeIndexed => [.unimplementedFormat]
  | .rep _ _ | .lit _ | .l _ | .p _ _ => []

/-- A command ends without an error or with one of its column. -/
theorem exec_endsIn_errorColumn {i : Instr} {s t : State} (hi : i.isCommand = true) (h : exec i s = .next t) :
    EndsIn (errorColumn i) t := by
  cases i with
  | pxdP4444 | pxdP1555 | pxdP8888 => exact endsIn_of_runUnit (raisesIn_toCanonical _ _ _) h
  | pxeP4444 | pxeP1555 | pxeP8888 => exact endsIn_of_runUnit (raisesIn_fromCanonical _ _ _) h
  | bcdBlk1 | bcdBlk2 | bcdBlk3 | bcdBlk4 | bcdBlk5 => exact endsIn_of_runUnit (raisesIn_blockDecode _ _ _ _ _) h
  | bceBlk1 | bceBlk2 | bceBlk3 | bceBlk4 | bceBlk5 => exact endsIn_of_runUnit (raisesIn_blockEncode _ _ _ _ _) h
  | rld => exact endsIn_of_runUnit (fun src => raisesIn_rldResult _ (decodeRle src)) h
  | rle => exact endsIn_of_runUnit (fun src => (raisesIn_okBytes (rleEncode s.cfg src)).2 (.inr (by simp))) h
  | lzd => exact endsIn_of_runUnit (raisesIn_lzdUnit _ _ _) h
  | lze => exact endsIn_of_runUnit (fun src => (raisesIn_ok _ _ _ _).2 (.inr (by simp))) h
  | sizeBlk1 | sizeBlk2 | sizeBlk3 | sizeBlk4 | sizeBlk5 | sizeP4444 | sizeP1555 | sizeP8888 | sizeIndexed =>
    exact endsIn_of_runSize h
  | rep | lit | l | p => cases hi

/-- The 29 commands: those with regions and the nine `SIZE` commands. -/
def allCommands : List Instr := usesMemory ++ sizedCommands.map Prod.fst ++ [.sizeIndexed]

/-- The table of rule R262, each code as its number. -/
def errorTable : List (Instr × List Nat) :=
  allCommands.map fun i => (i, (errorColumn i).map fun code => (errNumber code).toNat)

/-- Settles O26: the listed codes are the numbers of each command's column. -/
theorem errorCodesOfEachCommand : Obligations.ErrorCodesOfEachCommand := by
  intro s t i codes htable hexec
  have hcommands : ∀ i ∈ allCommands, i.isCommand = true := by decide
  have hcolumn : (i, codes) ∈ errorTable := htable
  obtain ⟨j, hj, heq⟩ := List.mem_map.1 hcolumn
  cases heq
  refine (exec_endsIn_errorColumn (hcommands i hj) hexec).imp_right fun ⟨code, hcode, herr⟩ => ?_
  exact List.mem_map.2 ⟨code, hcode, (congrArg BitVec.toNat herr).symm⟩

end Sys2Proof.Machine

/-! PROOF. The flags a command leaves, and reset (rules R29, R33, R290, R291, R293, R306). `DONE` and `ERR` are read off the
ways a command can end; `CSUM_MISMATCH` is a matter of the answer of its unit function, which only that of `LZD` sets. On
the reset state both regions are empty, so that a command with regions answers as its unit function does on no bytes. -/

namespace Sys2Proof.Machine

/-! ### The bits of `STATUS` -/

@[simp] theorem statusWord_done (done err mismatch : Bool) : (statusWord done err mismatch).getLsbD 0 = done := by
  decide +revert

@[simp] theorem statusWord_err (done err mismatch : Bool) : (statusWord done err mismatch).getLsbD 1 = err := by
  decide +revert

@[simp] theorem statusWord_mismatch (done err mismatch : Bool) :
    (statusWord done err mismatch).getLsbD 2 = mismatch := by
  decide +revert

/-- The reserved bits of `STATUS` are 0 (rule R33). -/
theorem statusWord_lt (done err mismatch : Bool) : (statusWord done err mismatch).toNat < 8 := by
  decide +revert

theorem errNumber_ne_zero (code : ErrCode) : errNumber code ≠ 0 := by
  cases code <;> decide

/-- Every end of a command sets `DONE`, and `ERR` exactly with an error code (rules R29, R103, R104). -/
theorem CommandEnd.status_eq {s t : State} (h : CommandEnd s t) :
    ∃ mismatch, t.status = statusWord true (t.errCode != 0) mismatch := by
  cases h with
  | error code info computed _ =>
    have herr : (errNumber code != 0) = true := bne_iff_ne.2 (errNumber_ne_zero code)
    exact ⟨code == .checksum, by rw [raise_errCode, herr]; rfl⟩
  | success out aux stored mismatch _ _ => exact ⟨mismatch, rfl⟩
  | size p => exact ⟨false, rfl⟩

/-! ### Which commands report a mismatch -/

/-- Whether a command that ends with this answer may set `CSUM_MISMATCH`: a result with that flag, or `ERR_CHECKSUM`. -/
def UnitResult.reportsMismatch : UnitResult → Bool
  | .ok _ _ _ mismatch => mismatch
  | .err code _ _ => code == .checksum

theorem endCommand_mismatch {r : UnitResult} (hr : r.reportsMismatch = false) (s : State) :
    (endCommand r s).status.getLsbD 2 = false := by
  obtain ⟨code, info, computed, rfl, hend⟩ | ⟨out, aux, stored, mismatch, rfl, -, hend⟩ |
    ⟨out, aux, stored, mismatch, rfl, -, hend⟩ := endCommand_cases r s
  · rw [hend, raise_status, errorStatus, statusWord_mismatch]
    exact hr
  · rw [hend, raise_status, errorStatus, statusWord_mismatch]
    rfl
  · rw [hend, succeed_status, successStatus, statusWord_mismatch]
    exact hr

theorem regionAnswer_reportsMismatch {unit : List Byte → UnitResult} (hunit : ∀ src, (unit src).reportsMismatch = false)
    (s : State) : (regionAnswer unit s).reportsMismatch = false := by
  unfold regionAnswer
  split_ifs
  · rfl
  · rfl
  · exact hunit _

theorem runUnit_mismatch {unit : List Byte → UnitResult} (hunit : ∀ src, (unit src).reportsMismatch = false)
    {s t : State} (h : Host.Outcome.next (runUnit unit s) = (.next t : Host.Outcome State Fault Refusal)) :
    t.status.getLsbD 2 = false := by
  cases h
  rw [runUnit_eq_endCommand]
  exact endCommand_mismatch (regionAnswer_reportsMismatch hunit s) s

theorem runSize_mismatch {fmt : PixelFormat} {s t : State}
    (h : Host.Outcome.next (runSize fmt s) = (.next t : Host.Outcome State Fault Refusal)) :
    t.status.getLsbD 2 = false := by
  cases h
  obtain ⟨-, hend⟩ | ⟨p, -, -, hend⟩ | ⟨p, -, -, hend⟩ := runSize_cases fmt s
  · exact hend ▸ statusWord_mismatch true true false
  · exact hend ▸ statusWord_mismatch true true false
  · exact hend ▸ statusWord_mismatch true false false

theorem reportsMismatch_toCanonical (c : Config) (fmt : PackedFormat) (src : List Byte) :
    (toCanonical c fmt src).reportsMismatch = false := by
  unfold toCanonical
  split_ifs <;> rfl

theorem reportsMismatch_fromCanonical (c : Config) (fmt : PackedFormat) (src : List Byte) :
    (fromCanonical c fmt src).reportsMismatch = false := by
  unfold fromCanonical
  split_ifs <;> rfl

theorem reportsMismatch_blockDecode (c : Config) (fmt : BlockFormat) (w h : Nat) (src : List Byte) :
    (blockDecode c fmt w h src).reportsMismatch = false := by
  cases hv : bcVariant c fmt with
  | none => rw [blockDecode_of_no_variant hv]; rfl
  | some v => rw [blockDecode_of_variant hv]; split_ifs <;> rfl

theorem reportsMismatch_blockEncode (c : Config) (fmt : BlockFormat) (w h : Nat) (src : List Byte) :
    (blockEncode c fmt w h src).reportsMismatch = false := by
  cases hv : bcVariant c fmt with
  | none => rw [blockEncode_of_no_variant hv]; rfl
  | some v =>
    cases hdim : dimensionOk w && dimensionOk h with
    | false => rw [blockEncode_of_bad_dimensions hv hdim]; rfl
    | true => rw [blockEncode_of_dimensionsOk hv hdim]; split_ifs <;> rfl

theorem reportsMismatch_rldResult (r : Except Nat (List Byte)) : (rldResult r).reportsMismatch = false := by
  cases r <;> rfl

/-- No command but `LZD` sets `CSUM_MISMATCH` (rule R29). -/
theorem exec_mismatch_of_ne_lzd {i : Instr} {s t : State} (hi : i.isCommand = true) (hlzd : i ≠ .lzd)
    (h : exec i s = .next t) : t.status.getLsbD 2 = false := by
  cases i with
  | pxdP4444 | pxdP1555 | pxdP8888 => exact runUnit_mismatch (reportsMismatch_toCanonical _ _) h
  | pxeP4444 | pxeP1555 | pxeP8888 => exact runUnit_mismatch (reportsMismatch_fromCanonical _ _) h
  | bcdBlk1 | bcdBlk2 | bcdBlk3 | bcdBlk4 | bcdBlk5 => exact runUnit_mismatch (reportsMismatch_blockDecode _ _ _ _) h
  | bceBlk1 | bceBlk2 | bceBlk3 | bceBlk4 | bceBlk5 => exact runUnit_mismatch (reportsMismatch_blockEncode _ _ _ _) h
  | rld => exact runUnit_mismatch (fun src => reportsMismatch_rldResult (decodeRle src)) h
  | rle | lze => exact runUnit_mismatch (fun _ => rfl) h
  | lzd => exact absurd rfl hlzd
  | sizeBlk1 | sizeBlk2 | sizeBlk3 | sizeBlk4 | sizeBlk5 | sizeP4444 | sizeP1555 | sizeP8888 | sizeIndexed =>
    exact runSize_mismatch h
  | rep | lit | l | p => cases hi

/-- Settles O22: the three bits of the `STATUS` word of a command's end. -/
theorem commandsAlwaysEnd : Obligations.CommandsAlwaysEnd := by
  intro i s hi
  obtain ⟨t, hexec⟩ := exec_command_next hi s
  obtain ⟨mismatch, hstatus⟩ := (exec_commandEnd hi hexec).status_eq
  refine ⟨t, hexec, ?_, ?_, fun hmismatch => ?_, ?_⟩
  · rw [hstatus, statusWord_done]
  · rw [hstatus, statusWord_err, bne_iff_ne]
  · by_contra hlzd
    rw [exec_mismatch_of_ne_lzd hi hlzd hexec] at hmismatch
    cases hmismatch
  · exact hstatus ▸ statusWord_lt _ _ _

/-! ### Reset applied by the host -/

/-- Settles O11: the host's action is `resetEngine`. -/
theorem hostResetRestoresResetValues : Obligations.HostResetRestoresResetValues :=
  fun s rest hs hh => step_of_done (fetch_host s .reset rest hs hh)

/-! ### Commands on the reset state -/

/-- The reset state of an engine with the given parameters. -/
def resetWith (c : Config) : State := { State.reset with cfg := c }

theorem resetWith_regionsOk (c : Config) : RegionsOk (resetWith c) where
  source := Nat.zero_le _
  destination := Nat.zero_le _
  apart := fun ⟨hpos, _⟩ => absurd hpos (Nat.lt_irrefl 0)

theorem readSource_resetWith (c : Config) : readSource (resetWith c) = [] := rfl

/-- A command with regions whose unit function answers no bytes with no bytes succeeds on the reset state. -/
theorem exec_resetWith_successEnd {i : Instr} {c : Config} {unit : List Byte → UnitResult}
    (hexec : exec i (resetWith c) = .next (runUnit unit (resetWith c))) (hunit : unit [] = okBytes []) :
    ∃ t, exec i (resetWith c) = .next t ∧ SuccessEnd [] 0 0 false (resetWith c) t :=
  ⟨_, hexec, runUnit_okBytes_successEnd (resetWith_regionsOk c) hunit (Nat.zero_le _)⟩

/-- A packet stands for at least one byte (rules R82, R83). -/
theorem packetOutput_ne_nil {packet : Packet} (h : packet.wellFormed = true) : packetOutput packet ≠ [] := by
  cases packet with
  | rep n b => simp [packetOutput]
  | lit bytes =>
    rintro rfl
    cases h

/-- Only the empty stream decodes to no bytes. -/
theorem eq_nil_of_decodeRle_eq_nil {e : List Byte} (h : decodeRle e = .ok []) : e = [] := by
  obtain ⟨packets, hwf, rfl | ⟨tail, htail, rfl⟩⟩ := everyStreamIsPacketsOrTruncated e
  · rw [decodeRle_packets hwf, Except.ok.injEq, List.flatMap_eq_nil_iff] at h
    cases packets with
    | nil => rfl
    | cons packet packets =>
      have hpacket := List.mem_cons_self (a := packet) (l := packets)
      exact absurd (h packet hpacket) (packetOutput_ne_nil (hwf packet hpacket))
  · rw [decodeRle_truncated hwf htail] at h
    cases h

/-- Every encoder that rule R167 admits encodes no bytes as no bytes. -/
theorem rleEncode_nil (c : Config) : rleEncode c [] = [] := eq_nil_of_decodeRle_eq_nil (decodeRle_rleEncode c [])

theorem toCanonical_nil (c : Config) (fmt : PackedFormat) : toCanonical c fmt [] = okBytes [] := by
  cases fmt <;> rfl

theorem fromCanonical_nil (c : Config) (fmt : PackedFormat) : fromCanonical c fmt [] = okBytes [] := by
  cases fmt <;> rfl

/-- An image of no pixels is decoded from no bytes (rule R146). -/
theorem blockDecode_nil {c : Config} {fmt : BlockFormat} {v : BcVariant} (hv : bcVariant c fmt = some v) :
    blockDecode c fmt 0 0 [] = okBytes [] := by
  have hsize : compressedSize v 0 0 = 0 := by cases v <;> rfl
  have hpixels : bcDec c v 0 0 [] = [] := List.eq_nil_of_length_eq_zero (bcDec_length c v 0 0 [])
  simp [blockDecode_of_variant hv, hsize, hpixels]

/-- The commands that accept the empty source and have no dimensions to check (rule R293). -/
def emptySourceCommands : List Instr :=
  [.rld, .rle, .pxdP4444, .pxdP1555, .pxdP8888, .pxeP4444, .pxeP1555, .pxeP8888]

theorem exec_emptySource_successEnd {i : Instr} (c : Config) (hi : i ∈ emptySourceCommands) :
    ∃ t, exec i (resetWith c) = .next t ∧ SuccessEnd [] 0 0 false (resetWith c) t := by
  simp only [emptySourceCommands, List.mem_cons, List.not_mem_nil, or_false] at hi
  obtain rfl | rfl | rfl | rfl | rfl | rfl | rfl | rfl := hi
  · exact exec_resetWith_successEnd (exec_rld _) rfl
  · exact exec_resetWith_successEnd (exec_rle _) (congrArg okBytes (rleEncode_nil c))
  · exact exec_resetWith_successEnd rfl (toCanonical_nil c .p4444)
  · exact exec_resetWith_successEnd rfl (toCanonical_nil c .p1555)
  · exact exec_resetWith_successEnd rfl (toCanonical_nil c .p8888)
  · exact exec_resetWith_successEnd rfl (fromCanonical_nil c .p4444)
  · exact exec_resetWith_successEnd rfl (fromCanonical_nil c .p1555)
  · exact exec_resetWith_successEnd rfl (fromCanonical_nil c .p8888)

/-- A size of 0 is the success end of a command without a result. -/
theorem sizeEnd_zero (s : State) : sizeEnd 0 s = succeed [] 0 0 false s := rfl

/-- An image of no pixels has size 0 in every format that has a size (rule R111). -/
theorem exec_size_successEnd {i : Instr} (c : Config) (hi : i ∈ sizedCommands.map Prod.fst) :
    ∃ t, exec i (resetWith c) = .next t ∧ SuccessEnd [] 0 0 false (resetWith c) t := by
  obtain ⟨mul, div, hsized, hmul⟩ := sizedCommand_factor hi
  have hexec := exec_sizedCommand_of_dimensions (s := resetWith c) hsized hmul (Nat.zero_le _) (Nat.zero_le _)
  have hzero : (resetWith c).width.toNat * (resetWith c).height.toNat * mul / div = 0 := by simp [resetWith, State.reset]
  rw [hzero, sizeEnd_zero] at hexec
  exact ⟨_, hexec, succeed_successEnd [] 0 0 false _ (by decide)⟩

theorem exec_bcd_successEnd {i : Instr} {fmt : BlockFormat} {c : Config} (hi : (i, fmt) ∈ bcdCommands)
    (hcodec : bcVariant c fmt ≠ none) :
    ∃ t, exec i (resetWith c) = .next t ∧ SuccessEnd [] 0 0 false (resetWith c) t := by
  obtain ⟨v, hv⟩ := Option.ne_none_iff_exists'.1 hcodec
  exact exec_resetWith_successEnd (exec_bcdCommand hi _) (blockDecode_nil hv)

/-- 0 is no power of two (rules R148, R149). -/
theorem exec_bce_errorEnd {i : Instr} {fmt : BlockFormat} {c : Config} (hi : (i, fmt) ∈ bceCommands)
    (hcodec : bcVariant c fmt ≠ none) :
    ∃ t, exec i (resetWith c) = .next t ∧ ErrorEnd 6 0 0 (resetWith c) t := by
  obtain ⟨v, hv⟩ := Option.ne_none_iff_exists'.1 hcodec
  have hunit := blockEncode_of_bad_dimensions hv (w := 0) (h := 0) (by decide) []
  exact ⟨_, exec_bceCommand hi _, runUnit_errPlain_errorEnd (resetWith_regionsOk c) hunit⟩

/-- The four bytes of the checksum do not fit a destination of none (rule R191). -/
theorem exec_lze_errorEnd (c : Config) :
    ∃ t, exec .lze (resetWith c) = .next t ∧ ErrorEnd 11 0 0 (resetWith c) t := by
  refine ⟨_, exec_lze _, runUnit_ok_errorEnd (resetWith_regionsOk c) rfl ?_⟩
  rw [List.length_append, bytesLe32]
  exact Nat.lt_add_left _ (Nat.succ_pos 3)

/-- The tokens of an output of no bytes take no bytes, and the trailer is missing (rules R184, R187). -/
theorem exec_lzd_errorEnd {c : Config} (hformat : c.lzFormat = .lzss) :
    ∃ t, exec .lzd (resetWith c) = .next t ∧ ErrorEnd 8 0 0 (resetWith c) t := by
  have htokens : lzDecodeTokens c [] 0 = .ok ([], 0) := by rw [lzDecodeTokens, hformat]; rfl
  have hleft : (resetWith c).srcLen.toNat - 0 < 4 := Nat.succ_pos 3
  have hends := (lzdEnds (resetWith c) (resetWith_regionsOk c)).2 [] 0 htokens
  rwa [if_pos (.inl hleft)] at hends

/-- The word 0 has no operation (rule R76). -/
theorem step_illegalWord_errorEnd (c : Config) :
    ∃ t, step { resetWith c with host := [.writeReg 0x20 0] } = .next t ∧ ErrorEnd 1 0 0 (resetWith c) t :=
  illegalWordEndsInIllegalCmd.1 _ 0 [] rfl rfl (.inr (by simp [FormatAccepted]))

/-- Settles O10: each group of commands on the reset state. -/
theorem commandsOnTheResetState : Obligations.CommandsOnTheResetState := by
  intro c _ s
  refine ⟨fun i hi => ?_, fun _ hp hcodec => exec_bcd_successEnd hp hcodec,
    fun _ hp hcodec => exec_bce_errorEnd hp hcodec, exec_lze_errorEnd c, exec_lzd_errorEnd,
    step_illegalWord_errorEnd c⟩
  have hgroups : i ∈ emptySourceCommands ++ sizedCommands.map Prod.fst := hi
  obtain hempty | hsize := List.mem_append.1 hgroups
  · exact exec_emptySource_successEnd c hempty
  · exact exec_size_successEnd c hsize

end Sys2Proof.Machine
